-- ==== Sys2Proof/Word.lean ====
section
/-! DEFINITION. The 32-bit word of the CFDL core (00_scope rules R6 to R8). -/

namespace Sys2Proof

/-- Every register, sample and bus datum is a 32-bit word (R6 WORD, R8). -/
abbrev Word := BitVec 32

/-- A 20-bit host transaction descriptor, format HT (30_encoding R93). -/
abbrev Descriptor := BitVec 20

/-- The index k = A[13:2] of a word in a block window (30_encoding R96). -/
abbrev WindowIndex := BitVec 12

/-- One of the two audio channels: channel 0 is left, channel 1 is right (00_scope R6, NCH). -/
inductive Channel where
  | left
  | right
deriving DecidableEq, Repr

/-- The memories whose words are UNSPECIFIED at reset (10_state R44 to R46). -/
inductive Store where
  | delayRam (c : Channel)
  | inputWindow (c : Channel)
  | outputWindow (c : Channel)
deriving DecidableEq, Repr

end Sys2Proof
end

