-- ==== Sys2Proof/Syntax.lean ====
section
/-! DEFINITION. The operations of the CFDL core: one constructor for every row of spec/opcode_table.json, 44 host bus
transactions and 4 command words (30_encoding R98). -/

namespace Sys2Proof

/-- An operation. `wdata` is the WDATA word of a write (30_encoding R93); `k` is A[13:2]; `word` is the word number of a
register-page offset, A[6:2] (A[5:2] for WR_OBS, whose A[6] is 1); `size` and `a` are the SIZE and A fields of a
transaction that no earlier row matches (46_host_bus R330, R331). -/
inductive Instr where
  /-- RD_CMD (46_host_bus R275). -/
  | rdCmd
  /-- RD_STATUS (46_host_bus R276). -/
  | rdStatus
  /-- RD_SR_IN (46_host_bus R278). -/
  | rdSrIn
  /-- RD_MAXBLK_IN (46_host_bus R280). -/
  | rdMaxblkIn
  /-- RD_FRAME_COUNT (46_host_bus R282). -/
  | rdFrameCount
  /-- RD_DRYWET (46_host_bus R284). -/
  | rdDrywet
  /-- RD_DEPTH (46_host_bus R286). -/
  | rdDepth
  /-- RD_RATE (46_host_bus R288). -/
  | rdRate
  /-- RD_PHASE_OFFSET (46_host_bus R290). -/
  | rdPhaseOffset
  /-- RD_FEEDBACK (46_host_bus R292). -/
  | rdFeedback
  /-- RD_TYPE (46_host_bus R294). -/
  | rdType
  /-- RD_CFG_SR (46_host_bus R296). -/
  | rdCfgSr
  /-- RD_CFG_LEN (46_host_bus R297). -/
  | rdCfgLen
  /-- RD_CFG_MAXBLK (46_host_bus R298). -/
  | rdCfgMaxblk
  /-- RD_FRAMES_DONE (46_host_bus R299). -/
  | rdFramesDone
  /-- RD_WHEAD_L (46_host_bus R300). -/
  | rdWheadL
  /-- RD_WHEAD_R (46_host_bus R301). -/
  | rdWheadR
  /-- RD_LFO_PHASE (46_host_bus R302). -/
  | rdLfoPhase
  /-- RD_FB_L (46_host_bus R303). -/
  | rdFbL
  /-- RD_FB_R (46_host_bus R304). -/
  | rdFbR
  /-- WR_CMD (46_host_bus R274). -/
  | wrCmd (wdata : Word)
  /-- WR_STATUS (46_host_bus R277). -/
  | wrStatus (wdata : Word)
  /-- WR_SR_IN (46_host_bus R279). -/
  | wrSrIn (wdata : Word)
  /-- WR_MAXBLK_IN (46_host_bus R281). -/
  | wrMaxblkIn (wdata : Word)
  /-- WR_FRAME_COUNT (46_host_bus R283). -/
  | wrFrameCount (wdata : Word)
  /-- WR_DRYWET (46_host_bus R285). -/
  | wrDrywet (wdata : Word)
  /-- WR_DEPTH (46_host_bus R287). -/
  | wrDepth (wdata : Word)
  /-- WR_RATE (46_host_bus R289). -/
  | wrRate (wdata : Word)
  /-- WR_PHASE_OFFSET (46_host_bus R291). -/
  | wrPhaseOffset (wdata : Word)
  /-- WR_FEEDBACK (46_host_bus R293). -/
  | wrFeedback (wdata : Word)
  /-- WR_TYPE (46_host_bus R295). -/
  | wrType (wdata : Word)
  /-- WR_OBS (46_host_bus R305). -/
  | wrObs (word : BitVec 4) (wdata : Word)
  /-- RD_RSVD (46_host_bus R310). -/
  | rdRsvd (word : BitVec 5)
  /-- WR_RSVD (46_host_bus R311). -/
  | wrRsvd (word : BitVec 5) (wdata : Word)
  /-- RD_IBUF_L (46_host_bus R320). -/
  | rdIbufL (k : WindowIndex)
  /-- WR_IBUF_L (46_host_bus R321). -/
  | wrIbufL (k : WindowIndex) (wdata : Word)
  /-- RD_IBUF_R (46_host_bus R322). -/
  | rdIbufR (k : WindowIndex)
  /-- WR_IBUF_R (46_host_bus R323). -/
  | wrIbufR (k : WindowIndex) (wdata : Word)
  /-- RD_OBUF_L (46_host_bus R324). -/
  | rdObufL (k : WindowIndex)
  /-- WR_OBUF_L (46_host_bus R325). -/
  | wrObufL (k : WindowIndex) (wdata : Word)
  /-- RD_OBUF_R (46_host_bus R326). -/
  | rdObufR (k : WindowIndex)
  /-- WR_OBUF_R (46_host_bus R327). -/
  | wrObufR (k : WindowIndex) (wdata : Word)
  /-- RD_BUSERR (46_host_bus R330). -/
  | rdBuserr (size : BitVec 2) (a : BitVec 17)
  /-- WR_BUSERR (46_host_bus R331). -/
  | wrBuserr (size : BitVec 2) (a : BitVec 17) (wdata : Word)
  /-- NOP (45_commands R242). -/
  | nop
  /-- CONFIGURE (45_commands R244). -/
  | configure
  /-- PROCESS (45_commands R245). -/
  | process
  /-- CMD_ILLEGAL (45_commands R241). -/
  | cmdIllegal (v : Word)
deriving DecidableEq, Repr

end Sys2Proof
end

