-- ==== Sys2Proof/WellFormed.lean ====
section
/-! DEFINITION. Which operands an operation's encoding admits: an operation is well formed exactly when some transaction
or command word of 30_encoding decodes to it. -/

namespace Sys2Proof

/-- The offset of register-page word `word` is reserved for reads: 0x014, 0x018, 0x01C, 0x038, 0x03C, 0x064 to 0x07C
(46_host_bus R310). -/
def reservedForRead (word : BitVec 5) : Bool :=
  [5#5, 6#5, 7#5, 14#5, 15#5, 25#5, 26#5, 27#5, 28#5, 29#5, 30#5, 31#5].contains word

/-- The offset of register-page word `word` is reserved for writes in the lower half of the page: 0x014, 0x018, 0x01C,
0x038, 0x03C (46_host_bus R311). -/
def reservedForWrite (word : BitVec 5) : Bool :=
  [5#5, 6#5, 7#5, 14#5, 15#5].contains word

/-- The access reaches no word: SIZE ≠ 10, A[1:0] ≠ 00, A[16:14] in 101, 110, 111, or a page address with A[13:7] ≠ 0
(46_host_bus R330, 60_exceptions R358). -/
def unmappedAccess (size : BitVec 2) (a : BitVec 17) : Bool :=
  size != 2#2 || a.extractLsb' 0 2 != 0#2 || decide (5#3 ≤ a.extractLsb' 14 3) ||
    (a.extractLsb' 14 3 == 0#3 && a.extractLsb' 7 7 != 0#7)

/-- The command word has RSVD ≠ 0 or OP in 0x3–0xF (30_encoding R91, R92; 45_commands R241). -/
def illegalCommand (v : Word) : Bool :=
  v.extractLsb' 4 28 != 0#28 || decide (3#4 ≤ v.extractLsb' 0 4)

/-- The operands are ones the encoding admits. -/
def Instr.wellFormed : Instr → Bool
  | .rdRsvd word => reservedForRead word
  | .wrRsvd word _ => reservedForWrite word
  | .rdBuserr size a => unmappedAccess size a
  | .wrBuserr size a _ => unmappedAccess size a
  | .cmdIllegal v => illegalCommand v
  | .rdCmd | .rdStatus | .rdSrIn | .rdMaxblkIn | .rdFrameCount | .rdDrywet | .rdDepth | .rdRate | .rdPhaseOffset
  | .rdFeedback | .rdType | .rdCfgSr | .rdCfgLen | .rdCfgMaxblk | .rdFramesDone | .rdWheadL | .rdWheadR
  | .rdLfoPhase | .rdFbL | .rdFbR => true
  | .wrCmd _ | .wrStatus _ | .wrSrIn _ | .wrMaxblkIn _ | .wrFrameCount _ | .wrDrywet _ | .wrDepth _ | .wrRate _
  | .wrPhaseOffset _ | .wrFeedback _ | .wrType _ | .wrObs _ _ => true
  | .rdIbufL _ | .rdIbufR _ | .rdObufL _ | .rdObufR _ => true
  | .wrIbufL _ _ | .wrIbufR _ _ | .wrObufL _ _ | .wrObufR _ _ => true
  | .nop | .configure | .process => true

end Sys2Proof
end

