-- ==== Sys2Proof/Decode.lean ====
section
/-! DEFINITION. The decoder and the encoder, from the formats HT and CMD of 30_encoding R90 to R95 and the masks of
spec/opcode_table.json. A descriptor and a command word always decode (R95); only a raw record that is neither is
rejected, by name. -/

namespace Sys2Proof

/-- What an operation is encoded as. -/
inductive Encoding where
  /-- A host transaction: the descriptor HT and WDATA. A read carries no WDATA; the model writes 0 there (R93). -/
  | transaction (ht : Descriptor) (wdata : Word)
  /-- A command word (R90), carried to the core by a write to CMD. -/
  | command (v : Word)
deriving DecidableEq, Repr

/-- One row of the opcode table: a descriptor `ht` matches when `ht &&& mask = value` (R95). -/
structure HtRow where
  mask : Descriptor
  value : Descriptor
  build : Descriptor → Word → Instr

/-- The window index k = A[13:2] of a descriptor (R96). -/
def windowIndex (ht : Descriptor) : WindowIndex := ht.extractLsb' 2 12

/-- The register read rows, in table order. -/
def readRows : List HtRow := [
  ⟨0xFFFFF#20, 0x40000#20, fun _ _ => .rdCmd⟩,
  ⟨0xFFFFF#20, 0x40004#20, fun _ _ => .rdStatus⟩,
  ⟨0xFFFFF#20, 0x40008#20, fun _ _ => .rdSrIn⟩,
  ⟨0xFFFFF#20, 0x4000C#20, fun _ _ => .rdMaxblkIn⟩,
  ⟨0xFFFFF#20, 0x40010#20, fun _ _ => .rdFrameCount⟩,
  ⟨0xFFFFF#20, 0x40020#20, fun _ _ => .rdDrywet⟩,
  ⟨0xFFFFF#20, 0x40024#20, fun _ _ => .rdDepth⟩,
  ⟨0xFFFFF#20, 0x40028#20, fun _ _ => .rdRate⟩,
  ⟨0xFFFFF#20, 0x4002C#20, fun _ _ => .rdPhaseOffset⟩,
  ⟨0xFFFFF#20, 0x40030#20, fun _ _ => .rdFeedback⟩,
  ⟨0xFFFFF#20, 0x40034#20, fun _ _ => .rdType⟩,
  ⟨0xFFFFF#20, 0x40040#20, fun _ _ => .rdCfgSr⟩,
  ⟨0xFFFFF#20, 0x40044#20, fun _ _ => .rdCfgLen⟩,
  ⟨0xFFFFF#20, 0x40048#20, fun _ _ => .rdCfgMaxblk⟩,
  ⟨0xFFFFF#20, 0x4004C#20, fun _ _ => .rdFramesDone⟩,
  ⟨0xFFFFF#20, 0x40050#20, fun _ _ => .rdWheadL⟩,
  ⟨0xFFFFF#20, 0x40054#20, fun _ _ => .rdWheadR⟩,
  ⟨0xFFFFF#20, 0x40058#20, fun _ _ => .rdLfoPhase⟩,
  ⟨0xFFFFF#20, 0x4005C#20, fun _ _ => .rdFbL⟩,
  ⟨0xFFFFF#20, 0x40060#20, fun _ _ => .rdFbR⟩]

/-- The register write rows, in table order. -/
def writeRows : List HtRow := [
  ⟨0xFFFFF#20, 0xC0000#20, fun _ v => .wrCmd v⟩,
  ⟨0xFFFFF#20, 0xC0004#20, fun _ v => .wrStatus v⟩,
  ⟨0xFFFFF#20, 0xC0008#20, fun _ v => .wrSrIn v⟩,
  ⟨0xFFFFF#20, 0xC000C#20, fun _ v => .wrMaxblkIn v⟩,
  ⟨0xFFFFF#20, 0xC0010#20, fun _ v => .wrFrameCount v⟩,
  ⟨0xFFFFF#20, 0xC0020#20, fun _ v => .wrDrywet v⟩,
  ⟨0xFFFFF#20, 0xC0024#20, fun _ v => .wrDepth v⟩,
  ⟨0xFFFFF#20, 0xC0028#20, fun _ v => .wrRate v⟩,
  ⟨0xFFFFF#20, 0xC002C#20, fun _ v => .wrPhaseOffset v⟩,
  ⟨0xFFFFF#20, 0xC0030#20, fun _ v => .wrFeedback v⟩,
  ⟨0xFFFFF#20, 0xC0034#20, fun _ v => .wrType v⟩]

/-- WR_OBS, then the reserved words of the page (R95, items 2 and 3). -/
def pageRows : List HtRow := [
  ⟨0xFFFC3#20, 0xC0040#20, fun ht v => .wrObs (ht.extractLsb' 2 4) v⟩,
  ⟨0xFFF83#20, 0x40000#20, fun ht _ => .rdRsvd (ht.extractLsb' 2 5)⟩,
  ⟨0xFFF83#20, 0xC0000#20, fun ht v => .wrRsvd (ht.extractLsb' 2 5) v⟩]

/-- The window rows, in table order (R95, item 4). -/
def windowRows : List HtRow := [
  ⟨0xFC003#20, 0x44000#20, fun ht _ => .rdIbufL (windowIndex ht)⟩,
  ⟨0xFC003#20, 0xC4000#20, fun ht v => .wrIbufL (windowIndex ht) v⟩,
  ⟨0xFC003#20, 0x48000#20, fun ht _ => .rdIbufR (windowIndex ht)⟩,
  ⟨0xFC003#20, 0xC8000#20, fun ht v => .wrIbufR (windowIndex ht) v⟩,
  ⟨0xFC003#20, 0x4C000#20, fun ht _ => .rdObufL (windowIndex ht)⟩,
  ⟨0xFC003#20, 0xCC000#20, fun ht v => .wrObufL (windowIndex ht) v⟩,
  ⟨0xFC003#20, 0x50000#20, fun ht _ => .rdObufR (windowIndex ht)⟩,
  ⟨0xFC003#20, 0xD0000#20, fun ht v => .wrObufR (windowIndex ht) v⟩]

/-- The host rows ahead of the two bus-error rows, in the order of R95. -/
def htRows : List HtRow := readRows ++ writeRows ++ pageRows ++ windowRows

/-- RD_BUSERR and WR_BUSERR, which match every remaining read and write (R95, item 5). -/
def decodeBusError (ht : Descriptor) (wdata : Word) : Instr :=
  if ht &&& 0x80000#20 = 0x80000#20 then .wrBuserr (ht.extractLsb' 17 2) (ht.extractLsb' 0 17) wdata
  else .rdBuserr (ht.extractLsb' 17 2) (ht.extractLsb' 0 17)

/-- Decoding a descriptor: the first row of the table that matches (R95). -/
def decodeHT (ht : Descriptor) (wdata : Word) : Instr :=
  match htRows.find? (fun r => ht &&& r.mask == r.value) with
  | some r => r.build ht wdata
  | none => decodeBusError ht wdata

/-- Decoding a command word: NOP, CONFIGURE, PROCESS, then CMD_ILLEGAL, which matches everything else (R95). -/
def decodeCommand (v : Word) : Instr :=
  if v &&& 0xFFFFFFFF#32 = 0#32 then .nop
  else if v &&& 0xFFFFFFFF#32 = 1#32 then .configure
  else if v &&& 0xFFFFFFFF#32 = 2#32 then .process
  else .cmdIllegal v

/-- Decoding either format. -/
def decode : Encoding → Instr
  | .transaction ht wdata => decodeHT ht wdata
  | .command v => decodeCommand v

/-- Why a raw record is neither a host transaction nor a command word. -/
inductive DecodeError where
  /-- A descriptor has 20 bits (R93) and the record has one of bits 23 to 20 set. -/
  | descriptorTooWide
  /-- The record is longer than a descriptor with its WDATA (7 bytes). -/
  | unknownLength
deriving DecidableEq, Repr

/-- A raw record of `nbits` bits, numbered as the opcode table numbers them. Up to 24 bits: a descriptor, with WDATA 0
(the bits above are 0). 25 to 32 bits: a command word. 33 to 56 bits: a descriptor in bits 19:0 and WDATA in bits
55:24. Assumption log 14. -/
def encodingOfRecord (nbits w : Nat) : Except DecodeError Encoding :=
  if nbits ≤ 24 then
    if w < 2 ^ 20 then .ok (.transaction (BitVec.ofNat 20 w) 0#32) else .error .descriptorTooWide
  else if nbits ≤ 32 then .ok (.command (BitVec.ofNat 32 w))
  else if nbits ≤ 56 then
    if w % 2 ^ 24 < 2 ^ 20 then .ok (.transaction (BitVec.ofNat 20 w) (BitVec.ofNat 32 (w / 2 ^ 24)))
    else .error .descriptorTooWide
  else .error .unknownLength

/-- Decoding a raw record, total on every number, rejecting by name. -/
def decodeRecord (nbits w : Nat) : Except DecodeError Instr := (encodingOfRecord nbits w).map decode

/-- The instruction the decoder reads from a row's bits (`none` where it rejects). -/
def decodeTableWord (nbits w : Nat) : Option Instr := (decodeRecord nbits w).toOption

/-- The descriptor with fields W, SIZE and A (R93). -/
def descriptor (w : BitVec 1) (size : BitVec 2) (a : BitVec 17) : Descriptor := w ++ size ++ a

/-- An aligned 4-byte access to word `word` of the register page: A[16:7] = 0, A[6:2] = `word`, A[1:0] = 00. -/
def pageDescriptor (w : BitVec 1) (word : BitVec 5) : Descriptor := descriptor w 2#2 (0#10 ++ word ++ 0#2)

/-- An aligned 4-byte access to word `k` of the window in region A[16:14]. -/
def windowDescriptor (w : BitVec 1) (region : BitVec 3) (k : WindowIndex) : Descriptor :=
  descriptor w 2#2 (region ++ k ++ 0#2)

/-- A read of register-page word `word`. -/
def readWord (word : BitVec 5) : Encoding := .transaction (pageDescriptor 0#1 word) 0#32

/-- A write of register-page word `word`. -/
def writeWord (word : BitVec 5) (wdata : Word) : Encoding := .transaction (pageDescriptor 1#1 word) wdata

/-- The encoding of an operation, from the register offsets of 10_state R25 and 30_encoding R98, the address map of
20_memory R61 and the command opcodes of 30_encoding R91. Word number = offset / 4. -/
def encode : Instr → Encoding
  | .rdCmd => readWord 0#5
  | .rdStatus => readWord 1#5
  | .rdSrIn => readWord 2#5
  | .rdMaxblkIn => readWord 3#5
  | .rdFrameCount => readWord 4#5
  | .rdDrywet => readWord 8#5
  | .rdDepth => readWord 9#5
  | .rdRate => readWord 10#5
  | .rdPhaseOffset => readWord 11#5
  | .rdFeedback => readWord 12#5
  | .rdType => readWord 13#5
  | .rdCfgSr => readWord 16#5
  | .rdCfgLen => readWord 17#5
  | .rdCfgMaxblk => readWord 18#5
  | .rdFramesDone => readWord 19#5
  | .rdWheadL => readWord 20#5
  | .rdWheadR => readWord 21#5
  | .rdLfoPhase => readWord 22#5
  | .rdFbL => readWord 23#5
  | .rdFbR => readWord 24#5
  | .wrCmd v => writeWord 0#5 v
  | .wrStatus v => writeWord 1#5 v
  | .wrSrIn v => writeWord 2#5 v
  | .wrMaxblkIn v => writeWord 3#5 v
  | .wrFrameCount v => writeWord 4#5 v
  | .wrDrywet v => writeWord 8#5 v
  | .wrDepth v => writeWord 9#5 v
  | .wrRate v => writeWord 10#5 v
  | .wrPhaseOffset v => writeWord 11#5 v
  | .wrFeedback v => writeWord 12#5 v
  | .wrType v => writeWord 13#5 v
  | .wrObs word v => writeWord (1#1 ++ word) v
  | .rdRsvd word => readWord word
  | .wrRsvd word v => writeWord word v
  | .rdIbufL k => .transaction (windowDescriptor 0#1 1#3 k) 0#32
  | .wrIbufL k v => .transaction (windowDescriptor 1#1 1#3 k) v
  | .rdIbufR k => .transaction (windowDescriptor 0#1 2#3 k) 0#32
  | .wrIbufR k v => .transaction (windowDescriptor 1#1 2#3 k) v
  | .rdObufL k => .transaction (windowDescriptor 0#1 3#3 k) 0#32
  | .wrObufL k v => .transaction (windowDescriptor 1#1 3#3 k) v
  | .rdObufR k => .transaction (windowDescriptor 0#1 4#3 k) 0#32
  | .wrObufR k v => .transaction (windowDescriptor 1#1 4#3 k) v
  | .rdBuserr size a => .transaction (descriptor 0#1 size a) 0#32
  | .wrBuserr size a v => .transaction (descriptor 1#1 size a) v
  | .nop => .command 0#32
  | .configure => .command 1#32
  | .process => .command 2#32
  | .cmdIllegal v => .command v

end Sys2Proof
end

