-- ==== Sys2Proof/Config.lean ====
section
/-! DEFINITION. What an implementation of the CFDL core fixes: the parameters of 00_scope R6, the binary32 constants of
R15, and the values the spec leaves open, which have no body, so that nothing can be proved of them. -/

namespace Sys2Proof.Config

/-- DL_DEPTH: words of delay RAM per channel (R6). -/
def dlDepth : Nat := 524288
/-- BLOCK_CAP: words per block window, and the largest block (R6). -/
def blockCap : Nat := 4096
/-- L_MIN: the shortest delay line (R6). -/
def lMin : Nat := 2

/-- ONE = 1 (R15). -/
def one : Word := 0x3F800000#32
/-- −1, the lower end of SINE's range (41_lfo R141, S1 and S2). -/
def minusOne : Word := 0xBF800000#32
/-- HALF = 1/2 (R15). -/
def half : Word := 0x3F000000#32
/-- TWO_S = MAX_DELAY_S = 2 seconds (R6, R15). -/
def twoSeconds : Word := 0x40000000#32
/-- LO_C, the chorus low edge 0.005 s (R15). -/
def loChorus : Word := 0x3BA3D70A#32
/-- HI_C, the chorus high edge 0.03 s (R15). -/
def hiChorus : Word := 0x3CF5C28F#32
/-- SPAN_C = sub32(HI_C, LO_C) (R15). -/
def spanChorus : Word := 0x3CCCCCCC#32
/-- LO_F, the flanger low edge 0.001 s (R15). -/
def loFlanger : Word := 0x3A83126F#32
/-- HI_F, the flanger high edge 0.005 s (R15). -/
def hiFlanger : Word := 0x3BA3D70A#32
/-- SPAN_F = sub32(HI_F, LO_F) (R15). -/
def spanFlanger : Word := 0x3B83126E#32
/-- RATE_MIN = 0.1 Hz (R15). -/
def rateMin : Word := 0x3DCCCCCD#32
/-- RATE_MAX = 20 Hz (R15). -/
def rateMax : Word := 0x41A00000#32
/-- FB_MAX = 0.98 (R15). -/
def fbMax : Word := 0x3F7AE148#32
/-- SR_MIN = 1 Hz (R15). -/
def srMin : Word := 0x3F800000#32
/-- SR_MAX = 262144 Hz (R15). -/
def srMax : Word := 0x48800000#32
/-- CNAN, the canonical quiet NaN (R10, R15). -/
def cnan : Word := 0x7FC00000#32

/-- FREE VALUE. The draw of an UNSPECIFIED word: what word `i` of `store` reads as between the `epoch`-th reset and the
first write to it (10_state R44 to R46, 20_memory R68, 70_reset_and_hazards R390: "every word an independent draw").
Assumption log 2. -/
opaque draw (epoch : Nat) (store : Store) (i : Nat) : Word

/-- FREE VALUE. The sine unit of the implementation, before properties S1 and S2 of 41_lfo R141 are imposed on it
(`Machine.sine` imposes them). Assumption log 9. -/
opaque sineUnit (phase : Word) : Word

/-- FREE VALUE. FRAME_LATENCY, the time of one frame step (70_reset_and_hazards R410, 92 D31). Assumption log 16. -/
opaque frameLatency : Nat
/-- FREE VALUE. CONFIG_LATENCY, the time of one configuration step (70_reset_and_hazards R410, 92 D31).
Assumption log 16. -/
opaque configLatency : Nat

end Sys2Proof.Config
end

