-- ==== Sys2Proof/Machine/Binary32.lean ====
section
/-! DEFINITION. IEEE 754 binary32 arithmetic (00_scope R8 to R13): every operation computes the exact result and rounds it
once, to nearest with ties to even. A finite word's magnitude is held exactly, as a natural number of units of 2^−149,
the smallest subnormal. Assumption log 18. -/

namespace Sys2Proof.Machine

/-- Bit 31. -/
def signBit (x : Word) : Bool := x.msb
/-- The biased exponent, bits 30:23. -/
def exponentField (x : Word) : Nat := (x.extractLsb' 23 8).toNat
/-- The fraction, bits 22:0. -/
def fractionField (x : Word) : Nat := (x.extractLsb' 0 23).toNat

/-- Bits 30:23 are not all ones (R12). -/
def isFinite (x : Word) : Bool := exponentField x != 255
def isNaN (x : Word) : Bool := exponentField x == 255 && fractionField x != 0
def isInf (x : Word) : Bool := exponentField x == 255 && fractionField x == 0

/-- |x| in units of 2^−149, for a finite x. (An infinity gives 2^277, which is above every finite magnitude.) -/
def magnitude (x : Word) : Nat :=
  if exponentField x = 0 then fractionField x else (2 ^ 23 + fractionField x) * 2 ^ (exponentField x - 1)

/-- x in units of 2^−149, for a finite x. -/
def signedValue (x : Word) : Int := if signBit x then -(magnitude x : Int) else (magnitude x : Int)

/-- a / b rounded to the nearest integer, ties to even, for b > 0. -/
def divNearestEven (a b : Nat) : Nat :=
  let q := a / b
  let r := a % b
  if b < 2 * r ∨ (2 * r = b ∧ q % 2 = 1) then q + 1 else q

/-- The bits 30:0 of the binary32 magnitude nearest to num / den units of 2^−149, ties to even; overflow gives infinity
and underflow is gradual (R9). The significand has at most 24 bits in units of 2^k, and `k * 2^23 + significand` is
the encoding, carries included. -/
def roundMagnitude (num den : Nat) : Nat :=
  let k := Nat.log2 (num / den) - 23
  min (k * 2 ^ 23 + divNearestEven num (den * 2 ^ k)) 0x7F800000

/-- The word with the given sign and bits 30:0. -/
def packWord (negative : Bool) (bits : Nat) : Word := BitVec.ofBool negative ++ BitVec.ofNat 31 bits

/-- The exact value (−1)^negative · num / den units of 2^−149, rounded once (R9). -/
def roundRational (negative : Bool) (num den : Nat) : Word := packWord negative (roundMagnitude num den)

/-- x with its sign bit flipped. -/
def negate (x : Word) : Word := x ^^^ 0x80000000#32

/-- a + b (R9, R10). -/
def add32 (a b : Word) : Word :=
  if isNaN a || isNaN b then Config.cnan
  else if isInf a then (if isInf b && signBit a != signBit b then Config.cnan else a)
  else if isInf b then b
  else
    let v := signedValue a + signedValue b
    if v = 0 then packWord (signBit a && signBit b) 0
    else roundRational (decide (v < 0)) v.natAbs 1

/-- a − b, which IEEE 754 defines as a + (−b) (R9, R10). -/
def sub32 (a b : Word) : Word := add32 a (negate b)

/-- a × b (R9, R10). -/
def mul32 (a b : Word) : Word :=
  if isNaN a || isNaN b then Config.cnan
  else if isInf a || isInf b then
    (if magnitude a = 0 ∨ magnitude b = 0 then Config.cnan else packWord (signBit a != signBit b) 0x7F800000)
  else roundRational (signBit a != signBit b) (magnitude a * magnitude b) (2 ^ 149)

/-- a / b (R9, R10). -/
def div32 (a b : Word) : Word :=
  if isNaN a || isNaN b then Config.cnan
  else if isInf a then (if isInf b then Config.cnan else packWord (signBit a != signBit b) 0x7F800000)
  else if isInf b then packWord (signBit a != signBit b) 0
  else if magnitude b = 0 then
    (if magnitude a = 0 then Config.cnan else packWord (signBit a != signBit b) 0x7F800000)
  else roundRational (signBit a != signBit b) (magnitude a * 2 ^ 149) (magnitude b)

/-- Ordered comparisons (R11): false when either operand is a NaN; +0 = −0; infinities beyond every finite value. -/
def ordered (a b : Word) : Bool := !isNaN a && !isNaN b
def lt32 (a b : Word) : Bool := ordered a b && decide (signedValue a < signedValue b)
def le32 (a b : Word) : Bool := ordered a b && decide (signedValue a ≤ signedValue b)
def ge32 (a b : Word) : Bool := ordered a b && decide (signedValue b ≤ signedValue a)
def eq32 (a b : Word) : Bool := ordered a b && decide (signedValue a = signedValue b)

/-- u2f32(n), the word exactly equal to n (R12, for n < 2^24; assumption log 11 for larger n). -/
def u2f32 (n : Nat) : Word := roundRational false (n * 2 ^ 149) 1

/-- floorU(x), the integer ⌊x⌋, for a finite x ≥ 0, −0 included (R12); no value elsewhere. -/
def floorU (x : Word) : Option Nat :=
  if isFinite x ∧ 0 ≤ signedValue x then some (magnitude x / 2 ^ 149) else none

/-- frac32(s) = sub32(s, u2f32(floorU(s))) (R12). DESIGN CHOICE (assumption log 22): for s = −0 this formula gives −0, where
R12's derived sentence says +0 for every integer s; the formula is followed. No state of the invariant reaches it. -/
def frac32 (s : Word) : Option Word := (floorU s).map fun n => sub32 s (u2f32 n)

/-- clamp32(x, lo, hi) (R13): a NaN gives lo; a value in the range keeps its bits. -/
def clamp32 (x lo hi : Word) : Word := if ge32 x lo then (if le32 x hi then x else hi) else lo

end Sys2Proof.Machine
end

