-- ==== Sys2Proof/Machine/State.lean ====
section
/-! DEFINITION. The state of the CFDL core (10_state R20), as plain data, its reset value (R49) and the reasons a step
can stop. -/

namespace Sys2Proof.Machine

/-- PEND: the command the engine still has to perform (10_state R24). -/
inductive Pend where
  | none
  | config
  | process
deriving DecidableEq, Repr

/-- The effect type, bit 0 of TYPE (10_state R35, 42_effect_mapper R162). -/
inductive EffectType where
  | chorus
  | flanger
deriving DecidableEq, Repr

/-- The six error bits of STATUS; a bit's number is its cause code (10_state R26, 60_exceptions R351). -/
inductive ErrorBit where
  | unconf
  | cfg
  | cmd
  | busy
  | count
  | bus
deriving DecidableEq, Repr

/-- The six sticky error bits (10_state R26). -/
structure Errors where
  unconf : Bool
  cfg : Bool
  cmd : Bool
  busy : Bool
  count : Bool
  bus : Bool
deriving DecidableEq, Repr

/-- The six parameter registers (10_state R30 to R35). -/
structure Params where
  drywet : Word
  depth : Word
  rate : Word
  phaseOffset : Word
  feedback : Word
  effect : EffectType
deriving DecidableEq, Repr

/-- A memory of 32-bit words, addressed by word index (20_memory R60, R63; assumption log 1). `cells` lists the words
written, by rising index. A word it does not list reads 0 below `zeroed`, the extent that CONFIGURE's zero fill has ever
covered, and its reset draw at or above it (assumption logs 2 and 4). -/
structure Memory where
  zeroed : Nat
  cells : List (Nat × Word)
deriving DecidableEq, Repr

/-- One lane of the datapath: its delay RAM DL[c], write head WH[c], feedback state FB[c], input window IBUF[c] and
output window OBUF[c] (44_engine_frame R216; 10_state R40, R42, R44 to R46). -/
structure Lane where
  dl : Memory
  wh : Nat
  fb : Word
  ibuf : Memory
  obuf : Memory
deriving DecidableEq, Repr

/-- One coming step of the total order of 20_memory R68. -/
inductive Event where
  /-- The HOST performs a transaction: its descriptor, and WDATA if it is a write. -/
  | host (ht : Descriptor) (wdata : Word)
  /-- The ENGINE takes its turn. -/
  | engine
  /-- The platform asserts RESET (70_reset_and_hazards R390). -/
  | reset
deriving DecidableEq, Repr

/-- The state (10_state R20). The last three fields are the model's own: assumption logs 3, 5 and 6. Integers are
unsigned mathematical integers (00_scope R7; assumption log 17). -/
structure State where
  srIn : Word
  maxblkIn : Word
  frameCount : Word
  params : Params
  configured : Bool
  blkClamped : Bool
  errors : Errors
  pend : Pend
  fcl : Nat
  framesDone : Nat
  cfgSr : Word
  cfgLen : Nat
  cfgMaxblk : Nat
  phase : Word
  left : Lane
  right : Lane
  epoch : Nat
  rdata : Option Word
  agenda : List Event
deriving DecidableEq, Repr

/-- Why a step stops. Only an engine step in a state outside the invariant of 10_state R48 raises one; the spec's own
errors are STATUS bits, not stops (60_exceptions R350). -/
inductive Fault where
  /-- floorU was applied to a word that is not finite or is negative (00_scope R12 gives it no value there). Raised by
  CONFIG_EXEC and by a frame step. Safe: the machine stops. Assumption log 12. -/
  | floorDomain
  /-- An index outside the delay RAM (20_memory R60, R63: every engine access is at an in-range index). Raised by a
  frame step. Safe: the machine stops. Assumption log 13. -/
  | delayIndex
  /-- A frame index outside the block windows (44_engine_frame R200: k < BLOCK_CAP). Raised by a frame step. Safe: the
  machine stops. Assumption log 13. -/
  | windowIndex
deriving DecidableEq, Repr

/-- Why an operation has no meaning. -/
inductive Refusal where
  /-- The instruction is not modelled yet. Raised by no arm of `exec`: every instruction has its meaning. Safe: the
  machine stops. -/
  | notModelled (mnemonic : String)
deriving DecidableEq, Repr

/-- A memory nothing has been written to since reset: every word UNSPECIFIED (10_state R44 to R46). -/
def Memory.unspecified : Memory := { zeroed := 0, cells := [] }

/-- A lane after reset (10_state R49). -/
def Lane.reset : Lane :=
  { dl := .unspecified, wh := 0, fb := 0x00000000#32, ibuf := .unspecified, obuf := .unspecified }

/-- The parameter registers after reset (10_state R30 to R35): all 0 but RATE = RATE_MIN. -/
def Params.reset : Params :=
  { drywet := 0x00000000#32, depth := 0x00000000#32, rate := 0x3DCCCCCD#32, phaseOffset := 0x00000000#32,
    feedback := 0x00000000#32, effect := .chorus }

/-- The error bits after reset (10_state R26). -/
def Errors.reset : Errors :=
  { unconf := false, cfg := false, cmd := false, busy := false, count := false, bus := false }

/-- The machine right after power-on reset (10_state R49, 70_reset_and_hazards R390). -/
def State.reset : State :=
  { srIn := 0x00000000#32, maxblkIn := 0x00000000#32, frameCount := 0x00000000#32, params := .reset,
    configured := false, blkClamped := false, errors := .reset,
    pend := .none, fcl := 0, framesDone := 0,
    cfgSr := 0x00000000#32, cfgLen := 0, cfgMaxblk := 0, phase := 0x00000000#32,
    left := .reset, right := .reset,
    epoch := 0, rdata := none, agenda := [] }

end Sys2Proof.Machine
end

