-- ==== Sys2Proof/Machine/Memory.lean ====
section
/-! DEFINITION. Reading, writing and zero-filling a memory, and its canonical form (assumption logs 1, 2 and 4). -/

namespace Sys2Proof.Machine

/-- What a word that `cells` does not list reads as: 0 where a zero fill has covered it (45_commands R247), otherwise no
value of its own, and its reset draw is read instead (20_memory R68). -/
def Memory.unlisted (m : Memory) (i : Nat) : Option Word := if i < m.zeroed then some 0x00000000#32 else none

/-- The word listed at index `i`. -/
def lookupCell : List (Nat × Word) → Nat → Option Word
  | [], _ => none
  | (j, w) :: rest, i => if j = i then some w else lookupCell rest i

/-- List `v` at index `i`, in rising order, in place of what was listed there. -/
def insertCell : List (Nat × Word) → Nat → Word → List (Nat × Word)
  | [], i, v => [(i, v)]
  | (j, w) :: rest, i, v =>
    if i < j then (i, v) :: (j, w) :: rest
    else if i = j then (i, v) :: rest
    else (j, w) :: insertCell rest i v

/-- List nothing at index `i`. -/
def eraseCell : List (Nat × Word) → Nat → List (Nat × Word)
  | [], _ => []
  | (j, w) :: rest, i => if j = i then eraseCell rest i else (j, w) :: eraseCell rest i

/-- The word at index `i`, if it has been written or zero-filled since reset. -/
def Memory.read (m : Memory) (i : Nat) : Option Word :=
  match lookupCell m.cells i with
  | some w => some w
  | none => m.unlisted i

/-- Store `v` at index `i`. Storing what an unlisted word reads as removes the entry. -/
def Memory.write (m : Memory) (i : Nat) (v : Word) : Memory :=
  if m.unlisted i = some v then { m with cells := eraseCell m.cells i }
  else { m with cells := insertCell m.cells i v }

/-- Store 0 at every index below `n` (45_commands R247: "for i in 0 .. L-1: DL[c][i] <- 0x00000000"). -/
def Memory.zeroFill (m : Memory) (n : Nat) : Memory :=
  { zeroed := max m.zeroed n, cells := m.cells.filter fun c => decide (n ≤ c.1) }

/-- The indices of `cells` rise strictly and lie above `below`, and no entry is what an unlisted word reads as. -/
def cellsCanonical (m : Memory) : Option Nat → List (Nat × Word) → Bool
  | _, [] => true
  | below, (i, v) :: rest =>
    (match below with | none => true | some j => decide (j < i)) && decide (m.unlisted i ≠ some v) &&
      cellsCanonical m (some i) rest

/-- The canonical form: indices strictly rising, no entry equal to what an unlisted word reads as. -/
def Memory.wf (m : Memory) : Bool := cellsCanonical m none m.cells

/-- Every listed or zero-filled index is below `depth`. -/
def Memory.within (m : Memory) (depth : Nat) : Bool :=
  decide (m.zeroed ≤ depth) && m.cells.all fun c => decide (c.1 < depth)

/-- The word at index `i` of a memory: the one last written, or its reset draw (20_memory R68; 10_state R44 to R46). -/
def readOrDraw (epoch : Nat) (store : Store) (m : Memory) (i : Nat) : Word :=
  match m.read i with
  | some w => w
  | none => Config.draw epoch store i

end Sys2Proof.Machine
end

