-- ==== Sys2Proof/Machine/Operands.lean ====
section
/-! DEFINITION. Operand assembly and the form of read data (30_encoding R96, R97). -/

namespace Sys2Proof.Machine

/-- What TYPE keeps of a written word: bit 0, 0 = chorus and 1 = flanger (10_state R35, 30_encoding R96). -/
def effectOfWord (v : Word) : EffectType := if v.getLsbD 0 then .flanger else .chorus

/-- TYPE reads as 31 zero bits and the effect bit (30_encoding R97). -/
def wordOfEffect : EffectType → Word
  | .chorus => 0x00000000#32
  | .flanger => 0x00000001#32

/-- An integer register reads zero-extended to 32 bits (30_encoding R97; assumption log 17). -/
def wordOfCount (n : Nat) : Word := BitVec.ofNat 32 n

/-- Lane `c` of the datapath (44_engine_frame R216). -/
def State.lane (s : State) : Channel → Lane
  | .left => s.left
  | .right => s.right

/-- Replace lane `c`. -/
def State.setLane (s : State) (c : Channel) (l : Lane) : State :=
  match c with
  | .left => { s with left := l }
  | .right => { s with right := l }

/-- IBUF[c][k] as a read returns it (10_state R45). -/
def inputWord (s : State) (c : Channel) (k : Nat) : Word :=
  readOrDraw s.epoch (.inputWindow c) (s.lane c).ibuf k

/-- OBUF[c][k] as a read returns it (10_state R46). -/
def outputWord (s : State) (c : Channel) (k : Nat) : Word :=
  readOrDraw s.epoch (.outputWindow c) (s.lane c).obuf k

/-- DL[c][i]: read by the engine only (10_state R44). -/
def delayWord (s : State) (c : Channel) (i : Nat) : Word :=
  readOrDraw s.epoch (.delayRam c) (s.lane c).dl i

end Sys2Proof.Machine
end

