-- ==== Sys2Proof/Machine/DelayLine.lean ====
section
/-! DEFINITION. The delay line: DL_WRITE, WH_ADVANCE and the engine's word read (40_delay_line R120 to R124). -/

namespace Sys2Proof.Machine

/-- DL_WRITE (40_delay_line R121): store the write sample, bits unchanged, at the write head. The write head is below
DL_DEPTH in every state of 10_state R48; elsewhere the index does not exist. -/
def delayWrite (l : Lane) (ws : Word) : Except Fault Lane :=
  if l.wh < Config.dlDepth then .ok { l with dl := l.dl.write l.wh ws } else .error .delayIndex

/-- WH_ADVANCE (40_delay_line R122). -/
def headAdvance (len : Nat) (l : Lane) : Lane := { l with wh := if l.wh + 1 = len then 0 else l.wh + 1 }

/-- Read DL[c][i] (20_memory R60, R66). -/
def delayRead (epoch : Nat) (c : Channel) (l : Lane) (i : Nat) : Except Fault Word :=
  if i < Config.dlDepth then .ok (readOrDraw epoch (.delayRam c) l.dl i) else .error .delayIndex

end Sys2Proof.Machine
end

