-- ==== Sys2Proof/Machine/FractionalReader.lean ====
section
/-! DEFINITION. The fractional reader (43_fractional_reader R180 to R186). -/

namespace Sys2Proof.Machine

/-- floorU where it has a value, a fault elsewhere (00_scope R12; assumption log 12). -/
def floorOf (x : Word) : Except Fault Nat :=
  match floorU x with
  | some n => .ok n
  | none => .error .floorDomain

/-- RDPOS_SUB (43_fractional_reader R181). -/
def readSub (wh : Nat) (dn : Word) : Word := sub32 (u2f32 wh) dn

/-- RDPOS_WRAP (43_fractional_reader R182). -/
def readWrap (p0 : Word) (len : Nat) : Word := if lt32 p0 0x00000000#32 then add32 p0 (u2f32 len) else p0

/-- RDPOS_SPLIT: the integer and the fraction (43_fractional_reader R183). -/
def readSplit (p1 : Word) : Except Fault (Nat × Word) := do
  let cur ← floorOf p1
  .ok (cur, sub32 p1 (u2f32 cur))

/-- RDPOS_INDEX: the current and the next index (43_fractional_reader R184). -/
def readIndex (cur len : Nat) : Nat × Nat :=
  let cur := if len ≤ cur then cur - len else cur
  (cur, if cur + 1 = len then 0 else cur + 1)

/-- A read position: current index, next index, fraction. -/
structure ReadPosition where
  cur : Nat
  nxt : Nat
  frac : Word
deriving DecidableEq, Repr

/-- RDPOS: sub, wrap, split, index (44_engine_frame R208). -/
def readPosition (wh : Nat) (dn : Word) (len : Nat) : Except Fault ReadPosition := do
  let split ← readSplit (readWrap (readSub wh dn) len)
  .ok { cur := (readIndex split.1 len).1, nxt := (readIndex split.1 len).2, frac := split.2 }

/-- (1 − frac) × a + frac × b (43_fractional_reader R180, R185). -/
def blend (frac a b : Word) : Word := add32 (mul32 (sub32 Config.one frac) a) (mul32 frac b)

/-- INTERP (43_fractional_reader R185): at fraction 0 the current word, bits unchanged, without reading the next. -/
def interpolate (epoch : Nat) (c : Channel) (l : Lane) (p : ReadPosition) : Except Fault Word := do
  let a ← delayRead epoch c l p.cur
  if eq32 p.frac 0x00000000#32 then .ok a
  else
    let b ← delayRead epoch c l p.nxt
    .ok (blend p.frac a b)

end Sys2Proof.Machine
end

