-- ==== Sys2Proof/Machine/Flags.lean ====
section
/-! DEFINITION. The bits of STATUS (10_state R26, 60_exceptions R351). -/

namespace Sys2Proof.Machine

/-- BUSY: 1 exactly when PEND ≠ NONE (10_state R24). -/
def busy (s : State) : Bool := decide (s.pend ≠ .none)

/-- The cause code of an error, which is its STATUS bit number (60_exceptions R351). -/
def ErrorBit.code : ErrorBit → Nat
  | .unconf => 8
  | .cfg => 9
  | .cmd => 10
  | .busy => 11
  | .count => 12
  | .bus => 13

/-- Setting one sticky bit; the others stay as they are (60_exceptions R352). -/
def Errors.set (e : Errors) : ErrorBit → Errors
  | .unconf => { e with unconf := true }
  | .cfg => { e with cfg := true }
  | .cmd => { e with cmd := true }
  | .busy => { e with busy := true }
  | .count => { e with count := true }
  | .bus => { e with bus := true }

/-- Reading one sticky bit. -/
def Errors.get (e : Errors) : ErrorBit → Bool
  | .unconf => e.unconf
  | .cfg => e.cfg
  | .cmd => e.cmd
  | .busy => e.busy
  | .count => e.count
  | .bus => e.bus

/-- The word RD_STATUS returns (46_host_bus R276). -/
def statusWord (s : State) : Word :=
  0#18 ++ BitVec.ofBool s.errors.bus ++ BitVec.ofBool s.errors.count ++ BitVec.ofBool s.errors.busy ++
    BitVec.ofBool s.errors.cmd ++ BitVec.ofBool s.errors.cfg ++ BitVec.ofBool s.errors.unconf ++
    0#5 ++ BitVec.ofBool s.blkClamped ++ BitVec.ofBool (busy s) ++ BitVec.ofBool s.configured

end Sys2Proof.Machine
end

