-- ==== Sys2Proof/Machine/Ops.lean ====
section
/-! DEFINITION. The operations the host transactions share: completing a read or a write, raising an error, refusing,
the busy lockout (46_host_bus R270 to R273, 60_exceptions R350 to R352, 70_reset_and_hazards R400). -/

namespace Sys2Proof.Machine

/-- What a host transaction answers. -/
abbrev HostResult := Host.Outcome State Fault Refusal

/-- The transaction's RDATA: `some` word for a read, `none` for a write (46_host_bus R270; assumption log 6). -/
def State.answer (s : State) (r : Option Word) : State := { s with rdata := r }

/-- `raise ERR_X`: the sticky bit is set and nothing else changes (60_exceptions R352). -/
def State.raise (s : State) (e : ErrorBit) : State := { s with errors := s.errors.set e }

/-- A read that completes with RDATA = w and changes nothing (20_memory R65). -/
def completeRead (s : State) (w : Word) : HostResult := .next (s.answer (some w))

/-- A write that completes in state `s'`. -/
def completeWrite (s' : State) : HostResult := .next (s'.answer none)

/-- A write that is ignored without error (10_state R25, RO). -/
def ignoreWrite (s : State) : HostResult := completeWrite s

/-- A refused write or command: the error bit is set and no other state changes (60_exceptions R352). -/
def refuseWrite (s : State) (e : ErrorBit) : HostResult := completeWrite (s.raise e)

/-- A refused read returns 0x00000000 and sets the error bit (60_exceptions R352). -/
def refuseRead (s : State) (e : ErrorBit) : HostResult := completeRead (s.raise e) 0x00000000#32

/-- The busy lockout: while PEND ≠ NONE the write is refused with ERR_BUSY (46_host_bus R271). -/
def lockedWrite (s s' : State) : HostResult := if busy s then refuseWrite s .busy else completeWrite s'

/-- Write IBUF[c][k] (46_host_bus R321, R323). -/
def State.storeInput (s : State) (c : Channel) (k : Nat) (v : Word) : State :=
  s.setLane c { s.lane c with ibuf := (s.lane c).ibuf.write k v }

end Sys2Proof.Machine
end

