-- ==== Sys2Proof/Machine/Commands.lean ====
section
/-! DEFINITION. The command words (45_commands R240 to R251): acceptance, and the configuration step. -/

namespace Sys2Proof.Machine

/-- srValid (45_commands R243). -/
def srValid (s : Word) : Bool := isFinite s && ge32 s Config.srMin && le32 s Config.srMax

/-- CONFIGURE is accepted: PEND ← CONFIG (45_commands R244). -/
def State.pendConfig (s : State) : State := { s with pend := .config }

/-- PROCESS is accepted: FRAMES_DONE ← 0 and, unless the block is empty, FCL ← FRAME_COUNT and PEND ← PROCESS
(45_commands R245, R246). -/
def State.pendProcess (s : State) : State :=
  if s.frameCount = 0x00000000#32 then { s with framesDone := 0 }
  else { s with framesDone := 0, fcl := s.frameCount.toNat, pend := .process }

/-- ACCEPT, the check of a command word by WR_CMD: busy, illegal word, then the command's own checks, the first that
applies deciding (45_commands R240). -/
def accept (v : Word) (s : State) : HostResult :=
  let op := v.extractLsb' 0 4
  if busy s then refuseWrite s .busy
  else if v.extractLsb' 4 28 ≠ 0#28 ∨ 3#4 ≤ op then refuseWrite s .cmd
  else if op = 0#4 then completeWrite s
  else if op = 1#4 then
    (if srValid s.srIn then completeWrite s.pendConfig else refuseWrite s .cfg)
  else if s.configured = false then refuseWrite s .unconf
  else if s.cfgMaxblk < s.frameCount.toNat then refuseWrite s .count
  else completeWrite s.pendProcess

/-- NOP (45_commands R242). -/
def execNop (s : State) : HostResult := if busy s then refuseWrite s .busy else completeWrite s

/-- CONFIGURE, at acceptance (45_commands R244). -/
def execConfigure (s : State) : HostResult :=
  if busy s then refuseWrite s .busy
  else if srValid s.srIn then completeWrite s.pendConfig
  else refuseWrite s .cfg

/-- PROCESS, at acceptance (45_commands R245, R246). -/
def execProcess (s : State) : HostResult :=
  if busy s then refuseWrite s .busy
  else if s.configured = false then refuseWrite s .unconf
  else if s.cfgMaxblk < s.frameCount.toNat then refuseWrite s .count
  else completeWrite s.pendProcess

/-- CMD_ILLEGAL (45_commands R241). -/
def execCmdIllegal (_v : Word) (s : State) : HostResult :=
  if busy s then refuseWrite s .busy else refuseWrite s .cmd

/-- LENGTH (45_commands R248). -/
def delayLength (s : Word) : Except Fault Nat := do
  let n ← floorOf (mul32 s Config.twoSeconds)
  .ok (max Config.lMin n)

/-- What CONFIG_EXEC does to one lane: words 0 to L − 1 of the delay line zeroed, write head and feedback 0; the windows
and the words at or above L keep their contents (45_commands R247). -/
def Lane.configure (l : Lane) (len : Nat) : Lane := { l with dl := l.dl.zeroFill len, wh := 0, fb := 0x00000000#32 }

/-- CONFIG_EXEC (45_commands R247). -/
def configResult (s : State) : Except Fault State := do
  let len ← delayLength s.srIn
  .ok { s with
        cfgSr := s.srIn, cfgLen := len,
        cfgMaxblk := if Config.blockCap < s.maxblkIn.toNat then Config.blockCap else s.maxblkIn.toNat,
        blkClamped := decide (Config.blockCap < s.maxblkIn.toNat),
        left := s.left.configure len, right := s.right.configure len,
        phase := 0x00000000#32, framesDone := 0, configured := true, pend := .none }

end Sys2Proof.Machine
end

