-- ==== Sys2Proof/Machine/ObservationRegisters.lean ====
section
/-! DEFINITION. The observation registers, which the host only reads (46_host_bus R296 to R305). -/

namespace Sys2Proof.Machine

/-- RD_CFG_SR (46_host_bus R296). -/
def execRdCfgSr (s : State) : HostResult := completeRead s s.cfgSr

/-- RD_CFG_LEN (46_host_bus R297). -/
def execRdCfgLen (s : State) : HostResult := completeRead s (wordOfCount s.cfgLen)

/-- RD_CFG_MAXBLK (46_host_bus R298). -/
def execRdCfgMaxblk (s : State) : HostResult := completeRead s (wordOfCount s.cfgMaxblk)

/-- RD_FRAMES_DONE (46_host_bus R299). -/
def execRdFramesDone (s : State) : HostResult := completeRead s (wordOfCount s.framesDone)

/-- RD_WHEAD_L (46_host_bus R300). -/
def execRdWheadL (s : State) : HostResult := completeRead s (wordOfCount s.left.wh)

/-- RD_WHEAD_R (46_host_bus R301). -/
def execRdWheadR (s : State) : HostResult := completeRead s (wordOfCount s.right.wh)

/-- RD_LFO_PHASE (46_host_bus R302). -/
def execRdLfoPhase (s : State) : HostResult := completeRead s s.phase

/-- RD_FB_L (46_host_bus R303). -/
def execRdFbL (s : State) : HostResult := completeRead s s.left.fb

/-- RD_FB_R (46_host_bus R304). -/
def execRdFbR (s : State) : HostResult := completeRead s s.right.fb

/-- WR_OBS (46_host_bus R305): a write to the observation half is ignored without error. -/
def execWrObs (_word : BitVec 4) (_wdata : Word) (s : State) : HostResult := ignoreWrite s

end Sys2Proof.Machine
end

