-- ==== Sys2Proof/Machine/OperandRegisters.lean ====
section
/-! DEFINITION. The command, status and operand registers (46_host_bus R274 to R283). -/

namespace Sys2Proof.Machine

/-- WR_CMD (46_host_bus R274): the command word is checked and accepted or refused at the write; CMD stores nothing. -/
def execWrCmd (wdata : Word) (s : State) : HostResult := accept wdata s

/-- RD_CMD (46_host_bus R275): write-only, reads 0. -/
def execRdCmd (s : State) : HostResult := completeRead s 0x00000000#32

/-- RD_STATUS (46_host_bus R276). -/
def execRdStatus (s : State) : HostResult := completeRead s (statusWord s)

/-- WR_STATUS (46_host_bus R277): no effect; the error bits are sticky. -/
def execWrStatus (_wdata : Word) (s : State) : HostResult := ignoreWrite s

/-- RD_SR_IN (46_host_bus R278). -/
def execRdSrIn (s : State) : HostResult := completeRead s s.srIn

/-- WR_SR_IN (46_host_bus R279): under the busy lockout; any word is stored. -/
def execWrSrIn (wdata : Word) (s : State) : HostResult := lockedWrite s { s with srIn := wdata }

/-- RD_MAXBLK_IN (46_host_bus R280). -/
def execRdMaxblkIn (s : State) : HostResult := completeRead s s.maxblkIn

/-- WR_MAXBLK_IN (46_host_bus R281): under the busy lockout; any word is stored. -/
def execWrMaxblkIn (wdata : Word) (s : State) : HostResult := lockedWrite s { s with maxblkIn := wdata }

/-- RD_FRAME_COUNT (46_host_bus R282). -/
def execRdFrameCount (s : State) : HostResult := completeRead s s.frameCount

/-- WR_FRAME_COUNT (46_host_bus R283): under the busy lockout; any word is stored. -/
def execWrFrameCount (wdata : Word) (s : State) : HostResult := lockedWrite s { s with frameCount := wdata }

end Sys2Proof.Machine
end

