-- ==== Sys2Proof/Machine/ParameterRegisters.lean ====
section
/-! DEFINITION. The parameter registers, accepted at any time (46_host_bus R284 to R295). -/

namespace Sys2Proof.Machine

/-- RD_DRYWET (46_host_bus R284): the word as written, not the clamped snapshot value. -/
def execRdDrywet (s : State) : HostResult := completeRead s s.params.drywet

/-- WR_DRYWET (46_host_bus R285): any word is stored, also while BUSY. -/
def execWrDrywet (wdata : Word) (s : State) : HostResult :=
  completeWrite { s with params := { s.params with drywet := wdata } }

/-- RD_DEPTH (46_host_bus R286): the word as written, not the clamped snapshot value. -/
def execRdDepth (s : State) : HostResult := completeRead s s.params.depth

/-- WR_DEPTH (46_host_bus R287): any word is stored, also while BUSY. -/
def execWrDepth (wdata : Word) (s : State) : HostResult :=
  completeWrite { s with params := { s.params with depth := wdata } }

/-- RD_RATE (46_host_bus R288): the word as written, not the clamped snapshot value. -/
def execRdRate (s : State) : HostResult := completeRead s s.params.rate

/-- WR_RATE (46_host_bus R289): any word is stored, also while BUSY. -/
def execWrRate (wdata : Word) (s : State) : HostResult :=
  completeWrite { s with params := { s.params with rate := wdata } }

/-- RD_PHASE_OFFSET (46_host_bus R290): the word as written, not the clamped snapshot value. -/
def execRdPhaseOffset (s : State) : HostResult := completeRead s s.params.phaseOffset

/-- WR_PHASE_OFFSET (46_host_bus R291): any word is stored, also while BUSY. -/
def execWrPhaseOffset (wdata : Word) (s : State) : HostResult :=
  completeWrite { s with params := { s.params with phaseOffset := wdata } }

/-- RD_FEEDBACK (46_host_bus R292): the word as written, not the clamped snapshot value. -/
def execRdFeedback (s : State) : HostResult := completeRead s s.params.feedback

/-- WR_FEEDBACK (46_host_bus R293): any word is stored, also while BUSY. -/
def execWrFeedback (wdata : Word) (s : State) : HostResult :=
  completeWrite { s with params := { s.params with feedback := wdata } }

/-- RD_TYPE (46_host_bus R294): bit 0 is the effect type, bits 31:1 read 0. -/
def execRdType (s : State) : HostResult := completeRead s (wordOfEffect s.params.effect)

/-- WR_TYPE (46_host_bus R295): bit 0 of WDATA is stored, also while BUSY. -/
def execWrType (wdata : Word) (s : State) : HostResult :=
  completeWrite { s with params := { s.params with effect := effectOfWord wdata } }

end Sys2Proof.Machine
end

