-- ==== Sys2Proof/Machine/ReservedAndErrors.lean ====
section
/-! DEFINITION. The reserved words of the register page and the bus errors (46_host_bus R310, R311, R330, R331). -/

namespace Sys2Proof.Machine

/-- RD_RSVD (46_host_bus R310): reads 0. -/
def execRdRsvd (_word : BitVec 5) (s : State) : HostResult := completeRead s 0x00000000#32

/-- WR_RSVD (46_host_bus R311): ignored without error, also while BUSY. -/
def execWrRsvd (_word : BitVec 5) (_wdata : Word) (s : State) : HostResult := ignoreWrite s

/-- RD_BUSERR (46_host_bus R330): RDATA is 0 and ERR_BUS is set. -/
def execRdBuserr (_size : BitVec 2) (_a : BitVec 17) (s : State) : HostResult := refuseRead s .bus

/-- WR_BUSERR (46_host_bus R331): ERR_BUS is set, whether or not the core is busy. -/
def execWrBuserr (_size : BitVec 2) (_a : BitVec 17) (_wdata : Word) (s : State) : HostResult := refuseWrite s .bus

end Sys2Proof.Machine
end

