-- ==== Sys2Proof/Machine/Windows.lean ====
section
/-! DEFINITION. The block windows (46_host_bus R320 to R327). -/

namespace Sys2Proof.Machine

/-- RD_IBUF_L (46_host_bus R320), also while BUSY. -/
def execRdIbufL (k : WindowIndex) (s : State) : HostResult := completeRead s (inputWord s .left k.toNat)

/-- WR_IBUF_L (46_host_bus R321): under the busy lockout; any word is stored. -/
def execWrIbufL (k : WindowIndex) (wdata : Word) (s : State) : HostResult :=
  lockedWrite s (s.storeInput .left k.toNat wdata)

/-- RD_IBUF_R (46_host_bus R322), also while BUSY. -/
def execRdIbufR (k : WindowIndex) (s : State) : HostResult := completeRead s (inputWord s .right k.toNat)

/-- WR_IBUF_R (46_host_bus R323): under the busy lockout; any word is stored. -/
def execWrIbufR (k : WindowIndex) (wdata : Word) (s : State) : HostResult :=
  lockedWrite s (s.storeInput .right k.toNat wdata)

/-- RD_OBUF_L (46_host_bus R324), also while BUSY. -/
def execRdObufL (k : WindowIndex) (s : State) : HostResult := completeRead s (outputWord s .left k.toNat)

/-- WR_OBUF_L (46_host_bus R325): ignored without error; the output window is written by the engine only. -/
def execWrObufL (_k : WindowIndex) (_wdata : Word) (s : State) : HostResult := ignoreWrite s

/-- RD_OBUF_R (46_host_bus R326), also while BUSY. -/
def execRdObufR (k : WindowIndex) (s : State) : HostResult := completeRead s (outputWord s .right k.toNat)

/-- WR_OBUF_R (46_host_bus R327): ignored without error; the output window is written by the engine only. -/
def execWrObufR (_k : WindowIndex) (_wdata : Word) (s : State) : HostResult := ignoreWrite s

end Sys2Proof.Machine
end

