-- ==== Sys2Proof/Machine/Dispatch.lean ====
section
/-! DEFINITION. The meaning of every operation, one arm each (30_encoding R98). -/

namespace Sys2Proof.Machine

def exec (i : Instr) (s : State) : Host.Outcome State Fault Refusal :=
  match i with
  | .rdCmd => Sys2Proof.Machine.execRdCmd s
  | .rdStatus => Sys2Proof.Machine.execRdStatus s
  | .rdSrIn => Sys2Proof.Machine.execRdSrIn s
  | .rdMaxblkIn => Sys2Proof.Machine.execRdMaxblkIn s
  | .rdFrameCount => Sys2Proof.Machine.execRdFrameCount s
  | .rdDrywet => Sys2Proof.Machine.execRdDrywet s
  | .rdDepth => Sys2Proof.Machine.execRdDepth s
  | .rdRate => Sys2Proof.Machine.execRdRate s
  | .rdPhaseOffset => Sys2Proof.Machine.execRdPhaseOffset s
  | .rdFeedback => Sys2Proof.Machine.execRdFeedback s
  | .rdType => Sys2Proof.Machine.execRdType s
  | .rdCfgSr => Sys2Proof.Machine.execRdCfgSr s
  | .rdCfgLen => Sys2Proof.Machine.execRdCfgLen s
  | .rdCfgMaxblk => Sys2Proof.Machine.execRdCfgMaxblk s
  | .rdFramesDone => Sys2Proof.Machine.execRdFramesDone s
  | .rdWheadL => Sys2Proof.Machine.execRdWheadL s
  | .rdWheadR => Sys2Proof.Machine.execRdWheadR s
  | .rdLfoPhase => Sys2Proof.Machine.execRdLfoPhase s
  | .rdFbL => Sys2Proof.Machine.execRdFbL s
  | .rdFbR => Sys2Proof.Machine.execRdFbR s
  | .wrCmd wdata => Sys2Proof.Machine.execWrCmd wdata s
  | .wrStatus wdata => Sys2Proof.Machine.execWrStatus wdata s
  | .wrSrIn wdata => Sys2Proof.Machine.execWrSrIn wdata s
  | .wrMaxblkIn wdata => Sys2Proof.Machine.execWrMaxblkIn wdata s
  | .wrFrameCount wdata => Sys2Proof.Machine.execWrFrameCount wdata s
  | .wrDrywet wdata => Sys2Proof.Machine.execWrDrywet wdata s
  | .wrDepth wdata => Sys2Proof.Machine.execWrDepth wdata s
  | .wrRate wdata => Sys2Proof.Machine.execWrRate wdata s
  | .wrPhaseOffset wdata => Sys2Proof.Machine.execWrPhaseOffset wdata s
  | .wrFeedback wdata => Sys2Proof.Machine.execWrFeedback wdata s
  | .wrType wdata => Sys2Proof.Machine.execWrType wdata s
  | .wrObs word wdata => Sys2Proof.Machine.execWrObs word wdata s
  | .rdRsvd word => Sys2Proof.Machine.execRdRsvd word s
  | .wrRsvd word wdata => Sys2Proof.Machine.execWrRsvd word wdata s
  | .rdIbufL k => Sys2Proof.Machine.execRdIbufL k s
  | .wrIbufL k wdata => Sys2Proof.Machine.execWrIbufL k wdata s
  | .rdIbufR k => Sys2Proof.Machine.execRdIbufR k s
  | .wrIbufR k wdata => Sys2Proof.Machine.execWrIbufR k wdata s
  | .rdObufL k => Sys2Proof.Machine.execRdObufL k s
  | .wrObufL k wdata => Sys2Proof.Machine.execWrObufL k wdata s
  | .rdObufR k => Sys2Proof.Machine.execRdObufR k s
  | .wrObufR k wdata => Sys2Proof.Machine.execWrObufR k wdata s
  | .rdBuserr size a => Sys2Proof.Machine.execRdBuserr size a s
  | .wrBuserr size a wdata => Sys2Proof.Machine.execWrBuserr size a wdata s
  | .nop => Sys2Proof.Machine.execNop s
  | .configure => Sys2Proof.Machine.execConfigure s
  | .process => Sys2Proof.Machine.execProcess s
  | .cmdIllegal v => Sys2Proof.Machine.execCmdIllegal v s

end Sys2Proof.Machine
end

