-- ==== Sys2Proof/Machine/EffectMapper.lean ====
section
/-! DEFINITION. The effect mapper (42_effect_mapper R160 to R164). -/

namespace Sys2Proof.Machine

/-- The low edge of the effect type's range (42_effect_mapper R161, R162). -/
def lowEdge : EffectType → Word
  | .chorus => Config.loChorus
  | .flanger => Config.loFlanger

/-- The high edge of the effect type's range (00_scope R15). -/
def highEdge : EffectType → Word
  | .chorus => Config.hiChorus
  | .flanger => Config.hiFlanger

/-- The constant hiEdge − loEdge (42_effect_mapper R161). -/
def edgeSpan : EffectType → Word
  | .chorus => Config.spanChorus
  | .flanger => Config.spanFlanger

/-- MAP: loEdge + ((m + 1) / 2) × (hiEdge − loEdge), each operation rounded once, in this order (R161). -/
def effectMap (ty : EffectType) (m : Word) : Word :=
  let t1 := add32 m Config.one
  let t2 := mul32 t1 Config.half
  let t3 := mul32 t2 (edgeSpan ty)
  add32 (lowEdge ty) t3

end Sys2Proof.Machine
end

