-- ==== Sys2Proof/Machine/Lfo.lean ====
section
/-! DEFINITION. The LFO phase accumulator (41_lfo R140 to R146), over a sine unit `sn`. -/

namespace Sys2Proof.Machine

/-- frac32 where floorU has a value, a fault elsewhere (00_scope R12; assumption log 12). -/
def fractionOf (s : Word) : Except Fault Word :=
  match frac32 s with
  | some f => .ok f
  | none => .error .floorDomain

/-- LFO_EVAL left (41_lfo R142). -/
def lfoLeft (sn : Word → Word) (phase : Word) : Word := sn phase

/-- LFO_EVAL right (41_lfo R143). -/
def lfoRight (sn : Word → Word) (phase po : Word) : Except Fault Word := do
  let phR ← fractionOf (add32 phase po)
  .ok (sn phR)

/-- LFO_ADVANCE (41_lfo R144). -/
def lfoAdvance (phase rt sr : Word) : Except Fault Word := fractionOf (add32 phase (div32 rt sr))

/-- LFO_SCALE (41_lfo R145). -/
def lfoScale (l dp : Word) : Word := mul32 l dp

end Sys2Proof.Machine
end

