-- ==== Sys2Proof/Machine/Frame.lean ====
section
/-! DEFINITION. The frame step (44_engine_frame R200 to R235), over a sine unit `sn`. -/

namespace Sys2Proof.Machine

/-- The parameter snapshot of one frame, a temporary (44_engine_frame R201). -/
structure Snapshot where
  dw : Word
  dp : Word
  rt : Word
  po : Word
  fbc : Word
  ty : EffectType
deriving DecidableEq, Repr

/-- SNAPSHOT (44_engine_frame R201). -/
def snapshot (p : Params) : Snapshot :=
  { dw := clamp32 p.drywet 0x00000000#32 Config.one
    dp := clamp32 p.depth 0x00000000#32 Config.one
    rt := clamp32 p.rate Config.rateMin Config.rateMax
    po := clamp32 p.phaseOffset 0x00000000#32 Config.one
    fbc := clamp32 p.feedback 0x00000000#32 Config.fbMax
    ty := p.effect }

/-- INPUT_FETCH (44_engine_frame R203): IBUF[c][k], as the host wrote it or as its draw. -/
def inputFetch (epoch : Nat) (c : Channel) (l : Lane) (k : Nat) : Except Fault Word :=
  if k < Config.blockCap then .ok (readOrDraw epoch (.inputWindow c) l.ibuf k) else .error .windowIndex

/-- FB_SUM (44_engine_frame R204): input plus feedback, the delay-line write, the write-head advance. -/
def feedbackSum (len : Nat) (l : Lane) (x : Word) : Except Fault Lane := do
  let l ← delayWrite l (add32 x l.fb)
  .ok (headAdvance len l)

/-- The oscillator values of a frame, scaled by depth, and the advanced phase. -/
structure Modulation where
  left : Word
  right : Word
  phase : Word
deriving DecidableEq, Repr

/-- LFO_STEP, once per frame: both values come from the phase the frame started with (44_engine_frame R205). -/
def lfoStep (sn : Word → Word) (phase : Word) (p : Snapshot) (sr : Word) : Except Fault Modulation := do
  let lL := lfoLeft sn phase
  let lR ← lfoRight sn phase p.po
  let phase' ← lfoAdvance phase p.rt sr
  .ok { left := lfoScale lL p.dp, right := lfoScale lR p.dp, phase := phase' }

/-- MAP_STEP and DELAY_SAMPLES (44_engine_frame R206, R207). -/
def delaySamples (sr : Word) (ty : EffectType) (m : Word) : Word := mul32 sr (effectMap ty m)

/-- READ_POSITION and WET_READ, from the lane after its write and advance (44_engine_frame R208, R209). -/
def wetRead (epoch : Nat) (c : Channel) (len : Nat) (dn : Word) (l : Lane) : Except Fault Word := do
  let p ← readPosition l.wh dn len
  interpolate epoch c l p

/-- The wet sample of a lane, from its feedback value at the start of the frame and the sample read. Once the feedback
value is a NaN the wet output is a NaN in every later frame, so FB_UPDATE keeps it one, until CONFIGURE or RESET
(44_engine_frame R210 "stays poisoned until CONFIGURE"; 93_implementation_defined I5, treatment "stuck"; 92_eei_decisions
D35). DEDUCED: this wins over the plain read of R230's pseudocode, where a long delay line would return a finite word.
Assumption log 21. -/
def holdPoison (fb wet : Word) : Word := if isNaN fb then Config.cnan else wet

/-- FB_UPDATE (44_engine_frame R210). Its NaN stays: `holdPoison`. -/
def feedbackUpdate (wet fbc : Word) : Word := mul32 wet fbc

/-- MIX with its two bypasses (44_engine_frame R213, R214). -/
def mix (x wet dw : Word) : Word :=
  if eq32 dw 0x00000000#32 then x
  else if eq32 dw Config.one then wet
  else add32 (mul32 x (sub32 Config.one dw)) (mul32 wet dw)

/-- OUTPUT_WRITE (44_engine_frame R215). -/
def outputWrite (l : Lane) (k : Nat) (out : Word) : Except Fault Lane :=
  if k < Config.blockCap then .ok { l with obuf := l.obuf.write k out } else .error .windowIndex

/-- The first part of a lane's frame: the input sample, and the lane with the sum written and the head advanced
(44_engine_frame R203, R204). -/
def laneInput (epoch : Nat) (c : Channel) (len k : Nat) (l : Lane) : Except Fault (Word × Lane) := do
  let x ← inputFetch epoch c l k
  let l ← feedbackSum len l x
  .ok (x, l)

/-- The second part of a lane's frame: wet read, feedback update, mix and output write (44_engine_frame R206 to R215).
`l.fb` is still the feedback value the frame started with. -/
def laneOutput (epoch : Nat) (c : Channel) (len k : Nat) (sr : Word) (p : Snapshot) (m x : Word) (l : Lane) :
    Except Fault Lane := do
  let read ← wetRead epoch c len (delaySamples sr p.ty m) l
  let wet := holdPoison l.fb read
  outputWrite { l with fb := feedbackUpdate wet p.fbc } k (mix x wet p.dw)

/-- FRAME (44_engine_frame R230), over the sine unit `sn`. -/
def frameResult (sn : Word → Word) (s : State) : Except Fault State := do
  let k := s.framesDone
  let p := snapshot s.params
  let inL ← laneInput s.epoch .left s.cfgLen k s.left
  let inR ← laneInput s.epoch .right s.cfgLen k s.right
  let mod ← lfoStep sn s.phase p s.cfgSr
  let left ← laneOutput s.epoch .left s.cfgLen k s.cfgSr p mod.left inL.1 inL.2
  let right ← laneOutput s.epoch .right s.cfgLen k s.cfgSr p mod.right inR.1 inR.2
  .ok { s with
        left := left, right := right, phase := mod.phase, framesDone := k + 1,
        pend := if k + 1 = s.fcl then .none else s.pend }

end Sys2Proof.Machine
end

