-- ==== Sys2Proof/Machine/Sine.lean ====
section
/-! DEFINITION. SINE, the sine unit, as any unit that 41_lfo R141 allows. -/

namespace Sys2Proof.Machine

/-- A value in [−1, 1] is kept; any other is replaced, because S1 excludes it. -/
def withinUnit (v : Word) : Word := if le32 Config.minusOne v && le32 v Config.one then v else 0x00000000#32

/-- SINE (41_lfo R141): property S2 at the four quarter turns, elsewhere the implementation's own unit held to property
S1. It depends on the phase alone (S3). Every unit with S1 to S3 is this function for some `Config.sineUnit` (itself),
so nothing more than S1 to S3 can be proved of it. Assumption log 9. -/
def sine (p : Word) : Word :=
  if p = 0x00000000#32 then 0x00000000#32
  else if p = 0x3E800000#32 then Config.one
  else if p = 0x3F000000#32 then 0x00000000#32
  else if p = 0x3F400000#32 then Config.minusOne
  else withinUnit (Config.sineUnit p)

end Sys2Proof.Machine
end

