-- ==== Sys2Proof/Machine/Engine.lean ====
section
/-! DEFINITION. The ENGINE agent's step, the RESET event and the engine's latencies (00_scope R5; 45_commands R247;
44_engine_frame R200, R230; 70_reset_and_hazards R390, R410). -/

namespace Sys2Proof.Machine

/-- An engine computation as the outcome of a step. -/
def engineOutcome : Except Fault State → Host.Outcome State Fault Refusal
  | .ok s => .next s
  | .error f => .fault f

/-- CONFIG_EXEC as a step (45_commands R247). -/
def configStep (s : State) : Host.Outcome State Fault Refusal := engineOutcome (configResult s)

/-- FRAME as a step, over the sine unit `sn` (44_engine_frame R230). -/
def frameStep (sn : Word → Word) (s : State) : Host.Outcome State Fault Refusal := engineOutcome (frameResult sn s)

/-- The ENGINE's turn: the configuration or one frame, as PEND says. With PEND = NONE the engine has no enabled step and
does nothing (60_exceptions R369). -/
def engineStep (sn : Word → Word) (s : State) : Host.Outcome State Fault Refusal :=
  match s.pend with
  | .none => .next s
  | .config => configStep s
  | .process => frameStep sn s

/-- RESET (70_reset_and_hazards R390): every piece of state at its reset value, every memory word a new draw. The coming
steps of the agents are not the core's state and stay. Assumption logs 3 and 8. -/
def resetEvent (s : State) : State := { State.reset with epoch := s.epoch + 1, agenda := s.agenda }

/-- The time of the engine step enabled in `s` (70_reset_and_hazards R410). No rule depends on it. -/
def engineLatency (s : State) : Nat :=
  match s.pend with
  | .none => 0
  | .config => Config.configLatency
  | .process => Config.frameLatency

end Sys2Proof.Machine
end

