-- ==== Sys2Proof/Machine/Step.lean ====
section
/-! DEFINITION. One step of the total order of 20_memory R68, and the loading of one transaction. -/

namespace Sys2Proof.Machine

/-- The agenda without its next entry. -/
def State.popAgenda (s : State) : State := { s with agenda := s.agenda.tail }

/-- One step, over the sine unit `sn`: the agent whose turn it is performs one atomic step (00_scope R5). With nothing on
the agenda the host is silent and the engine takes every turn (70_reset_and_hazards R413; assumption log 5). -/
def stepWith (sn : Word → Word) (s : State) : Host.Outcome State Fault Refusal :=
  match s.agenda with
  | [] => engineStep sn s
  | .host ht wdata :: _ => exec (decodeHT ht wdata) s.popAgenda
  | .engine :: _ => engineStep sn s.popAgenda
  | .reset :: _ => .next (resetEvent s.popAgenda)

/-- One step of the core. -/
def step (s : State) : Host.Outcome State Fault Refusal := stepWith sine s

/-- The transaction that performs an encoded operation: itself, or for a command word the write of it to CMD
(45_commands R240, 46_host_bus R274). -/
def eventOf : Encoding → Event
  | .transaction ht wdata => .host ht wdata
  | .command v => .host (pageDescriptor 1#1 0#5) v

/-- The agenda with a transaction put first. -/
def State.pushEvent (s : State) (e : Event) : State := { s with agenda := e :: s.agenda }

/-- The record `w` of `nbits` bits is made the host's next transaction. -/
def State.withFetchWord (s : State) (nbits w : Nat) : State :=
  match encodingOfRecord nbits w with
  | .ok e => s.pushEvent (eventOf e)
  | .error _ => s

end Sys2Proof.Machine
end

