-- ==== Sys2Proof/Safety.lean ====
section
/-! DEFINITION. What a sound state of the core is: the invariants of 10_state R48 and the facts beside them that every step
relies on (45_commands R245, R247; 44_engine_frame R200, R234). -/

namespace Sys2Proof.Machine

/-- 0 ≤ p < 1, finite and not −0 (10_state R48, 41_lfo R146). -/
def phaseInTurn (p : Word) : Bool := isFinite p && !signBit p && lt32 p Config.one

/-- The memories of a lane are in canonical form and list no word that does not exist; the windows are never
zero-filled (10_state R44 to R46, 45_commands R247). -/
def Lane.wf (l : Lane) : Bool :=
  l.dl.wf && l.dl.within Config.dlDepth &&
    l.ibuf.wf && l.ibuf.within Config.blockCap && decide (l.ibuf.zeroed = 0) &&
    l.obuf.wf && l.obuf.within Config.blockCap && decide (l.obuf.zeroed = 0)

/-- What holds whenever CONFIGURED = 1 (10_state R36, R37, R48). -/
structure ConfiguredInv (s : State) : Prop where
  rateValid : srValid s.cfgSr = true
  lengthOfRate : delayLength s.cfgSr = .ok s.cfgLen
  lengthLow : Config.lMin ≤ s.cfgLen
  lengthHigh : s.cfgLen ≤ Config.dlDepth
  headsEqual : s.left.wh = s.right.wh
  headLow : s.left.wh < s.cfgLen
  leftZeroed : s.cfgLen ≤ s.left.dl.zeroed
  rightZeroed : s.cfgLen ≤ s.right.dl.zeroed

/-- What holds whenever CONFIGURED = 0: the observation registers read 0 and the delay RAM is untouched
(70_reset_and_hazards R393). -/
structure UnconfiguredInv (s : State) : Prop where
  notProcessing : s.pend ≠ .process
  framesDone : s.framesDone = 0
  cfgSr : s.cfgSr = 0x00000000#32
  cfgLen : s.cfgLen = 0
  cfgMaxblk : s.cfgMaxblk = 0
  phase : s.phase = 0x00000000#32
  leftHead : s.left.wh = 0
  rightHead : s.right.wh = 0
  leftFeedback : s.left.fb = 0x00000000#32
  rightFeedback : s.right.fb = 0x00000000#32
  leftDelay : s.left.dl = .unspecified
  rightDelay : s.right.dl = .unspecified

/-- What holds while a block is in progress (10_state R43, R48; 44_engine_frame R200). -/
structure ProcessingInv (s : State) : Prop where
  configured : s.configured = true
  framesLeft : s.framesDone < s.fcl
  withinBlock : s.fcl ≤ s.cfgMaxblk

/-- The invariant of the core. -/
structure Inv (s : State) : Prop where
  leftWf : s.left.wf = true
  rightWf : s.right.wf = true
  phase : phaseInTurn s.phase = true
  maxblk : s.cfgMaxblk ≤ Config.blockCap
  framesDone : s.framesDone ≤ Config.blockCap
  whenConfigured : s.configured = true → ConfiguredInv s
  whenUnconfigured : s.configured = false → UnconfiguredInv s
  whenProcessing : s.pend = .process → ProcessingInv s
  whenConfiguring : s.pend = .config → srValid s.srIn = true

/-- The step is the ENGINE's turn. -/
def EngineTurn (s : State) : Prop := s.agenda = [] ∨ ∃ rest, s.agenda = .engine :: rest

/-- The step is a RESET. -/
def ResetTurn (s : State) : Prop := ∃ rest, s.agenda = .reset :: rest

/-- The two states differ at most in input-window words at index `n` and above. -/
def SameButLaterInputs (n : Nat) (s s' : State) : Prop :=
  s' = { s with
         left := { s.left with ibuf := s'.left.ibuf }
         right := { s.right with ibuf := s'.right.ibuf } } ∧
  ∀ c j, j < n → inputWord s c j = inputWord s' c j

/-- Every word in use of channel `c`'s delay line, and its feedback value, are finite and of magnitude at most `bound`
units of 2^−149 (44_engine_frame R233, whose peak M[c] is a channel's own). -/
def WithinPeak (s : State) (c : Channel) (bound : Nat) : Prop :=
  isFinite (s.lane c).fb = true ∧ magnitude (s.lane c).fb ≤ bound ∧
    ∀ i, i < s.cfgLen → isFinite (delayWord s c i) = true ∧ magnitude (delayWord s c i) ≤ bound

/-- Channel `c`'s input word of the coming frame is ±0 (44_engine_frame R233). -/
def SilentInput (s : State) (c : Channel) : Prop := (inputWord s c s.framesDone).extractLsb' 0 31 = 0#31

end Sys2Proof.Machine

namespace Sys2Proof

/-- The writes that the busy lockout refuses (46_host_bus R271, 70_reset_and_hazards R400). -/
def Instr.underBusyLockout : Instr → Bool
  | .wrCmd _ | .wrSrIn _ | .wrMaxblkIn _ | .wrFrameCount _ | .wrIbufL _ _ | .wrIbufR _ _ => true
  | .rdCmd | .rdStatus | .rdSrIn | .rdMaxblkIn | .rdFrameCount | .rdDrywet | .rdDepth | .rdRate | .rdPhaseOffset
  | .rdFeedback | .rdType | .rdCfgSr | .rdCfgLen | .rdCfgMaxblk | .rdFramesDone | .rdWheadL | .rdWheadR
  | .rdLfoPhase | .rdFbL | .rdFbR | .wrStatus _ | .wrDrywet _ | .wrDepth _ | .wrRate _ | .wrPhaseOffset _
  | .wrFeedback _ | .wrType _ | .wrObs _ _ | .rdRsvd _ | .wrRsvd _ _ | .rdIbufL _ | .rdIbufR _ | .rdObufL _
  | .wrObufL _ _ | .rdObufR _ | .wrObufR _ _ | .rdBuserr _ _ | .wrBuserr _ _ _ => false
  | .nop | .configure | .process | .cmdIllegal _ => false

/-- The operation is a command word, not a bus transaction (30_encoding R90). -/
def Instr.isCommand : Instr → Bool
  | .nop | .configure | .process | .cmdIllegal _ => true
  | .rdCmd | .rdStatus | .rdSrIn | .rdMaxblkIn | .rdFrameCount | .rdDrywet | .rdDepth | .rdRate | .rdPhaseOffset
  | .rdFeedback | .rdType | .rdCfgSr | .rdCfgLen | .rdCfgMaxblk | .rdFramesDone | .rdWheadL | .rdWheadR
  | .rdLfoPhase | .rdFbL | .rdFbR | .wrCmd _ | .wrStatus _ | .wrSrIn _ | .wrMaxblkIn _ | .wrFrameCount _
  | .wrDrywet _ | .wrDepth _ | .wrRate _ | .wrPhaseOffset _ | .wrFeedback _ | .wrType _ | .wrObs _ _ | .rdRsvd _
  | .wrRsvd _ _ | .rdIbufL _ | .wrIbufL _ _ | .rdIbufR _ | .wrIbufR _ _ | .rdObufL _ | .wrObufL _ _
  | .rdObufR _ | .wrObufR _ _ | .rdBuserr _ _ | .wrBuserr _ _ _ => false

/-- The operation reads a mapped word (20_memory R65). -/
def Instr.isMappedRead : Instr → Bool
  | .rdCmd | .rdStatus | .rdSrIn | .rdMaxblkIn | .rdFrameCount | .rdDrywet | .rdDepth | .rdRate | .rdPhaseOffset
  | .rdFeedback | .rdType | .rdCfgSr | .rdCfgLen | .rdCfgMaxblk | .rdFramesDone | .rdWheadL | .rdWheadR
  | .rdLfoPhase | .rdFbL | .rdFbR | .rdRsvd _ | .rdIbufL _ | .rdIbufR _ | .rdObufL _ | .rdObufR _ => true
  | .wrCmd _ | .wrStatus _ | .wrSrIn _ | .wrMaxblkIn _ | .wrFrameCount _ | .wrDrywet _ | .wrDepth _ | .wrRate _
  | .wrPhaseOffset _ | .wrFeedback _ | .wrType _ | .wrObs _ _ | .wrRsvd _ _ | .wrIbufL _ _ | .wrIbufR _ _
  | .wrObufL _ _ | .wrObufR _ _ | .rdBuserr _ _ | .wrBuserr _ _ _ => false
  | .nop | .configure | .process | .cmdIllegal _ => false

/-- The operation is a bus read, of a mapped word or not (46_host_bus R270). -/
def Instr.isRead : Instr → Bool
  | .rdCmd | .rdStatus | .rdSrIn | .rdMaxblkIn | .rdFrameCount | .rdDrywet | .rdDepth | .rdRate | .rdPhaseOffset
  | .rdFeedback | .rdType | .rdCfgSr | .rdCfgLen | .rdCfgMaxblk | .rdFramesDone | .rdWheadL | .rdWheadR
  | .rdLfoPhase | .rdFbL | .rdFbR | .rdRsvd _ | .rdIbufL _ | .rdIbufR _ | .rdObufL _ | .rdObufR _
  | .rdBuserr _ _ => true
  | .wrCmd _ | .wrStatus _ | .wrSrIn _ | .wrMaxblkIn _ | .wrFrameCount _ | .wrDrywet _ | .wrDepth _ | .wrRate _
  | .wrPhaseOffset _ | .wrFeedback _ | .wrType _ | .wrObs _ _ | .wrRsvd _ _ | .wrIbufL _ _ | .wrIbufR _ _
  | .wrObufL _ _ | .wrObufR _ _ | .wrBuserr _ _ _ => false
  | .nop | .configure | .process | .cmdIllegal _ => false

/-- The operation writes an RW register or an input window (20_memory R65). -/
def Instr.storesAWord : Instr → Bool
  | .wrSrIn _ | .wrMaxblkIn _ | .wrFrameCount _ | .wrDrywet _ | .wrDepth _ | .wrRate _ | .wrPhaseOffset _
  | .wrFeedback _ | .wrType _ | .wrIbufL _ _ | .wrIbufR _ _ => true
  | .rdCmd | .rdStatus | .rdSrIn | .rdMaxblkIn | .rdFrameCount | .rdDrywet | .rdDepth | .rdRate | .rdPhaseOffset
  | .rdFeedback | .rdType | .rdCfgSr | .rdCfgLen | .rdCfgMaxblk | .rdFramesDone | .rdWheadL | .rdWheadR
  | .rdLfoPhase | .rdFbL | .rdFbR | .wrCmd _ | .wrStatus _ | .wrObs _ _ | .rdRsvd _ | .wrRsvd _ _ | .rdIbufL _
  | .rdIbufR _ | .rdObufL _ | .wrObufL _ _ | .rdObufR _ | .wrObufR _ _ | .rdBuserr _ _ | .wrBuserr _ _ _ => false
  | .nop | .configure | .process | .cmdIllegal _ => false

end Sys2Proof
end

