-- ==== Sys2Proof/Certificates/Slice0/Obligations.lean ====
section
/-! DEFINITION. The statements about the CFDL core, one `Prop` each, from the numbered rules of spec/. A statement about
`engineStep sine` reaches a run through `Obligations.StepPerformsTheNextAgendaEntry`. RDATA is the field `rdata`: a word
after a read, `none` after a write, which returns nothing (46_host_bus R270; log 6). -/

open Sys2Proof Sys2Proof.Machine

/-! Encoding -/

/-- Decoding the encoding of any well-formed operation gives it back, with every operand at every value (30_encoding R90
to R95). -/
def Obligations.DecodeInvertsEncode : Prop :=
  ∀ i : Instr, i.wellFormed = true → decode (encode i) = i

/-- Decoding is total and loses nothing: each of the 2^20 descriptors, with its WDATA, and each of the 2^32 command words
is one well-formed operation, whose encoding is the word itself (30_encoding R95; a read carries no WDATA, R93). -/
def Obligations.EveryWordIsOneWellFormedOperation : Prop :=
  (∀ (ht : Descriptor) (wd : Word), (decodeHT ht wd).wellFormed = true ∧
    encode (decodeHT ht wd) = .transaction ht (if ht.getLsbD 19 then wd else 0#32)) ∧
  (∀ v : Word, (decodeCommand v).wellFormed = true ∧ encode (decodeCommand v) = .command v)

/-- Words of the spec's vectors V-HT-1 to V-HT-22 and the three command words decode to the rows they stand for
(95_test_vectors section 2.7, 30_encoding R91), the raw records too (their widths are the model's: log 14). -/
def Obligations.SpecVectorWordsDecode : Prop :=
  decodeTableWord 20 0x40004 = some .rdStatus ∧
  decodeTableWord 56 (0xC0034 + 0x00000003 * 2 ^ 24) = some (.wrType 3#32) ∧
  decodeTableWord 20 0x40064 = some (.rdRsvd 25#5) ∧
  decodeTableWord 32 0x00000002 = some .process ∧
  decodeHT 0xC0000#20 1#32 = .wrCmd 1#32 ∧
  decodeHT 0xC0058#20 7#32 = .wrObs 6#4 7#32 ∧
  decodeHT 0xC0018#20 7#32 = .wrRsvd 6#5 7#32 ∧
  decodeHT 0xC7FFC#20 7#32 = .wrIbufL 4095#12 7#32 ∧
  decodeHT 0x4C008#20 0#32 = .rdObufL 2#12 ∧
  decodeHT 0x40080#20 0#32 = .rdBuserr 2#2 0x00080#17 ∧
  decodeHT 0x00004#20 0#32 = .rdBuserr 0#2 0x00004#17 ∧
  decodeHT 0xC0002#20 3#32 = .wrBuserr 2#2 0x00002#17 3#32 ∧
  decodeCommand 0x00000000#32 = .nop ∧
  decodeCommand 0x00000001#32 = .configure ∧
  decodeCommand 0x00000011#32 = .cmdIllegal 0x00000011#32

/-! The step -/

/-- A step performs the next entry of the total order: the transaction the descriptor decodes to, the engine's turn, or
RESET; with nothing listed, the engine's turn (00_scope R5, 20_memory R68; the agenda is the model's form of the order,
log 5, and RESET leaves it in place, log 8). With PEND = NONE the engine's turn changes nothing. -/
def Obligations.StepPerformsTheNextAgendaEntry : Prop :=
  ∀ s : State,
    (∀ ht wd rest i, s.agenda = .host ht wd :: rest → decodeHT ht wd = i →
      step s = exec i { s with agenda := rest }) ∧
    (∀ rest, s.agenda = .engine :: rest → step s = engineStep sine { s with agenda := rest }) ∧
    (s.agenda = [] → step s = engineStep sine s) ∧
    (∀ rest, s.agenda = .reset :: rest →
      step s = .next { State.reset with epoch := s.epoch + 1, agenda := rest }) ∧
    (s.pend = .none → engineStep sine s = .next s)

/-- A raw record that the decoder reads as operation i, placed with `withFetchWord`, is what the very next step runs: a
transaction directly, a command word as the write of it to CMD (45_commands R240; logs 5, 14, 15). -/
def Obligations.StepRunsThePlacedRecord : Prop :=
  ∀ (s : State) (nbits w : Nat) (i : Instr), decodeTableWord nbits w = some i →
    step (s.withFetchWord nbits w) = exec i s

/-- WR_CMD with data v does exactly what the command word v does, for every word and every state (46_host_bus R274). -/
def Obligations.CommandWriteRunsItsCommandWord : Prop :=
  ∀ (s : State) (v : Word), exec (.wrCmd v) s = exec (decodeCommand v) s

/-! Reads -/

/-- RD_CMD: RDATA is 0 in every state, and nothing else changes (46_host_bus R275). -/
def Obligations.CommandRegisterReadsZero : Prop :=
  (∀ wd, decodeHT 0x40000#20 wd = .rdCmd) ∧
  ∀ s : State, exec .rdCmd s = .next { s with rdata := some 0x00000000#32 }

/-- RD_STATUS: RDATA has CONFIGURED, BUSY, BLK_CLAMPED and the six error bits in their places and 0 in every other, and
nothing else changes (46_host_bus R276). -/
def Obligations.StatusReadReturnsItsFields : Prop :=
  (∀ wd, decodeHT 0x40004#20 wd = .rdStatus) ∧
  ∀ s : State, ∃ w : Word, exec .rdStatus s = .next { s with rdata := some w } ∧
    w.getLsbD 0 = s.configured ∧ w.getLsbD 1 = decide (s.pend ≠ .none) ∧ w.getLsbD 2 = s.blkClamped ∧
    w.getLsbD 8 = s.errors.unconf ∧ w.getLsbD 9 = s.errors.cfg ∧ w.getLsbD 10 = s.errors.cmd ∧
    w.getLsbD 11 = s.errors.busy ∧ w.getLsbD 12 = s.errors.count ∧ w.getLsbD 13 = s.errors.bus ∧
    ∀ j : Nat, (3 ≤ j ∧ j ≤ 7) ∨ 14 ≤ j → w.getLsbD j = false

/-- RD_SR_IN, RD_MAXBLK_IN and RD_FRAME_COUNT return the word last stored, in every state, and change nothing else
(46_host_bus R278, R280, R282). -/
def Obligations.OperandRegisterReads : Prop :=
  (∀ wd, decodeHT 0x40008#20 wd = .rdSrIn) ∧ (∀ wd, decodeHT 0x4000C#20 wd = .rdMaxblkIn) ∧
  (∀ wd, decodeHT 0x40010#20 wd = .rdFrameCount) ∧
  ∀ s : State,
    exec .rdSrIn s = .next { s with rdata := some s.srIn } ∧
    exec .rdMaxblkIn s = .next { s with rdata := some s.maxblkIn } ∧
    exec .rdFrameCount s = .next { s with rdata := some s.frameCount }

/-- RD_DRYWET to RD_FEEDBACK return the stored word bit for bit, RD_TYPE the effect bit under 31 zero bits, and change
nothing else (46_host_bus R284, R286, R288, R290, R292, R294). -/
def Obligations.ParameterRegisterReads : Prop :=
  (∀ wd, decodeHT 0x40020#20 wd = .rdDrywet) ∧ (∀ wd, decodeHT 0x40024#20 wd = .rdDepth) ∧
  (∀ wd, decodeHT 0x40028#20 wd = .rdRate) ∧ (∀ wd, decodeHT 0x4002C#20 wd = .rdPhaseOffset) ∧
  (∀ wd, decodeHT 0x40030#20 wd = .rdFeedback) ∧ (∀ wd, decodeHT 0x40034#20 wd = .rdType) ∧
  ∀ s : State,
    exec .rdDrywet s = .next { s with rdata := some s.params.drywet } ∧
    exec .rdDepth s = .next { s with rdata := some s.params.depth } ∧
    exec .rdRate s = .next { s with rdata := some s.params.rate } ∧
    exec .rdPhaseOffset s = .next { s with rdata := some s.params.phaseOffset } ∧
    exec .rdFeedback s = .next { s with rdata := some s.params.feedback } ∧
    exec .rdType s = .next { s with rdata := some (if s.params.effect = .flanger then 1#32 else 0#32) }

/-- RD_CFG_SR, RD_CFG_LEN and RD_CFG_MAXBLK return the configuration, zero-extended, and change nothing else: 0 while
Unconfigured; while Configured a length from 2 to 524288; a maximum block of at most 4096 (46_host_bus R296 to R298). -/
def Obligations.ConfigurationRegisterReads : Prop :=
  (∀ wd, decodeHT 0x40040#20 wd = .rdCfgSr) ∧ (∀ wd, decodeHT 0x40044#20 wd = .rdCfgLen) ∧
  (∀ wd, decodeHT 0x40048#20 wd = .rdCfgMaxblk) ∧
  ∀ s : State,
    exec .rdCfgSr s = .next { s with rdata := some s.cfgSr } ∧
    exec .rdCfgLen s = .next { s with rdata := some (BitVec.ofNat 32 s.cfgLen) } ∧
    exec .rdCfgMaxblk s = .next { s with rdata := some (BitVec.ofNat 32 s.cfgMaxblk) } ∧
    (Inv s → (BitVec.ofNat 32 s.cfgLen).toNat = s.cfgLen ∧ (BitVec.ofNat 32 s.cfgMaxblk).toNat = s.cfgMaxblk ∧
      s.cfgMaxblk ≤ 4096 ∧ (s.configured = false → s.cfgSr = 0x00000000#32 ∧ s.cfgLen = 0 ∧ s.cfgMaxblk = 0) ∧
      (s.configured = true → 2 ≤ s.cfgLen ∧ s.cfgLen ≤ 524288))

/-- RD_FRAMES_DONE, RD_WHEAD_L, RD_WHEAD_R, RD_LFO_PHASE, RD_FB_L and RD_FB_R return the engine's registers, integers
zero-extended, and change nothing else; the heads are equal, and below CFG_LEN while Configured, and the phase is in
[0, 1) and not −0 (46_host_bus R299 to R304). -/
def Obligations.EngineRegisterReads : Prop :=
  (∀ wd, decodeHT 0x4004C#20 wd = .rdFramesDone) ∧ (∀ wd, decodeHT 0x40050#20 wd = .rdWheadL) ∧
  (∀ wd, decodeHT 0x40054#20 wd = .rdWheadR) ∧ (∀ wd, decodeHT 0x40058#20 wd = .rdLfoPhase) ∧
  (∀ wd, decodeHT 0x4005C#20 wd = .rdFbL) ∧ (∀ wd, decodeHT 0x40060#20 wd = .rdFbR) ∧
  ∀ s : State,
    exec .rdFramesDone s = .next { s with rdata := some (BitVec.ofNat 32 s.framesDone) } ∧
    exec .rdWheadL s = .next { s with rdata := some (BitVec.ofNat 32 s.left.wh) } ∧
    exec .rdWheadR s = .next { s with rdata := some (BitVec.ofNat 32 s.right.wh) } ∧
    exec .rdLfoPhase s = .next { s with rdata := some s.phase } ∧
    exec .rdFbL s = .next { s with rdata := some s.left.fb } ∧
    exec .rdFbR s = .next { s with rdata := some s.right.fb } ∧
    (Inv s → (BitVec.ofNat 32 s.framesDone).toNat = s.framesDone ∧
      (BitVec.ofNat 32 s.left.wh).toNat = s.left.wh ∧ s.left.wh = s.right.wh ∧
      (s.configured = true → s.left.wh < s.cfgLen) ∧
      isFinite s.phase = true ∧ le32 0x00000000#32 s.phase = true ∧ lt32 s.phase 0x3F800000#32 = true ∧
      s.phase ≠ 0x80000000#32)

/-- RD_RSVD: a read of any of the twelve reserved words, and of no other word, decodes to it; it returns 0 and changes
nothing else (46_host_bus R310). -/
def Obligations.ReservedWordsReadZero : Prop :=
  (∀ (ht : Descriptor) wd (word : BitVec 5), decodeHT ht wd = .rdRsvd word ↔
    ht &&& 0xFFF83#20 = 0x40000#20 ∧ word = ht.extractLsb' 2 5 ∧
      word ∈ [5#5, 6#5, 7#5, 14#5, 15#5, 25#5, 26#5, 27#5, 28#5, 29#5, 30#5, 31#5]) ∧
  ∀ (word : BitVec 5) (s : State), exec (.rdRsvd word) s = .next { s with rdata := some 0x00000000#32 }

/-- RD_IBUF_L and RD_IBUF_R return word k of the window, in every state, and change nothing else; a word never written
since reset returns its draw (46_host_bus R320, R322; the draw is the free value of log 2). -/
def Obligations.InputWindowReads : Prop :=
  (∀ (ht : Descriptor) wd, ht &&& 0xFC003#20 = 0x44000#20 → decodeHT ht wd = .rdIbufL (ht.extractLsb' 2 12)) ∧
  (∀ (ht : Descriptor) wd, ht &&& 0xFC003#20 = 0x48000#20 → decodeHT ht wd = .rdIbufR (ht.extractLsb' 2 12)) ∧
  ∀ (s : State) (k : WindowIndex),
    exec (.rdIbufL k) s = .next { s with rdata := some (inputWord s .left k.toNat) } ∧
    exec (.rdIbufR k) s = .next { s with rdata := some (inputWord s .right k.toNat) } ∧
    (∀ c v, (s.lane c).ibuf.read k.toNat = some v → inputWord s c k.toNat = v) ∧
    (∀ c, (s.lane c).ibuf.read k.toNat = none →
      inputWord s c k.toNat = Config.draw s.epoch (.inputWindow c) k.toNat)

/-- RD_OBUF_L and RD_OBUF_R return word k of the window, in every state, and change nothing else (46_host_bus R324, R326;
the draw of a word never written is the free value of log 2). -/
def Obligations.OutputWindowReads : Prop :=
  (∀ (ht : Descriptor) wd, ht &&& 0xFC003#20 = 0x4C000#20 → decodeHT ht wd = .rdObufL (ht.extractLsb' 2 12)) ∧
  (∀ (ht : Descriptor) wd, ht &&& 0xFC003#20 = 0x50000#20 → decodeHT ht wd = .rdObufR (ht.extractLsb' 2 12)) ∧
  ∀ (s : State) (k : WindowIndex),
    exec (.rdObufL k) s = .next { s with rdata := some (outputWord s .left k.toNat) } ∧
    exec (.rdObufR k) s = .next { s with rdata := some (outputWord s .right k.toNat) } ∧
    (∀ c v, (s.lane c).obuf.read k.toNat = some v → outputWord s c k.toNat = v) ∧
    (∀ c, (s.lane c).obuf.read k.toNat = none →
      outputWord s c k.toNat = Config.draw s.epoch (.outputWindow c) k.toNat)

/-- A read of a mapped word changes nothing but RDATA, and the same read again returns the same word; a write of an RW
register or an input window, done twice, leaves what it leaves once; a write to CMD need not (20_memory R65). -/
def Obligations.ReadsHaveNoSideEffect : Prop :=
  (∀ (i : Instr) (s : State), i.isMappedRead = true →
    ∃ t w, exec i s = .next t ∧ t = { s with rdata := some w } ∧ exec i t = .next t) ∧
  (∀ (i : Instr) (s : State), i.storesAWord = true → ∃ t, exec i s = .next t ∧ exec i t = .next t) ∧
  (∃ (v : Word) (s t u : State), exec (.wrCmd v) s = .next t ∧ exec (.wrCmd v) t = .next u ∧ u ≠ t)

/-! Writes -/

/-- WR_STATUS, WR_OBS, WR_RSVD, WR_OBUF_L and WR_OBUF_R are ignored without error, in every state and with any data
(46_host_bus R277, R305, R311, R325, R327). -/
def Obligations.IgnoredWritesChangeNothing : Prop :=
  (∀ wd, decodeHT 0xC0004#20 wd = .wrStatus wd) ∧
  (∀ (ht : Descriptor) wd, ht &&& 0xFFFC3#20 = 0xC0040#20 → decodeHT ht wd = .wrObs (ht.extractLsb' 2 4) wd) ∧
  (∀ (ht : Descriptor) wd, ht &&& 0xFFF83#20 = 0xC0000#20 →
    ht.extractLsb' 2 5 ∈ [5#5, 6#5, 7#5, 14#5, 15#5] → decodeHT ht wd = .wrRsvd (ht.extractLsb' 2 5) wd) ∧
  (∀ (ht : Descriptor) wd, ht &&& 0xFC003#20 = 0xCC000#20 → decodeHT ht wd = .wrObufL (ht.extractLsb' 2 12) wd) ∧
  (∀ (ht : Descriptor) wd, ht &&& 0xFC003#20 = 0xD0000#20 → decodeHT ht wd = .wrObufR (ht.extractLsb' 2 12) wd) ∧
  ∀ (s : State) (wd : Word),
    exec (.wrStatus wd) s = .next { s with rdata := none } ∧
    (∀ word, exec (.wrObs word wd) s = .next { s with rdata := none }) ∧
    (∀ word, exec (.wrRsvd word wd) s = .next { s with rdata := none }) ∧
    (∀ k, exec (.wrObufL k wd) s = .next { s with rdata := none }) ∧
    (∀ k, exec (.wrObufR k wd) s = .next { s with rdata := none })

/-- WR_SR_IN, WR_MAXBLK_IN and WR_FRAME_COUNT store any word as given while PEND = NONE; while PEND ≠ NONE they change
nothing but ERR_BUSY (46_host_bus R279, R281, R283). -/
def Obligations.OperandWritesUnderBusyLockout : Prop :=
  (∀ wd, decodeHT 0xC0008#20 wd = .wrSrIn wd) ∧ (∀ wd, decodeHT 0xC000C#20 wd = .wrMaxblkIn wd) ∧
  (∀ wd, decodeHT 0xC0010#20 wd = .wrFrameCount wd) ∧
  ∀ (s : State) (wd : Word),
    (s.pend = .none →
      exec (.wrSrIn wd) s = .next { s with srIn := wd, rdata := none } ∧
      exec (.wrMaxblkIn wd) s = .next { s with maxblkIn := wd, rdata := none } ∧
      exec (.wrFrameCount wd) s = .next { s with frameCount := wd, rdata := none }) ∧
    (s.pend ≠ .none →
      exec (.wrSrIn wd) s = .next { s with errors := { s.errors with busy := true }, rdata := none } ∧
      exec (.wrMaxblkIn wd) s = .next { s with errors := { s.errors with busy := true }, rdata := none } ∧
      exec (.wrFrameCount wd) s = .next { s with errors := { s.errors with busy := true }, rdata := none })

/-- The six parameter writes are accepted in every state, also while BUSY, and store the word as given (TYPE: bit 0 of
it); the snapshot a frame takes of the stored word is its clamp, the other parameters' unchanged (46_host_bus R285,
R287, R289, R291, R293, R295). -/
def Obligations.ParameterWritesAlwaysAccepted : Prop :=
  (∀ wd, decodeHT 0xC0020#20 wd = .wrDrywet wd) ∧ (∀ wd, decodeHT 0xC0024#20 wd = .wrDepth wd) ∧
  (∀ wd, decodeHT 0xC0028#20 wd = .wrRate wd) ∧ (∀ wd, decodeHT 0xC002C#20 wd = .wrPhaseOffset wd) ∧
  (∀ wd, decodeHT 0xC0030#20 wd = .wrFeedback wd) ∧ (∀ wd, decodeHT 0xC0034#20 wd = .wrType wd) ∧
  (∀ (s : State) (wd : Word),
    exec (.wrDrywet wd) s = .next { s with params := { s.params with drywet := wd }, rdata := none } ∧
    exec (.wrDepth wd) s = .next { s with params := { s.params with depth := wd }, rdata := none } ∧
    exec (.wrRate wd) s = .next { s with params := { s.params with rate := wd }, rdata := none } ∧
    exec (.wrPhaseOffset wd) s = .next { s with params := { s.params with phaseOffset := wd }, rdata := none } ∧
    exec (.wrFeedback wd) s = .next { s with params := { s.params with feedback := wd }, rdata := none } ∧
    exec (.wrType wd) s = .next { s with
      params := { s.params with effect := if wd.getLsbD 0 then .flanger else .chorus }, rdata := none }) ∧
  ∀ (p : Params) (wd : Word),
    snapshot { p with drywet := wd } = { snapshot p with dw := clamp32 wd 0x00000000#32 0x3F800000#32 } ∧
    snapshot { p with depth := wd } = { snapshot p with dp := clamp32 wd 0x00000000#32 0x3F800000#32 } ∧
    snapshot { p with rate := wd } = { snapshot p with rt := clamp32 wd 0x3DCCCCCD#32 0x41A00000#32 } ∧
    snapshot { p with phaseOffset := wd } = { snapshot p with po := clamp32 wd 0x00000000#32 0x3F800000#32 } ∧
    snapshot { p with feedback := wd } = { snapshot p with fbc := clamp32 wd 0x00000000#32 0x3F7AE148#32 } ∧
    ∀ e, snapshot { p with effect := e } = { snapshot p with ty := e }

/-- WR_IBUF_L and WR_IBUF_R: while PEND = NONE, word k of the window is the data, every other word of every memory reads
as before, and no other state changes; while PEND ≠ NONE nothing but ERR_BUSY changes (46_host_bus R321, R323). -/
def Obligations.InputWindowWritesUnderBusyLockout : Prop :=
  (∀ (ht : Descriptor) wd, ht &&& 0xFC003#20 = 0xC4000#20 → decodeHT ht wd = .wrIbufL (ht.extractLsb' 2 12) wd) ∧
  (∀ (ht : Descriptor) wd, ht &&& 0xFC003#20 = 0xC8000#20 → decodeHT ht wd = .wrIbufR (ht.extractLsb' 2 12) wd) ∧
  ∀ (s : State) (k : WindowIndex) (wd : Word),
    (s.pend = .none → ∃ t, exec (.wrIbufL k wd) s = .next t ∧
      t = { s with left := { s.left with ibuf := t.left.ibuf }, rdata := none } ∧
      ∀ c j, inputWord t c j = (if c = .left ∧ j = k.toNat then wd else inputWord s c j) ∧
        outputWord t c j = outputWord s c j ∧ delayWord t c j = delayWord s c j) ∧
    (s.pend = .none → ∃ t, exec (.wrIbufR k wd) s = .next t ∧
      t = { s with right := { s.right with ibuf := t.right.ibuf }, rdata := none } ∧
      ∀ c j, inputWord t c j = (if c = .right ∧ j = k.toNat then wd else inputWord s c j) ∧
        outputWord t c j = outputWord s c j ∧ delayWord t c j = delayWord s c j) ∧
    (s.pend ≠ .none →
      exec (.wrIbufL k wd) s = .next { s with errors := { s.errors with busy := true }, rdata := none } ∧
      exec (.wrIbufR k wd) s = .next { s with errors := { s.errors with busy := true }, rdata := none })

/-- RD_BUSERR and WR_BUSERR: every access that is misaligned, not 4 bytes wide or to no mapped word, and only ERR_BUS
changes, whether or not the core is busy; a read returns 0 (46_host_bus R330, R331; 60_exceptions R358). The effect is
the operation's own. -/
def Obligations.BusErrorsSetOnlyErrBus : Prop :=
  (∀ (ht : Descriptor) wd,
    ht.extractLsb' 17 2 ≠ 2#2 ∨ ht.extractLsb' 0 2 ≠ 0#2 ∨ 5#3 ≤ ht.extractLsb' 14 3 ∨
      (ht.extractLsb' 14 3 = 0#3 ∧ ht.extractLsb' 7 7 ≠ 0#7) →
    decodeHT ht wd = if ht.getLsbD 19 then .wrBuserr (ht.extractLsb' 17 2) (ht.extractLsb' 0 17) wd
      else .rdBuserr (ht.extractLsb' 17 2) (ht.extractLsb' 0 17)) ∧
  ∀ (s : State) (size : BitVec 2) (a : BitVec 17) (wd : Word),
    exec (.rdBuserr size a) s =
      .next { s with errors := { s.errors with bus := true }, rdata := some 0x00000000#32 } ∧
    exec (.wrBuserr size a wd) s = .next { s with errors := { s.errors with bus := true }, rdata := none }

/-! Command words -/

/-- NOP changes no state, and an illegal word only sets ERR_CMD, when the core is idle; both only set ERR_BUSY while a
command is pending. The same through WR_CMD (45_commands R241, R242). -/
def Obligations.NopAndIllegalCommandWords : Prop :=
  decodeCommand 0x00000000#32 = .nop ∧
  (∀ v : Word, v.extractLsb' 4 28 ≠ 0#28 ∨ 3#4 ≤ v.extractLsb' 0 4 → decodeCommand v = .cmdIllegal v) ∧
  ∀ (s : State) (v : Word),
    (s.pend = .none →
      exec .nop s = .next { s with rdata := none } ∧
      exec (.wrCmd 0x00000000#32) s = .next { s with rdata := none } ∧
      exec (.cmdIllegal v) s = .next { s with errors := { s.errors with cmd := true }, rdata := none } ∧
      (v.extractLsb' 4 28 ≠ 0#28 ∨ 3#4 ≤ v.extractLsb' 0 4 →
        exec (.wrCmd v) s = .next { s with errors := { s.errors with cmd := true }, rdata := none })) ∧
    (s.pend ≠ .none →
      exec .nop s = .next { s with errors := { s.errors with busy := true }, rdata := none } ∧
      exec (.cmdIllegal v) s = .next { s with errors := { s.errors with busy := true }, rdata := none } ∧
      exec (.wrCmd v) s = .next { s with errors := { s.errors with busy := true }, rdata := none })

/-- CONFIGURE is accepted exactly when the core is idle and SR_IN is a valid sample rate: then PEND = CONFIG and nothing
else changes, in either state of the engine and for any MAXBLK_IN; otherwise one error bit is all that changes; until its
step, SR_IN and MAXBLK_IN cannot be written (45_commands R244). -/
def Obligations.ConfigureAcceptance : Prop :=
  decodeCommand 0x00000001#32 = .configure ∧
  ∀ s : State,
    (s.pend = .none → srValid s.srIn = true →
      exec .configure s = .next { s with pend := .config, rdata := none } ∧
      exec (.wrCmd 0x00000001#32) s = .next { s with pend := .config, rdata := none }) ∧
    (s.pend = .none → srValid s.srIn = false →
      exec .configure s = .next { s with errors := { s.errors with cfg := true }, rdata := none }) ∧
    (s.pend ≠ .none → exec .configure s = .next { s with errors := { s.errors with busy := true }, rdata := none }) ∧
    (s.pend = .config → ∀ wd,
      exec (.wrSrIn wd) s = .next { s with errors := { s.errors with busy := true }, rdata := none } ∧
      exec (.wrMaxblkIn wd) s = .next { s with errors := { s.errors with busy := true }, rdata := none })

/-- PROCESS is accepted exactly when the core is idle and Configured and FRAME_COUNT ≤ CFG_MAXBLK, compared as unsigned
numbers: FRAMES_DONE = 0 and, unless FRAME_COUNT = 0, FCL = FRAME_COUNT and PEND = PROCESS, and nothing else changes;
otherwise one error bit is all that changes (45_commands R245, R246). -/
def Obligations.ProcessAcceptance : Prop :=
  decodeCommand 0x00000002#32 = .process ∧
  ∀ s : State,
    (s.pend = .none → s.configured = true → s.frameCount.toNat ≤ s.cfgMaxblk → s.frameCount ≠ 0x00000000#32 →
      exec .process s =
        .next { s with framesDone := 0, fcl := s.frameCount.toNat, pend := .process, rdata := none } ∧
      exec (.wrCmd 0x00000002#32) s =
        .next { s with framesDone := 0, fcl := s.frameCount.toNat, pend := .process, rdata := none }) ∧
    (s.pend = .none → s.configured = true → s.frameCount = 0x00000000#32 →
      exec .process s = .next { s with framesDone := 0, rdata := none } ∧
      exec (.wrCmd 0x00000002#32) s = .next { s with framesDone := 0, rdata := none }) ∧
    (s.frameCount ≠ 0x00000000#32 → 1 ≤ s.frameCount.toNat) ∧ (Inv s → s.cfgMaxblk ≤ 4096) ∧
    (s.pend = .none → s.configured = true → s.cfgMaxblk < s.frameCount.toNat →
      exec .process s = .next { s with errors := { s.errors with count := true }, rdata := none }) ∧
    (s.pend = .none → s.configured = false →
      exec .process s = .next { s with errors := { s.errors with unconf := true }, rdata := none }) ∧
    (s.pend ≠ .none → exec .process s = .next { s with errors := { s.errors with busy := true }, rdata := none })

/-- ACCEPT: the checks of a command word, in their order, the first that applies deciding (45_commands R240). -/
def Obligations.CommandAcceptanceOrder : Prop :=
  ∀ (s : State) (v : Word), exec (.wrCmd v) s = .next (
    if s.pend ≠ .none then { s with errors := { s.errors with busy := true }, rdata := none }
    else if v.extractLsb' 4 28 ≠ 0#28 ∨ 3#4 ≤ v.extractLsb' 0 4 then
      { s with errors := { s.errors with cmd := true }, rdata := none }
    else if v.extractLsb' 0 4 = 0#4 then { s with rdata := none }
    else if v.extractLsb' 0 4 = 1#4 then
      (if srValid s.srIn = true then { s with pend := .config, rdata := none }
       else { s with errors := { s.errors with cfg := true }, rdata := none })
    else if s.configured = false then { s with errors := { s.errors with unconf := true }, rdata := none }
    else if s.cfgMaxblk < s.frameCount.toNat then
      { s with errors := { s.errors with count := true }, rdata := none }
    else if s.frameCount = 0x00000000#32 then { s with framesDone := 0, rdata := none }
    else { s with framesDone := 0, fcl := s.frameCount.toNat, pend := .process, rdata := none })

/-- srValid holds exactly of the finite words from 1 to 262144, in units of 2^−149: no NaN, no infinity, no zero, nothing
negative (45_commands R243). -/
def Obligations.SampleRateCheckIsTheRange : Prop :=
  ∀ x : Word, srValid x = (isFinite x && ge32 x 0x3F800000#32 && le32 x 0x48800000#32) ∧
    (srValid x = true ↔
      isFinite x = true ∧ signBit x = false ∧ 2 ^ 149 ≤ magnitude x ∧ magnitude x ≤ 262144 * 2 ^ 149)

/-! What transactions and steps can and cannot do -/

/-- While PEND ≠ NONE the writes to CMD, SR_IN, MAXBLK_IN, FRAME_COUNT, IBUF_L and IBUF_R change nothing but ERR_BUSY, and
every other transaction does what it does when idle (RD_STATUS apart, whose BUSY bit it is) (70_reset_and_hazards
R400). -/
def Obligations.BusyLockoutSparesTheOtherTransactions : Prop :=
  ∀ (i : Instr) (s : State), s.pend ≠ .none → i.isCommand = false →
    (i.underBusyLockout = true →
      exec i s = .next { s with errors := { s.errors with busy := true }, rdata := none }) ∧
    (i.underBusyLockout = false → i ≠ .rdStatus →
      ∃ t, exec i s = .next t ∧ t.pend = s.pend ∧
        exec i { s with pend := .none } = .next { t with pend := .none })

/-- Every operation completes, and is accepted or refused by the rest of the state, whatever the error bits hold. Accepted,
it leaves every error bit as it was. Refused, it sets one error bit, be it set already or not; a refused read returns 0, a
refused write or command returns nothing; and nothing else changes (46_host_bus R272). -/
def Obligations.RefusalSetsOneErrorBitOnly : Prop :=
  ∀ (i : Instr) (s : State),
    (∀ errs, ∃ t, exec i { s with errors := errs } = .next t ∧ t.errors = errs) ∨
    ∃ e, ∀ errs, exec i { s with errors := errs } =
      .next { s with errors := errs.set e, rdata := if i.isRead then some 0x00000000#32 else none }

/-- No transaction waits, and none changes the engine's state: the delay lines, write heads, phase, feedback, output
windows, configuration and the coming steps are as before (46_host_bus R270, R273; 20_memory R60). -/
def Obligations.TransactionsLeaveTheEngineState : Prop :=
  ∀ (i : Instr) (s : State), ∃ t, exec i s = .next t ∧
    t.left = { s.left with ibuf := t.left.ibuf } ∧ t.right = { s.right with ibuf := t.right.ibuf } ∧
    t.phase = s.phase ∧ t.configured = s.configured ∧ t.blkClamped = s.blkClamped ∧ t.cfgSr = s.cfgSr ∧
    t.cfgLen = s.cfgLen ∧ t.cfgMaxblk = s.cfgMaxblk ∧ t.epoch = s.epoch ∧ t.agenda = s.agenda

/-- An error bit that is set stays set in every step but RESET, which clears all six (60_exceptions R352;
70_reset_and_hazards R405). -/
def Obligations.ErrorBitsStayUntilReset : Prop :=
  ∀ s t : State, step s = .next t →
    (¬ ResetTurn s → ∀ e, s.errors.get e = true → t.errors.get e = true) ∧
    (ResetTurn s → ∀ e, t.errors.get e = false)

/-- The engine leaves Configured by RESET only, and enters it by a configuration step only (10_state R23). -/
def Obligations.OnlyResetUnconfigures : Prop :=
  ∀ s t : State, step s = .next t →
    (¬ ResetTurn s → s.configured = true → t.configured = true) ∧
    (s.configured = false → t.configured = true → EngineTurn s ∧ s.pend = .config) ∧
    (ResetTurn s → t.configured = false)

/-- PEND is set only by a write of CONFIGURE or PROCESS to CMD that passes its checks, and returns to NONE only by the
engine step that completes the command or by RESET; BUSY is not stored, and reads 1 exactly when PEND ≠ NONE
(10_state R24). -/
def Obligations.PendChangesOnlyByCommandOrCompletion : Prop :=
  ∀ s t : State, step s = .next t →
    (s.pend = .none → t.pend ≠ .none → ∃ v rest, s.agenda = .host 0xC0000#20 v :: rest ∧
      ((v = 0x00000001#32 ∧ t.pend = .config ∧ srValid s.srIn = true) ∨
       (v = 0x00000002#32 ∧ t.pend = .process ∧ s.configured = true ∧ s.frameCount ≠ 0x00000000#32 ∧
          s.frameCount.toNat ≤ s.cfgMaxblk))) ∧
    (s.pend ≠ .none → t.pend = .none → ResetTurn s ∨
      (EngineTurn s ∧ (s.pend = .config ∨ (s.pend = .process ∧ s.framesDone + 1 = s.fcl)))) ∧
    (s.pend ≠ .none → t.pend ≠ .none → t.pend = s.pend) ∧
    ∃ w : Word, exec .rdStatus s = .next { s with rdata := some w } ∧ w.getLsbD 1 = decide (s.pend ≠ .none)

/-- FRAMES_DONE advances by exactly 1 in every frame step, and no other step advances it: it stays or becomes 0
(10_state R22, R39). -/
def Obligations.FramesDoneAdvancesByFrameStepsOnly : Prop :=
  ∀ s t : State, step s = .next t →
    (EngineTurn s → s.pend = .process → t.framesDone = s.framesDone + 1) ∧
    (¬ (EngineTurn s ∧ s.pend = .process) → t.framesDone = s.framesDone ∨ t.framesDone = 0)

/-- While a command is pending no step but RESET changes its operands: SR_IN, MAXBLK_IN, FRAME_COUNT and every word of the
input windows (20_memory R72, 46_host_bus R271). -/
def Obligations.PendingCommandKeepsItsOperands : Prop :=
  ∀ s t : State, step s = .next t → ¬ ResetTurn s → s.pend ≠ .none →
    t.srIn = s.srIn ∧ t.maxblkIn = s.maxblkIn ∧ t.frameCount = s.frameCount ∧
      ∀ c j, inputWord t c j = inputWord s c j

/-- The engine raises no error (60_exceptions R350, R370) and writes no host-interface register, no parameter and no input
word (10_state R21; 45_commands R247; 44_engine_frame R230); with PEND = NONE it does nothing (60_exceptions R369). The
model's own fields, the reset count, RDATA and the coming steps, stay as well (logs 3, 5 and 6). -/
def Obligations.EngineRaisesNoError : Prop :=
  ∀ s t : State, engineStep sine s = .next t →
    t.errors = s.errors ∧ t.params = s.params ∧ t.srIn = s.srIn ∧ t.maxblkIn = s.maxblkIn ∧
    t.frameCount = s.frameCount ∧ t.epoch = s.epoch ∧ t.rdata = s.rdata ∧ t.agenda = s.agenda ∧
    (∀ c j, inputWord t c j = inputWord s c j) ∧ (s.pend = .none → t = s)

/-! Reset -/

/-- At reset every register reads the value its row gives, STATUS reads 0, PEND = NONE, FCL = 0, and no word of a memory
has a value of its own (10_state R49). -/
def Obligations.ResetValuesOfEveryRegister : Prop :=
  (∀ i ∈ [Instr.rdCmd, .rdStatus, .rdSrIn, .rdMaxblkIn, .rdFrameCount, .rdDrywet, .rdDepth, .rdPhaseOffset,
      .rdFeedback, .rdType, .rdCfgSr, .rdCfgLen, .rdCfgMaxblk, .rdFramesDone, .rdWheadL, .rdWheadR, .rdLfoPhase,
      .rdFbL, .rdFbR],
    exec i State.reset = .next { State.reset with rdata := some 0x00000000#32 }) ∧
  exec .rdRate State.reset = .next { State.reset with rdata := some 0x3DCCCCCD#32 } ∧
  State.reset.configured = false ∧ State.reset.pend = .none ∧ State.reset.fcl = 0 ∧
  (∀ e, State.reset.errors.get e = false) ∧
  (∀ c, (State.reset.lane c).wh = 0 ∧ (State.reset.lane c).fb = 0x00000000#32) ∧
  State.reset.phase = 0x00000000#32 ∧
  ∀ c i, (State.reset.lane c).dl.read i = none ∧ (State.reset.lane c).ibuf.read i = none ∧
    (State.reset.lane c).obuf.read i = none

/-- RESET, asserted in any state, gives every piece of the spec's state its reset value, and every memory word a draw of
its own (70_reset_and_hazards R390). That the draws are numbered by a count of resets, that RDATA is cleared and that the
coming steps stay is the model's (logs 3, 6 and 8). -/
def Obligations.ResetEventRestoresTheResetState : Prop :=
  ∀ (s : State) (rest : List Event), s.agenda = .reset :: rest →
    ∃ t, step s = .next t ∧ { t with epoch := 0, agenda := [] } = State.reset ∧
      t.epoch = s.epoch + 1 ∧ t.agenda = rest ∧
      ∀ c i, delayWord t c i = Config.draw t.epoch (.delayRam c) i ∧
        inputWord t c i = Config.draw t.epoch (.inputWindow c) i ∧
        outputWord t c i = Config.draw t.epoch (.outputWindow c) i

/-! The engine -/

/-- CONFIG_EXEC: one engine step with everything it writes and nothing else, for every valid SR_IN and any MAXBLK_IN; the
length is the larger of 2 and ⌊2·SR_IN⌋, from 2 to 524288 (45_commands R247, R248). -/
def Obligations.ConfigurationStepEffect : Prop :=
  ∀ s : State, s.pend = .config → srValid s.srIn = true →
    ∃ t, engineStep sine s = .next t ∧
      t.cfgLen = max 2 (2 * magnitude s.srIn / 2 ^ 149) ∧ t.cfgLen = 2 * magnitude s.srIn / 2 ^ 149 ∧
      2 ≤ t.cfgLen ∧ t.cfgLen ≤ 524288 ∧
      t = { s with
            cfgSr := s.srIn, cfgLen := t.cfgLen, cfgMaxblk := min s.maxblkIn.toNat 4096,
            blkClamped := decide (4096 < s.maxblkIn.toNat),
            left := { s.left with dl := t.left.dl, wh := 0, fb := 0x00000000#32 },
            right := { s.right with dl := t.right.dl, wh := 0, fb := 0x00000000#32 },
            phase := 0x00000000#32, framesDone := 0, configured := true, pend := .none } ∧
      ∀ c i, delayWord t c i = if i < t.cfgLen then 0x00000000#32 else delayWord s c i

/-- A second CONFIGURE with the same operands and no PROCESS between changes nothing observable: after a configuration
step, CONFIGURE and its own step leave the state as it was (45_commands R249). (RDATA is the transaction's.) -/
def Obligations.ReconfigurationIsIdempotent : Prop :=
  ∀ s t : State, s.pend = .config → srValid s.srIn = true → engineStep sine s = .next t →
    ∃ u, exec .configure t = .next u ∧ engineStep sine u = .next { t with rdata := none }

/-- FRAME: one engine step computes, for both channels, exactly the words of the rule's pseudocode, and changes nothing
else. `sine` is the model's SINE (log 9). In a channel whose feedback value is a NaN when the frame starts the wet sample
is the canonical NaN whatever the words read hold, which is the model's reading of the "stuck" channel (log 21).
(44_engine_frame R230, R210; 93_implementation_defined I5.) -/
def Obligations.FrameStepComputesTheFrameRule : Prop :=
  ∀ s : State, Inv s → s.pend = .process → ∃ t phR,
    engineStep sine s = .next t ∧
    frac32 (add32 s.phase (clamp32 s.params.phaseOffset 0x00000000#32 Config.one)) = some phR ∧
    frac32 (add32 s.phase (div32 (clamp32 s.params.rate Config.rateMin Config.rateMax) s.cfgSr)) = some t.phase ∧
    t = { s with
          left := { s.left with dl := t.left.dl, wh := t.left.wh, fb := t.left.fb, obuf := t.left.obuf },
          right := { s.right with dl := t.right.dl, wh := t.right.wh, fb := t.right.fb, obuf := t.right.obuf },
          phase := t.phase, framesDone := s.framesDone + 1,
          pend := if s.framesDone + 1 = s.fcl then .none else .process } ∧
    ∀ c : Channel, ∃ n,
      let dw := clamp32 s.params.drywet 0x00000000#32 Config.one
      let dp := clamp32 s.params.depth 0x00000000#32 Config.one
      let fbc := clamp32 s.params.feedback 0x00000000#32 Config.fbMax
      let x := inputWord s c s.framesDone
      let m := mul32 (if c = .left then sine s.phase else sine phR) dp
      let dn := mul32 s.cfgSr (effectMap s.params.effect m)
      let p0 := sub32 (u2f32 (t.lane c).wh) dn
      let p1 := if lt32 p0 0x00000000#32 then add32 p0 (u2f32 s.cfgLen) else p0
      let frac := sub32 p1 (u2f32 n)
      let cur := if s.cfgLen ≤ n then n - s.cfgLen else n
      let nxt := if cur + 1 = s.cfgLen then 0 else cur + 1
      let wet := if isNaN (s.lane c).fb then 0x7FC00000#32
        else if eq32 frac 0x00000000#32 then delayWord t c cur
        else add32 (mul32 (sub32 Config.one frac) (delayWord t c cur)) (mul32 frac (delayWord t c nxt))
      let out := if eq32 dw 0x00000000#32 then x else if eq32 dw Config.one then wet
        else add32 (mul32 x (sub32 Config.one dw)) (mul32 wet dw)
      floorU p1 = some n ∧ cur < s.cfgLen ∧ nxt < s.cfgLen ∧
      (t.lane c).wh = (if (s.lane c).wh + 1 = s.cfgLen then 0 else (s.lane c).wh + 1) ∧
      (∀ i, delayWord t c i = if i = (s.lane c).wh then add32 x (s.lane c).fb else delayWord s c i) ∧
      (t.lane c).fb = mul32 wet fbc ∧
      ∀ j, outputWord t c j = if j = s.framesDone then out else outputWord s c j

/-- The two bypasses are bit for bit. At a fraction of ±0 the interpolator gives the current word, whatever the next holds; at
dry/wet ±0 the output is the input, whatever the wet sample is; at dry/wet 1 it is the wet sample; between, the blend of
R213 (43_fractional_reader R185, 44_engine_frame R214). So a frame whose DRYWET is ±0, negative or a NaN outputs its input (R201). -/
def Obligations.BypassesCopyBitForBit : Prop :=
  (∀ e c l (p : ReadPosition), eq32 p.frac 0x00000000#32 = true → p.cur < Config.dlDepth →
    interpolate e c l p = .ok (readOrDraw e (.delayRam c) l.dl p.cur)) ∧
  (∀ x wet dw, eq32 dw 0x00000000#32 = true → mix x wet dw = x) ∧
  (∀ x wet dw, eq32 dw 0x3F800000#32 = true → mix x wet dw = wet) ∧
  (∀ x wet dw, eq32 dw 0x00000000#32 = false → eq32 dw 0x3F800000#32 = false →
    mix x wet dw = add32 (mul32 x (sub32 0x3F800000#32 dw)) (mul32 wet dw)) ∧
  ∀ s t : State, s.pend = .process → engineStep sine s = .next t →
    (isNaN s.params.drywet = true ∨ le32 s.params.drywet 0x00000000#32 = true) →
    ∀ c, outputWord t c s.framesDone = inputWord s c s.framesDone

/-- Once FB[c] is a NaN, channel c stays poisoned until CONFIGURE or RESET. No other step makes FB[c] anything but a NaN, and
those two clear it to 0. Every frame step writes a NaN into the delay line and leaves a NaN in FB[c], both canonical; the wet output
is a NaN, so the output word is the canonical NaN unless DRYWET takes the dry bypass; the error bits stay. And FB[c]
becomes a NaN when the wet sample is a NaN, or an infinity at feedback ±0. That this holds for every delay length, against
the plain pseudocode of R230, is the model's reading (log 21). (44_engine_frame R210; 93_implementation_defined I5.) -/
def Obligations.PoisonedChannelStaysPoisonedUntilConfigure : Prop :=
  (∀ (s t : State) (c : Channel), isNaN (s.lane c).fb = true →
    (step s = .next t →
      (ResetTurn s ∨ (EngineTurn s ∧ s.pend = .config) → (t.lane c).fb = 0x00000000#32) ∧
      (¬ ResetTurn s → ¬ (EngineTurn s ∧ s.pend = .config) → isNaN (t.lane c).fb = true)) ∧
    (s.pend = .process → engineStep sine s = .next t →
      (t.lane c).fb = 0x7FC00000#32 ∧ delayWord t c (s.lane c).wh = 0x7FC00000#32 ∧
      outputWord t c s.framesDone =
        (if eq32 (clamp32 s.params.drywet 0x00000000#32 Config.one) 0x00000000#32 then inputWord s c s.framesDone
         else 0x7FC00000#32) ∧
      t.errors = s.errors)) ∧
  ∀ wet fbc : Word, (isNaN wet = true → feedbackUpdate wet fbc = 0x7FC00000#32) ∧
    (isInf wet = true → eq32 fbc 0x00000000#32 = true → feedbackUpdate wet fbc = 0x7FC00000#32)

/-- No value of one lane is read by the other: with the other lane replaced by any lane, a frame step leaves this lane, the
phase, FRAMES_DONE and PEND the same (44_engine_frame R216). -/
def Obligations.LanesDoNotAffectEachOther : Prop :=
  ∀ (s : State) (other : Lane) (t t' : State), s.pend = .process → engineStep sine s = .next t →
    (engineStep sine { s with right := other } = .next t' →
      t'.left = t.left ∧ t'.phase = t.phase ∧ t'.framesDone = t.framesDone ∧ t'.pend = t.pend) ∧
    (engineStep sine { s with left := other } = .next t' →
      t'.right = t.right ∧ t'.phase = t.phase ∧ t'.framesDone = t.framesDone ∧ t'.pend = t.pend)

/-- No look-ahead: two states that differ only in input words at index n and above stay so through any number of engine
steps that performs no frame beyond n − 1, so every output word and all engine state are the same
(70_reset_and_hazards R411). -/
def Obligations.OutputDoesNotDependOnLaterInput : Prop :=
  ∀ (n m : Nat) (s s' t : State), SameButLaterInputs n s s' → s.agenda = [] → s.framesDone + m ≤ n →
    Host.Core.run core m s = .next t →
    ∃ t' : State, Host.Core.run core m s' = .next t' ∧ SameButLaterInputs n t t'

/-- A block completes after exactly its remaining number of engine steps, staying pending until the last, and a
configuration after exactly one (70_reset_and_hazards R411, 45_commands R250). -/
def Obligations.BlockCompletesAfterItsFrames : Prop :=
  ∀ s : State, Inv s → s.agenda = [] →
    (s.pend = .process →
      (∀ m, m < s.fcl - s.framesDone →
        ∃ t : State, Host.Core.run core m s = .next t ∧ t.pend = .process ∧ t.framesDone = s.framesDone + m) ∧
      ∃ t : State, Host.Core.run core (s.fcl - s.framesDone) s = .next t ∧ t.pend = .none ∧ t.framesDone = s.fcl) ∧
    (s.pend = .config → ∃ t : State, Host.Core.run core 1 s = .next t ∧ t.pend = .none ∧ t.configured = true)

/-! Arithmetic and the datapath -/

/-- add32 and sub32 of finite words round the exact sum and difference once, to nearest: no finite word is nearer, and of
two equally near values the result is the even one; the result is finite exactly when the exact value is below the
overflow threshold, and at or above it is the infinity of the exact value's sign; an exact 0 is +0 unless both addends
are −0 (a − b adds −b). With one infinite operand, or two that do not cancel, the result is that infinity
(00_scope R9; signs and infinities as IEEE 754 has them, log 18). Units of 2^−149. -/
def Obligations.AdditionRoundsToNearestEven : Prop :=
  (∀ a b : Word, isFinite a = true → isFinite b = true →
    (let e := signedValue a + signedValue b
     (isFinite (add32 a b) = true ↔ e.natAbs < (2 ^ 25 - 1) * 2 ^ 252) ∧
     (isFinite (add32 a b) = false → add32 a b = if e < 0 then 0xFF800000#32 else 0x7F800000#32) ∧
     (e = 0 → add32 a b = if signBit a && signBit b then 0x80000000#32 else 0x00000000#32) ∧
     (isFinite (add32 a b) = true → ∀ x : Word, isFinite x = true →
       (signedValue (add32 a b) - e).natAbs ≤ (signedValue x - e).natAbs ∧
       ((signedValue (add32 a b) - e).natAbs = (signedValue x - e).natAbs → signedValue x ≠ signedValue (add32 a b) →
         (add32 a b).getLsbD 0 = false))) ∧
    (let e := signedValue a - signedValue b
     (isFinite (sub32 a b) = true ↔ e.natAbs < (2 ^ 25 - 1) * 2 ^ 252) ∧
     (isFinite (sub32 a b) = false → sub32 a b = if e < 0 then 0xFF800000#32 else 0x7F800000#32) ∧
     (e = 0 → sub32 a b = if signBit a && !signBit b then 0x80000000#32 else 0x00000000#32) ∧
     (isFinite (sub32 a b) = true → ∀ x : Word, isFinite x = true →
       (signedValue (sub32 a b) - e).natAbs ≤ (signedValue x - e).natAbs ∧
       ((signedValue (sub32 a b) - e).natAbs = (signedValue x - e).natAbs → signedValue x ≠ signedValue (sub32 a b) →
         (sub32 a b).getLsbD 0 = false)))) ∧
  ∀ a b : Word, isInf a = true →
    (isFinite b = true → add32 a b = a ∧ add32 b a = a ∧ sub32 a b = a ∧ sub32 b a = a ^^^ 0x80000000#32) ∧
    (isInf b = true → (signBit a = signBit b → add32 a b = a) ∧ (signBit a ≠ signBit b → sub32 a b = a))

/-- mul32 of finite words rounds the exact product once, to nearest, ties to even; it is finite exactly when the exact
product is below the overflow threshold, and an infinity at or above it; its sign, a zero's and an infinity's included, is
the exclusive or of the operands' signs. An infinity times anything but a zero or a NaN is the infinity of that sign
(00_scope R9; signs and infinities as IEEE 754 has them, log 18). The product of two magnitudes in units of 2^−149 is in
units of 2^−298. -/
def Obligations.MultiplicationRoundsToNearestEven : Prop :=
  (∀ a b : Word, isFinite a = true → isFinite b = true →
    let e := signedValue a * signedValue b
    let r := signedValue (mul32 a b) * 2 ^ 149
    (isFinite (mul32 a b) = true ↔ magnitude a * magnitude b < (2 ^ 25 - 1) * 2 ^ 252 * 2 ^ 149) ∧
    (isFinite (mul32 a b) = false → isInf (mul32 a b) = true) ∧
    signBit (mul32 a b) = (signBit a != signBit b) ∧
    (isFinite (mul32 a b) = true → ∀ x : Word, isFinite x = true →
      (r - e).natAbs ≤ (signedValue x * 2 ^ 149 - e).natAbs ∧
      ((r - e).natAbs = (signedValue x * 2 ^ 149 - e).natAbs → signedValue x ≠ signedValue (mul32 a b) →
        (mul32 a b).getLsbD 0 = false))) ∧
  ∀ a b : Word, isInf a = true → isNaN b = false → magnitude b ≠ 0 →
    let inf := if signBit a = signBit b then 0x7F800000#32 else 0xFF800000#32
    mul32 a b = inf ∧ mul32 b a = inf

/-- div32 of finite words, by a divisor that is not zero, rounds the exact quotient once, to nearest, ties to even; it is
finite exactly when the exact quotient is below the overflow threshold, and an infinity at or above it; its sign, a zero's
and an infinity's included, is the exclusive or of the operands' signs. An infinity by a finite word, and a finite word
that is not zero by a zero, is the infinity of that sign; a finite word by an infinity is the zero of that sign
(00_scope R9; signs and infinities as IEEE 754 has them, log 18). Distances to the quotient are compared after multiplying
by the divisor. -/
def Obligations.DivisionRoundsToNearestEven : Prop :=
  (∀ a b : Word, isFinite a = true → isFinite b = true → magnitude b ≠ 0 →
    let e := signedValue a * 2 ^ 149
    let r := signedValue (div32 a b) * signedValue b
    (isFinite (div32 a b) = true ↔ magnitude a * 2 ^ 149 < (2 ^ 25 - 1) * 2 ^ 252 * magnitude b) ∧
    (isFinite (div32 a b) = false → isInf (div32 a b) = true) ∧
    signBit (div32 a b) = (signBit a != signBit b) ∧
    (isFinite (div32 a b) = true → ∀ x : Word, isFinite x = true →
      (r - e).natAbs ≤ (signedValue x * signedValue b - e).natAbs ∧
      ((r - e).natAbs = (signedValue x * signedValue b - e).natAbs → signedValue x ≠ signedValue (div32 a b) →
        (div32 a b).getLsbD 0 = false))) ∧
  ∀ a b : Word,
    let inf := if signBit a = signBit b then 0x7F800000#32 else 0xFF800000#32
    (isInf a = true → isFinite b = true → div32 a b = inf) ∧
    (isFinite a = true → magnitude a ≠ 0 → magnitude b = 0 → div32 a b = inf) ∧
    (isFinite a = true → isInf b = true →
      div32 a b = if signBit a = signBit b then 0x00000000#32 else 0x80000000#32)

/-- A NaN operand gives the canonical NaN, so do the invalid operations ∞ − ∞, 0 × ∞, 0/0 and ∞/∞, and no operation gives
any other NaN (00_scope R10). -/
def Obligations.NaNResultsAreCanonical : Prop :=
  ∀ a b : Word,
    (isNaN a = true ∨ isNaN b = true →
      add32 a b = 0x7FC00000#32 ∧ sub32 a b = 0x7FC00000#32 ∧ mul32 a b = 0x7FC00000#32 ∧
        div32 a b = 0x7FC00000#32) ∧
    (isInf a = true → isInf b = true →
      div32 a b = 0x7FC00000#32 ∧
      (signBit a ≠ signBit b → add32 a b = 0x7FC00000#32) ∧ (signBit a = signBit b → sub32 a b = 0x7FC00000#32)) ∧
    (isInf a = true → magnitude b = 0 → mul32 a b = 0x7FC00000#32 ∧ mul32 b a = 0x7FC00000#32) ∧
    (magnitude a = 0 → magnitude b = 0 → div32 a b = 0x7FC00000#32) ∧
    (isNaN (add32 a b) = true → add32 a b = 0x7FC00000#32) ∧ (isNaN (sub32 a b) = true → sub32 a b = 0x7FC00000#32) ∧
    (isNaN (mul32 a b) = true → mul32 a b = 0x7FC00000#32) ∧ (isNaN (div32 a b) = true → div32 a b = 0x7FC00000#32)

/-- clamp32, for lo ≤ hi: its definition; a NaN and −∞ give lo, +∞ gives hi, a value in the range keeps its bits, and the
result is in the range (00_scope R13). -/
def Obligations.ClampKeepsTheRange : Prop :=
  ∀ x lo hi : Word, le32 lo hi = true →
    clamp32 x lo hi = (if ge32 x lo then (if le32 x hi then x else hi) else lo) ∧
    (isNaN x = true → clamp32 x lo hi = lo) ∧
    clamp32 0xFF800000#32 lo hi = lo ∧ clamp32 0x7F800000#32 lo hi = hi ∧
    (le32 lo x = true → le32 x hi = true → clamp32 x lo hi = x) ∧
    le32 lo (clamp32 x lo hi) = true ∧ le32 (clamp32 x lo hi) hi = true

/-- The phase stays in [0, 1), finite and not −0, through an advance at any clamped rate and any accepted sample rate, and
the right channel's phase too at any clamped offset (41_lfo R143, R144, R146). -/
def Obligations.PhaseStaysInOneTurn : Prop :=
  ∀ phase rt po sr : Word, phaseInTurn phase = true →
    (le32 Config.rateMin rt = true → le32 rt Config.rateMax = true → srValid sr = true →
      ∃ q, lfoAdvance phase rt sr = .ok q ∧ phaseInTurn q = true) ∧
    (le32 0x00000000#32 po = true → le32 po Config.one = true →
      ∃ q, frac32 (add32 phase po) = some q ∧ phaseInTurn q = true)

/-- MAP's formula, the table of its values, and: for every m in [−1, 1] the delay time is in the effect's range, and it does
not fall as m rises (42_effect_mapper R161, R163). -/
def Obligations.EffectMapTableRangeAndOrder : Prop :=
  (effectMap .chorus 0xBF800000#32 = 0x3BA3D70A#32 ∧ effectMap .chorus 0xBF000000#32 = 0x3C3851EB#32 ∧
   effectMap .chorus 0x00000000#32 = 0x3C8F5C28#32 ∧ effectMap .chorus 0x80000000#32 = 0x3C8F5C28#32 ∧
   effectMap .chorus 0x3F000000#32 = 0x3CC28F5C#32 ∧ effectMap .chorus 0x3F800000#32 = 0x3CF5C28E#32 ∧
   effectMap .chorus 0x3F3504F3#32 = 0x3CD7C48A#32 ∧
   effectMap .flanger 0xBF800000#32 = 0x3A83126F#32 ∧ effectMap .flanger 0xBF000000#32 = 0x3B03126E#32 ∧
   effectMap .flanger 0x00000000#32 = 0x3B449BA6#32 ∧ effectMap .flanger 0x80000000#32 = 0x3B449BA6#32 ∧
   effectMap .flanger 0x3F000000#32 = 0x3B83126E#32 ∧ effectMap .flanger 0x3F800000#32 = 0x3BA3D70A#32 ∧
   effectMap .flanger 0x3F3504F3#32 = 0x3B90A51B#32) ∧
  ∀ (ty : EffectType) (m m' : Word),
    effectMap ty m = add32 (lowEdge ty) (mul32 (mul32 (add32 m 0x3F800000#32) 0x3F000000#32) (edgeSpan ty)) ∧
    (le32 Config.minusOne m = true → le32 m Config.one = true →
      le32 (lowEdge ty) (effectMap ty m) = true ∧ le32 (effectMap ty m) (highEdge ty) = true) ∧
    (le32 Config.minusOne m = true → le32 m m' = true → le32 m' Config.one = true →
      le32 (effectMap ty m) (effectMap ty m') = true)

/-- With DEPTH clamped to ±0 the delay time is the middle of the range, whatever SINE gives (41_lfo R145,
42_effect_mapper R163). -/
def Obligations.DepthZeroGivesTheMidRangeDelay : Prop :=
  ∀ (ty : EffectType) (p dp : Word), eq32 dp 0x00000000#32 = true →
    effectMap ty (lfoScale (sine p) dp) = (if ty = .chorus then 0x3C8F5C28#32 else 0x3B449BA6#32)

/-- The read position exists and both indices are in [0, L) and different, for every write head in [0, L), every accepted
sample rate with its length, and every oscillator value in [−1, 1] (43_fractional_reader R181 to R184). -/
def Obligations.ReadPositionIsInRange : Prop :=
  ∀ (sr m : Word) (ty : EffectType) (wh len : Nat), srValid sr = true → delayLength sr = .ok len → wh < len →
    le32 Config.minusOne m = true → le32 m Config.one = true →
    ∃ p, readPosition wh (delaySamples sr ty m) len = .ok p ∧ p.cur < len ∧ p.nxt < len ∧ p.cur ≠ p.nxt

/-- SINE has S1 and S2 (41_lfo R141): finite and in [−1, 1] at every phase, and exact at the four quarter turns. Elsewhere
it is the implementation's free choice (log 9). -/
def Obligations.SineHasItsRequiredProperties : Prop :=
  (∀ p, isFinite (sine p) = true ∧ le32 0xBF800000#32 (sine p) = true ∧ le32 (sine p) 0x3F800000#32 = true) ∧
  sine 0x00000000#32 = 0x00000000#32 ∧ sine 0x3E800000#32 = 0x3F800000#32 ∧
  sine 0x3F000000#32 = 0x00000000#32 ∧ sine 0x3F400000#32 = 0xBF800000#32

/-- Expected to FAIL. The stability claim of 44_engine_frame R233 as it stands, for each channel and every bound: with
silent input and finite words in that channel, whatever the other holds, none of its delay words and not its feedback value
ever exceeds the peak they had. In the subnormal range the rounding of
the interpolation is not small against the peak: two words of 3 units give a wet sample of 4 units at fraction 1/2, and a
feedback value of 4 units at FB_MAX (log 19). -/
def Obligations.PeakNeverGrowsInSilence : Prop :=
  ∀ (s t : State) (c : Channel) (bound : Nat), Inv s → s.pend = .process → SilentInput s c → WithinPeak s c bound →
    engineStep sine s = .next t → WithinPeak t c bound

/-- The stability claim of 44_engine_frame R233, for each channel by itself, for every peak from 64 units of 2^−149 up to 2^276 (half the largest
magnitude). The two limits are the model's finding, not the spec's (log 19). -/
def Obligations.PeakNeverGrowsInSilenceAboveTheSubnormals : Prop :=
  ∀ (s t : State) (c : Channel) (bound : Nat), Inv s → s.pend = .process → SilentInput s c → WithinPeak s c bound →
    64 ≤ bound → bound ≤ 2 ^ 276 → engineStep sine s = .next t → WithinPeak t c bound

/-! The invariant -/

/-- The invariant holds right after reset (10_state R48, R49). -/
def Obligations.InvariantAfterReset : Prop := Inv State.reset

/-- Every step of every agent keeps the invariant: 0 ≤ WH[0] = WH[1] < L, 0 ≤ PHASE < 1 and not −0, 2 ≤ L ≤ DL_DEPTH,
FRAMES_DONE < FCL ≤ CFG_MAXBLK ≤ BLOCK_CAP during a block, PEND ≠ PROCESS while Unconfigured, the memories in canonical
form (10_state R48, 44_engine_frame R200, 70_reset_and_hazards R393). -/
def Obligations.EveryStepKeepsTheInvariant : Prop :=
  ∀ s t : State, Inv s → step s = .next t → Inv t

/-- Totality: from a state of the invariant every step answers a next state; no computation leaves its domain and no index
its range (44_engine_frame R234). -/
def Obligations.EveryStepOfTheInvariantCompletes : Prop :=
  ∀ s : State, Inv s → ∃ t, step s = .next t
end

