-- ==== Sys2Proof/Laws/Binary32.lean ====
section
/-! SUPPORT. The laws of binary32 rounding: it is monotonic, exact on what binary32 represents, and its result is read back
by magnitude and sign. -/

namespace Sys2Proof.Machine

/-- The magnitude encoded by bits 30:0, in units of 2^−149. -/
def magnitudeOfBits (b : Nat) : Nat := if b < 2 ^ 23 then b else (2 ^ 23 + b % 2 ^ 23) * 2 ^ (b / 2 ^ 23 - 1)

/-- The bits 30:0 of a word. -/
def bitsOf (x : Word) : Nat := x.toNat % 2 ^ 31

theorem exponentField_eq (x : Word) : exponentField x = bitsOf x / 2 ^ 23 := by
  unfold exponentField bitsOf
  have h := x.isLt
  simp only [BitVec.extractLsb'_toNat, Nat.shiftRight_eq_div_pow]
  omega

theorem fractionField_eq (x : Word) : fractionField x = bitsOf x % 2 ^ 23 := by
  unfold fractionField bitsOf
  simp only [BitVec.extractLsb'_toNat, Nat.shiftRight_eq_div_pow]
  omega

theorem bitsOf_lt (x : Word) : bitsOf x < 2 ^ 31 := Nat.mod_lt _ (by norm_num)

theorem magnitude_eq (x : Word) : magnitude x = magnitudeOfBits (bitsOf x) := by
  unfold magnitude magnitudeOfBits
  rw [exponentField_eq, fractionField_eq]
  have h := bitsOf_lt x
  by_cases hb : bitsOf x < 2 ^ 23
  · rw [if_pos hb, if_pos (by omega)]
    omega
  · rw [if_neg hb, if_neg (by omega)]

theorem isFinite_iff (x : Word) : isFinite x = true ↔ bitsOf x < 0x7F800000 := by
  unfold isFinite
  rw [exponentField_eq]
  have h := bitsOf_lt x
  simp only [bne_iff_ne, ne_eq]
  omega

theorem isNaN_iff (x : Word) : isNaN x = true ↔ 0x7F800000 < bitsOf x := by
  unfold isNaN
  rw [exponentField_eq, fractionField_eq]
  have h := bitsOf_lt x
  simp only [Bool.and_eq_true, beq_iff_eq, bne_iff_ne, ne_eq]
  omega

theorem isInf_iff (x : Word) : isInf x = true ↔ bitsOf x = 0x7F800000 := by
  unfold isInf
  rw [exponentField_eq, fractionField_eq]
  have h := bitsOf_lt x
  simp only [Bool.and_eq_true, beq_iff_eq]
  omega

theorem signBit_iff (x : Word) : signBit x = true ↔ 2 ^ 31 ≤ x.toNat := by
  unfold signBit
  rw [BitVec.msb_eq_decide]
  simp

@[simp] theorem bitsOf_packWord {negative : Bool} {b : Nat} (h : b < 2 ^ 31) : bitsOf (packWord negative b) = b := by
  unfold bitsOf packWord
  rw [BitVec.toNat_append]
  simp only [BitVec.toNat_ofNat, Nat.mod_eq_of_lt h]
  rw [← Nat.shiftLeft_add_eq_or_of_lt h, Nat.shiftLeft_eq]
  omega

@[simp] theorem signBit_packWord {negative : Bool} {b : Nat} (h : b < 2 ^ 31) :
    signBit (packWord negative b) = negative := by
  rw [Bool.eq_iff_iff, signBit_iff]
  unfold packWord
  rw [BitVec.toNat_append]
  simp only [BitVec.toNat_ofNat, Nat.mod_eq_of_lt h]
  rw [← Nat.shiftLeft_add_eq_or_of_lt h, Nat.shiftLeft_eq]
  cases negative
  · simp
    omega
  · simp

/-- A word is its sign and its bits 30:0. -/
theorem packWord_bitsOf (x : Word) : packWord (signBit x) (bitsOf x) = x := by
  apply BitVec.eq_of_toNat_eq
  have hb := bitsOf_lt x
  have hx := x.isLt
  unfold packWord
  rw [BitVec.toNat_append]
  simp only [BitVec.toNat_ofNat, Nat.mod_eq_of_lt hb]
  rw [← Nat.shiftLeft_add_eq_or_of_lt hb, Nat.shiftLeft_eq]
  have hs := signBit_iff x
  unfold bitsOf
  cases h : signBit x
  · rw [h] at hs
    simp at hs ⊢
    omega
  · rw [h] at hs
    simp at hs ⊢
    omega

theorem magnitudeOfBits_add (k n : Nat) (h : k = 0 ∨ 2 ^ 23 ≤ n) (hn : n ≤ 2 ^ 24) :
    magnitudeOfBits (k * 2 ^ 23 + n) = n * 2 ^ k := by
  unfold magnitudeOfBits
  rcases Nat.lt_or_ge n (2 ^ 23) with h1 | h1
  · obtain rfl : k = 0 := by omega
    rw [if_pos (by omega)]
    omega
  · rw [if_neg (by omega)]
    rcases Nat.lt_or_ge n (2 ^ 24) with h2 | h2
    · have e1 : (k * 2 ^ 23 + n) % 2 ^ 23 = n - 2 ^ 23 := by omega
      have e2 : (k * 2 ^ 23 + n) / 2 ^ 23 - 1 = k := by omega
      rw [e1, e2, Nat.add_sub_cancel' h1]
    · have e1 : (k * 2 ^ 23 + n) % 2 ^ 23 = 0 := by omega
      have e2 : (k * 2 ^ 23 + n) / 2 ^ 23 - 1 = k + 1 := by omega
      have e3 : n = 2 ^ 24 := by omega
      rw [e1, e2, e3, pow_succ]
      omega

/-- The encoding orders magnitudes. -/
theorem magnitudeOfBits_strictMono : StrictMono magnitudeOfBits := by
  apply strictMono_nat_of_lt_succ
  intro b
  rcases Nat.lt_or_ge b (2 ^ 23) with h | h
  · have e1 : magnitudeOfBits b = b := if_pos h
    have e2 : magnitudeOfBits (b + 1) = b + 1 := by
      have := magnitudeOfBits_add 0 (b + 1) (.inl rfl) (by omega)
      simpa using this
    omega
  · obtain ⟨k, n, hb, h1, h2⟩ : ∃ k n, b = k * 2 ^ 23 + n ∧ 2 ^ 23 ≤ n ∧ n < 2 ^ 24 :=
      ⟨b / 2 ^ 23 - 1, b % 2 ^ 23 + 2 ^ 23, by omega, by omega, by omega⟩
    subst hb
    rw [magnitudeOfBits_add k n (.inr h1) (by omega), add_assoc,
      magnitudeOfBits_add k (n + 1) (.inr (by omega)) (by omega)]
    exact Nat.mul_lt_mul_of_pos_right (by omega) (by positivity)

theorem magnitudeOfBits_le_iff {a b : Nat} : magnitudeOfBits a ≤ magnitudeOfBits b ↔ a ≤ b :=
  magnitudeOfBits_strictMono.le_iff_le

theorem magnitudeOfBits_lt_iff {a b : Nat} : magnitudeOfBits a < magnitudeOfBits b ↔ a < b :=
  magnitudeOfBits_strictMono.lt_iff_lt

/-- Rounding to the nearest integer is monotonic in the quotient. -/
theorem divNearestEven_mono {a b a' b' : Nat} (hb : 0 < b) (hb' : 0 < b') (h : a * b' ≤ a' * b) :
    divNearestEven a b ≤ divNearestEven a' b' := by
  have ea := Nat.div_add_mod a b
  have ea' := Nat.div_add_mod a' b'
  have hr := Nat.mod_lt a hb
  have hr' := Nat.mod_lt a' hb'
  have hq : a / b ≤ a' / b' := by
    rw [Nat.le_div_iff_mul_le hb']
    have h1 : a / b * b ≤ a := Nat.div_mul_le_self a b
    have h2 : (a / b * b') * b ≤ a' * b := by nlinarith
    exact Nat.le_of_mul_le_mul_right h2 hb
  unfold divNearestEven
  generalize a / b = q at *
  generalize a % b = r at *
  generalize a' / b' = q' at *
  generalize a' % b' = r' at *
  dsimp only
  rcases Nat.lt_or_ge q q' with hlt | hge
  · split <;> split <;> omega
  · obtain rfl : q = q' := by omega
    have hrr : r * b' ≤ r' * b := by
      subst ea
      subst ea'
      nlinarith
    split
    · rename_i hc
      rw [if_pos]
      rcases hc with hc | ⟨hc, hodd⟩
      · left
        by_contra hn
        have : 2 * r' ≤ b' := by omega
        nlinarith
      · rcases Nat.lt_trichotomy (2 * r') b' with h3 | h3 | h3
        · exfalso
          nlinarith
        · exact .inr ⟨h3, hodd⟩
        · exact .inl h3
    · split <;> omega

/-- An integer quotient is not rounded. -/
theorem divNearestEven_exact (n : Nat) {b : Nat} (hb : 0 < b) : divNearestEven (n * b) b = n := by
  unfold divNearestEven
  simp only [Nat.mul_div_cancel _ hb, Nat.mul_mod_left]
  rw [if_neg (by omega)]

/-- The rounded quotient is within half a unit. -/
theorem divNearestEven_near {a b : Nat} (hb : 0 < b) :
    2 * a ≤ (2 * divNearestEven a b + 1) * b ∧ 2 * divNearestEven a b * b ≤ 2 * a + b := by
  have ea := Nat.div_add_mod a b
  have hr := Nat.mod_lt a hb
  unfold divNearestEven
  generalize a / b = q at *
  generalize a % b = r at *
  dsimp only
  subst ea
  split
  · rename_i hc
    constructor <;> rcases hc with hc | ⟨hc, -⟩ <;> nlinarith
  · rename_i hc
    have h2 : 2 * r ≤ b := by omega
    constructor <;> nlinarith

/-- The exponent of the unit in the last place that rounding uses. -/
def unitExponent (num den : Nat) : Nat := Nat.log2 (num / den) - 23

theorem roundMagnitude_eq (num den : Nat) : roundMagnitude num den =
    min (unitExponent num den * 2 ^ 23 + divNearestEven num (den * 2 ^ unitExponent num den)) 0x7F800000 := rfl

theorem unitExponent_spec (num den : Nat) :
    (unitExponent num den = 0 ∧ num / den < 2 ^ 24) ∨
      (2 ^ (unitExponent num den + 23) ≤ num / den ∧ num / den < 2 ^ (unitExponent num den + 24)) := by
  unfold unitExponent
  by_cases hq : num / den = 0
  · left
    simp [hq]
  · have h1 := Nat.log2_self_le hq
    have h2 : num / den < 2 ^ (Nat.log2 (num / den) + 1) := Nat.lt_log2_self
    rcases Nat.lt_or_ge (Nat.log2 (num / den)) 23 with h | h
    · left
      refine ⟨by omega, lt_of_lt_of_le h2 ?_⟩
      exact Nat.pow_le_pow_right (by norm_num) (by omega)
    · right
      have e1 : Nat.log2 (num / den) - 23 + 23 = Nat.log2 (num / den) := by omega
      have e2 : Nat.log2 (num / den) - 23 + 24 = Nat.log2 (num / den) + 1 := by omega
      rw [e1, e2]
      exact ⟨h1, h2⟩

/-- The significand that rounding produces: at most 2^24, and normal unless the unit is 2^−149. -/
theorem significand_bounds {num den : Nat} (hd : 0 < den) :
    (unitExponent num den = 0 ∨ 2 ^ 23 ≤ divNearestEven num (den * 2 ^ unitExponent num den)) ∧
      divNearestEven num (den * 2 ^ unitExponent num den) ≤ 2 ^ 24 := by
  have hs := unitExponent_spec num den
  generalize unitExponent num den = k at *
  have hp : 0 < den * 2 ^ k := by positivity
  have hup : num / den < 2 ^ (k + 24) := by
    rcases hs with ⟨rfl, h⟩ | ⟨-, h⟩
    · simpa using h
    · exact h
  constructor
  · rcases hs with ⟨h, -⟩ | ⟨h, -⟩
    · exact .inl h
    · right
      have hn : 2 ^ (k + 23) * den ≤ num := (Nat.le_div_iff_mul_le hd).1 h
      have := divNearestEven_mono (a := 2 ^ 23 * (den * 2 ^ k)) (a' := num) hp hp
        (Nat.mul_le_mul_right _ (by rw [pow_add] at hn; nlinarith))
      rwa [divNearestEven_exact _ hp] at this
  · have hn : num < 2 ^ (k + 24) * den := (Nat.div_lt_iff_lt_mul hd).1 hup
    have := divNearestEven_mono (a := num) (a' := 2 ^ 24 * (den * 2 ^ k)) hp hp
      (Nat.mul_le_mul_right _ (by rw [pow_add] at hn; nlinarith))
    rwa [divNearestEven_exact _ hp] at this

theorem unitExponent_mono {n d n' d' : Nat} (hd : 0 < d) (hd' : 0 < d') (h : n * d' ≤ n' * d) :
    unitExponent n d ≤ unitExponent n' d' := by
  have hq : n / d ≤ n' / d' := by
    rw [Nat.le_div_iff_mul_le hd']
    have h1 : n / d * d ≤ n := Nat.div_mul_le_self n d
    have h2 : (n / d * d') * d ≤ n' * d := by nlinarith
    exact Nat.le_of_mul_le_mul_right h2 hd
  unfold unitExponent
  have : Nat.log2 (n / d) ≤ Nat.log2 (n' / d') := by
    simp only [Nat.log2_eq_log_two]
    exact Nat.log_mono_right hq
  omega

/-- Rounding is monotonic. -/
theorem roundMagnitude_mono {n d n' d' : Nat} (hd : 0 < d) (hd' : 0 < d') (h : n * d' ≤ n' * d) :
    roundMagnitude n d ≤ roundMagnitude n' d' := by
  rw [roundMagnitude_eq, roundMagnitude_eq]
  refine min_le_min_right _ ?_
  have hk := unitExponent_mono hd hd' h
  have b1 := significand_bounds (num := n) hd
  have b2 := significand_bounds (num := n') hd'
  rcases Nat.lt_or_ge (unitExponent n d) (unitExponent n' d') with hlt | hge
  · have h1 := b1.2
    have h2 : 2 ^ 23 ≤ divNearestEven n' (d' * 2 ^ unitExponent n' d') := by
      rcases b2.1 with h0 | h0
      · omega
      · exact h0
    generalize divNearestEven n (d * 2 ^ unitExponent n d) = x at *
    generalize divNearestEven n' (d' * 2 ^ unitExponent n' d') = y at *
    omega
  · have he : unitExponent n d = unitExponent n' d' := by omega
    rw [he]
    have := divNearestEven_mono (a := n) (b := d * 2 ^ unitExponent n' d') (a' := n')
      (b' := d' * 2 ^ unitExponent n' d') (by positivity) (by positivity)
      (by
        have := Nat.mul_le_mul_right (2 ^ unitExponent n' d') h
        nlinarith)
    omega

/-- What binary32 represents is not rounded. -/
theorem roundMagnitude_exact {b d : Nat} (hd : 0 < d) (hb : b ≤ 0x7F800000) :
    roundMagnitude (magnitudeOfBits b * d) d = b := by
  rw [roundMagnitude_eq]
  have hdiv : magnitudeOfBits b * d / d = magnitudeOfBits b := Nat.mul_div_cancel _ hd
  obtain ⟨k, n, he, h1, h2⟩ : ∃ k n, b = k * 2 ^ 23 + n ∧ (k = 0 ∨ 2 ^ 23 ≤ n) ∧ n < 2 ^ 24 := by
    rcases Nat.lt_or_ge b (2 ^ 23) with h | h
    · exact ⟨0, b, by omega, .inl rfl, by omega⟩
    · exact ⟨b / 2 ^ 23 - 1, b % 2 ^ 23 + 2 ^ 23, by omega, .inr (by omega), by omega⟩
  have hm : magnitudeOfBits b = n * 2 ^ k := by
    rw [he]
    exact magnitudeOfBits_add k n h1 (by omega)
  have hk : unitExponent (magnitudeOfBits b * d) d = k := by
    unfold unitExponent
    rw [hdiv, hm]
    rcases h1 with rfl | h1
    · have : Nat.log2 (n * 2 ^ 0) < 24 := by
        rcases Nat.eq_zero_or_pos n with rfl | hn
        · simp
        · rw [Nat.log2_lt (by omega)]
          simpa using h2
      omega
    · have hne : n * 2 ^ k ≠ 0 := by positivity
      have l1 : Nat.log2 (n * 2 ^ k) < k + 24 := by
        rw [Nat.log2_lt hne, pow_add, mul_comm]
        exact Nat.mul_lt_mul_of_pos_left h2 (by positivity)
      have l2 : k + 23 ≤ Nat.log2 (n * 2 ^ k) := by
        rw [Nat.le_log2 hne, pow_add, mul_comm]
        exact Nat.mul_le_mul_right _ h1
      omega
  rw [hk, hm, mul_assoc, mul_comm (2 ^ k) d, divNearestEven_exact n (by positivity)]
  omega

theorem roundMagnitude_le (num den : Nat) : roundMagnitude num den ≤ 0x7F800000 := min_le_right _ _

theorem roundMagnitude_lt (num den : Nat) : roundMagnitude num den < 2 ^ 31 :=
  lt_of_le_of_lt (roundMagnitude_le num den) (by norm_num)

@[simp] theorem signBit_roundRational (negative : Bool) (num den : Nat) :
    signBit (roundRational negative num den) = negative := signBit_packWord (roundMagnitude_lt num den)

@[simp] theorem bitsOf_roundRational (negative : Bool) (num den : Nat) :
    bitsOf (roundRational negative num den) = roundMagnitude num den := bitsOf_packWord (roundMagnitude_lt num den)

@[simp] theorem magnitude_roundRational (negative : Bool) (num den : Nat) :
    magnitude (roundRational negative num den) = magnitudeOfBits (roundMagnitude num den) := by
  rw [magnitude_eq, bitsOf_roundRational]

/-- A rounded value is never a NaN. -/
@[simp] theorem isNaN_roundRational (negative : Bool) (num den : Nat) : isNaN (roundRational negative num den) = false := by
  rw [Bool.eq_false_iff, ne_eq, isNaN_iff, bitsOf_roundRational]
  have := roundMagnitude_le num den
  omega

/-- A value at most a word's magnitude rounds to at most it. -/
theorem roundRational_le {negative : Bool} {num den : Nat} {x : Word} (hd : 0 < den) (hx : isFinite x = true)
    (h : num ≤ magnitude x * den) : magnitude (roundRational negative num den) ≤ magnitude x := by
  rw [magnitude_roundRational, magnitude_eq x, magnitudeOfBits_le_iff]
  rw [magnitude_eq] at h
  have hb := (isFinite_iff x).1 hx
  have := roundMagnitude_mono (n := num) (n' := magnitudeOfBits (bitsOf x) * den) hd hd (Nat.mul_le_mul_right _ h)
  rwa [roundMagnitude_exact hd (by omega)] at this

/-- A value at least a word's magnitude rounds to at least it. -/
theorem le_roundRational {negative : Bool} {num den : Nat} {x : Word} (hd : 0 < den) (hx : isFinite x = true)
    (h : magnitude x * den ≤ num) : magnitude x ≤ magnitude (roundRational negative num den) := by
  rw [magnitude_roundRational, magnitude_eq x, magnitudeOfBits_le_iff]
  rw [magnitude_eq] at h
  have hb := (isFinite_iff x).1 hx
  have := roundMagnitude_mono (n' := num) (n := magnitudeOfBits (bitsOf x) * den) hd hd (Nat.mul_le_mul_right _ h)
  rwa [roundMagnitude_exact hd (by omega)] at this

/-- A value that is a word's magnitude rounds to it. -/
theorem roundRational_exact {negative : Bool} {num den : Nat} {x : Word} (hd : 0 < den) (hx : isFinite x = true)
    (h : num = magnitude x * den) : roundRational negative num den = packWord negative (bitsOf x) := by
  unfold roundRational
  rw [h, magnitude_eq, roundMagnitude_exact hd (by have := (isFinite_iff x).1 hx; omega)]

/-- A rounded value that some finite word bounds is finite. -/
theorem isFinite_roundRational {negative : Bool} {num den : Nat} {x : Word} (hd : 0 < den) (hx : isFinite x = true)
    (h : num ≤ magnitude x * den) : isFinite (roundRational negative num den) = true := by
  have hle := roundRational_le (negative := negative) hd hx h
  rw [magnitude_eq, magnitude_eq, magnitudeOfBits_le_iff] at hle
  rw [isFinite_iff] at hx ⊢
  omega

theorem isNaN_of_isFinite {x : Word} (h : isFinite x = true) : isNaN x = false := by
  rw [Bool.eq_false_iff, ne_eq, isNaN_iff]
  have := (isFinite_iff x).1 h
  omega

theorem isInf_of_isFinite {x : Word} (h : isFinite x = true) : isInf x = false := by
  rw [Bool.eq_false_iff, ne_eq, isInf_iff]
  have := (isFinite_iff x).1 h
  omega

theorem natAbs_signedValue (x : Word) : (signedValue x).natAbs = magnitude x := by
  unfold signedValue
  split <;> simp

@[simp] theorem signedValue_roundRational (negative : Bool) (num den : Nat) :
    signedValue (roundRational negative num den) =
      if negative then -(magnitudeOfBits (roundMagnitude num den) : Int)
      else (magnitudeOfBits (roundMagnitude num den) : Int) := by
  unfold signedValue
  rw [signBit_roundRational, magnitude_roundRational]

/-- The sum of two finite words (00_scope R9). -/
theorem add32_of_finite {a b : Word} (ha : isFinite a = true) (hb : isFinite b = true) :
    add32 a b =
      if signedValue a + signedValue b = 0 then packWord (signBit a && signBit b) 0
      else roundRational (decide (signedValue a + signedValue b < 0)) (signedValue a + signedValue b).natAbs 1 := by
  unfold add32
  simp [isNaN_of_isFinite ha, isNaN_of_isFinite hb, isInf_of_isFinite ha, isInf_of_isFinite hb]

/-- The product of two finite words (00_scope R9). -/
theorem mul32_of_finite {a b : Word} (ha : isFinite a = true) (hb : isFinite b = true) :
    mul32 a b = roundRational (signBit a != signBit b) (magnitude a * magnitude b) (2 ^ 149) := by
  unfold mul32
  simp [isNaN_of_isFinite ha, isNaN_of_isFinite hb, isInf_of_isFinite ha, isInf_of_isFinite hb]

/-- A sum that binary32 represents is exact. -/
theorem signedValue_add32_exact {a b x : Word} (ha : isFinite a = true) (hb : isFinite b = true)
    (hx : isFinite x = true) (h : (signedValue a + signedValue b).natAbs = magnitude x) :
    signedValue (add32 a b) = signedValue a + signedValue b := by
  rw [add32_of_finite ha hb]
  split
  · rename_i h0
    rw [h0]
    unfold signedValue
    rw [magnitude_eq, bitsOf_packWord (by norm_num)]
    simp [magnitudeOfBits]
  · have hm : roundMagnitude (signedValue a + signedValue b).natAbs 1 = bitsOf x := by
      rw [h, magnitude_eq]
      have hb := (isFinite_iff x).1 hx
      simpa using roundMagnitude_exact (b := bitsOf x) (d := 1) (by norm_num) (by omega)
    rw [signedValue_roundRational, hm, ← magnitude_eq, ← h]
    split
    · rename_i hlt
      have := of_decide_eq_true hlt
      omega
    · rename_i hlt
      have : ¬ signedValue a + signedValue b < 0 := by simpa using hlt
      omega

/-- NaN results are the canonical NaN, and NaN operands give it (00_scope R10). -/
theorem add32_nan {a b : Word} (h : isNaN a = true ∨ isNaN b = true) : add32 a b = Config.cnan := by
  unfold add32
  rw [if_pos (by simpa using h)]

theorem mul32_nan {a b : Word} (h : isNaN a = true ∨ isNaN b = true) : mul32 a b = Config.cnan := by
  unfold mul32
  rw [if_pos (by simpa using h)]

end Sys2Proof.Machine
end

