-- ==== Sys2Proof/Laws/Decode.lean ====
section
/-! SUPPORT. When a descriptor selects a given row of the opcode table (30_encoding R95): two rows that both test a bit, with
different values, never match the same descriptor. -/

namespace Sys2Proof

/-- A descriptor that matches one row does not match a row that disagrees with it on a bit both test. -/
theorem row_mismatch {ht m v m' v' : Descriptor} (h : ht &&& m = v) (hd : (v ^^^ v') &&& (m &&& m') ≠ 0#20) :
    (ht &&& m' == v') = false := by
  rw [beq_eq_false_iff_ne]
  intro h'
  apply hd
  subst h h'
  ext i hi
  simp
  cases ht[i] <;> cases m[i] <;> cases m'[i] <;> decide

/-- The first matching row is selected. -/
theorem decodeHT_of_first {ht : Descriptor} {v : Word} {pre post : List HtRow} {r : HtRow}
    (hrows : htRows = pre ++ r :: post) (hpre : ∀ r' ∈ pre, (ht &&& r'.mask == r'.value) = false)
    (hr : ht &&& r.mask = r.value) : decodeHT ht v = r.build ht v := by
  have hfind : htRows.find? (fun r => ht &&& r.mask == r.value) = some r := by
    rw [hrows, List.find?_append, List.find?_eq_none.2 (by simpa using hpre)]
    simp [hr]
  simp [decodeHT, hfind]

/-- Row `n` is selected by every descriptor that matches it, where it disagrees with every earlier row. -/
theorem decodeHT_row {ht : Descriptor} {v : Word} (n : Nat) {r : HtRow} (hn : htRows[n]? = some r)
    (hd : (htRows.take n).all (fun r' => (r.value ^^^ r'.value) &&& (r.mask &&& r'.mask) != 0#20) = true)
    (h : ht &&& r.mask = r.value) : decodeHT ht v = r.build ht v := by
  obtain ⟨hlt, rfl⟩ := List.getElem?_eq_some_iff.1 hn
  refine decodeHT_of_first (pre := htRows.take n) (post := htRows.drop (n + 1)) ?_ ?_ h
  · rw [← List.drop_eq_getElem_cons hlt, List.take_append_drop]
  · intro r' hr'
    have := List.all_eq_true.1 hd r' hr'
    exact row_mismatch h (by simpa using this)

/-- With no row matching, a read or write is a bus error. -/
theorem decodeHT_of_none {ht : Descriptor} {v : Word} (h : ∀ r ∈ htRows, (ht &&& r.mask == r.value) = false) :
    decodeHT ht v = decodeBusError ht v := by
  have hfind : htRows.find? (fun r => ht &&& r.mask == r.value) = none := List.find?_eq_none.2 (by simpa using h)
  simp [decodeHT, hfind]

end Sys2Proof
end

