-- ==== Sys2Proof/Laws/Memory.lean ====
section
/-! SUPPORT. The memory laws: what a read after a write or a zero fill gives, and that every operation keeps the canonical
form. -/

namespace Sys2Proof.Machine

@[simp] theorem lookupCell_insertCell_same (cells : List (Nat × Word)) (i : Nat) (v : Word) :
    lookupCell (insertCell cells i v) i = some v := by
  induction cells with
  | nil => simp [insertCell, lookupCell]
  | cons c rest ih =>
    obtain ⟨j, w⟩ := c
    unfold insertCell
    split
    · simp [lookupCell]
    · split
      · simp [lookupCell]
      · rename_i h
        simp [lookupCell, Ne.symm h, ih]

theorem lookupCell_insertCell_other (cells : List (Nat × Word)) {i j : Nat} (v : Word) (h : j ≠ i) :
    lookupCell (insertCell cells i v) j = lookupCell cells j := by
  induction cells with
  | nil => simp [insertCell, lookupCell, Ne.symm h]
  | cons c rest ih =>
    obtain ⟨l, w⟩ := c
    unfold insertCell
    split
    · simp [lookupCell, Ne.symm h]
    · split
      · rename_i h2
        subst h2
        simp [lookupCell, Ne.symm h]
      · simp only [lookupCell, ih]

@[simp] theorem lookupCell_eraseCell_same (cells : List (Nat × Word)) (i : Nat) :
    lookupCell (eraseCell cells i) i = none := by
  induction cells with
  | nil => rfl
  | cons c rest ih =>
    obtain ⟨j, w⟩ := c
    unfold eraseCell
    split
    · exact ih
    · rename_i h
      simp [lookupCell, h, ih]

theorem lookupCell_eraseCell_other (cells : List (Nat × Word)) {i j : Nat} (h : j ≠ i) :
    lookupCell (eraseCell cells i) j = lookupCell cells j := by
  induction cells with
  | nil => rfl
  | cons c rest ih =>
    obtain ⟨l, w⟩ := c
    unfold eraseCell
    split
    · rename_i h2
      subst h2
      simp [lookupCell, Ne.symm h, ih]
    · simp only [lookupCell, ih]

theorem lookupCell_filter_ge (cells : List (Nat × Word)) (n i : Nat) :
    lookupCell (cells.filter fun c => decide (n ≤ c.1)) i = if n ≤ i then lookupCell cells i else none := by
  induction cells with
  | nil => simp [lookupCell]
  | cons c rest ih =>
    obtain ⟨j, w⟩ := c
    by_cases hj : n ≤ j
    · simp only [List.filter_cons, hj, decide_true, if_true, lookupCell, ih]
      by_cases hji : j = i
      · subst hji
        simp [hj]
      · simp [hji]
    · simp only [List.filter_cons, hj, decide_false, Bool.false_eq_true, if_false, ih, lookupCell]
      by_cases hji : j = i
      · subst hji
        simp [hj]
      · simp [hji]

@[simp] theorem Memory.write_zeroed (m : Memory) (i : Nat) (v : Word) : (m.write i v).zeroed = m.zeroed := by
  unfold Memory.write
  split <;> rfl

@[simp] theorem Memory.zeroFill_zeroed (m : Memory) (n : Nat) : (m.zeroFill n).zeroed = max m.zeroed n := rfl

@[simp] theorem Memory.unlisted_write (m : Memory) (i j : Nat) (v : Word) :
    (m.write i v).unlisted j = m.unlisted j := by
  unfold Memory.unlisted
  rw [Memory.write_zeroed]

/-- A word reads as it was last written (20_memory R68). -/
@[simp] theorem Memory.read_write_same (m : Memory) (i : Nat) (v : Word) : (m.write i v).read i = some v := by
  unfold Memory.read
  rw [Memory.unlisted_write]
  by_cases h : m.unlisted i = some v <;> simp [Memory.write, h]

/-- A write leaves every other word alone. -/
theorem Memory.read_write_other (m : Memory) {i j : Nat} (v : Word) (h : j ≠ i) :
    (m.write i v).read j = m.read j := by
  unfold Memory.read
  rw [Memory.unlisted_write]
  by_cases hv : m.unlisted i = some v
  · simp [Memory.write, hv, lookupCell_eraseCell_other _ h]
  · simp [Memory.write, hv, lookupCell_insertCell_other _ _ h]

/-- A zero fill writes 0 below its end and leaves the rest alone (45_commands R247). -/
theorem Memory.read_zeroFill (m : Memory) (n i : Nat) :
    (m.zeroFill n).read i = if i < n then some 0x00000000#32 else m.read i := by
  unfold Memory.read Memory.zeroFill
  simp only [lookupCell_filter_ge]
  by_cases h : i < n
  · have h1 : ¬ n ≤ i := by omega
    simp [h, h1, Memory.unlisted]
  · have h1 : n ≤ i := by omega
    have h2 : (i < max m.zeroed n) ↔ i < m.zeroed := by omega
    simp [h, h1, h2, Memory.unlisted]

@[simp] theorem Memory.read_unspecified (i : Nat) : Memory.unspecified.read i = none := by
  simp [Memory.read, Memory.unspecified, lookupCell, Memory.unlisted]

/-- What a read of a stored word gives, the draws included. -/
@[simp] theorem readOrDraw_write_same (e : Nat) (st : Store) (m : Memory) (i : Nat) (v : Word) :
    readOrDraw e st (m.write i v) i = v := by
  simp [readOrDraw]

theorem readOrDraw_write_other (e : Nat) (st : Store) (m : Memory) {i j : Nat} (v : Word) (h : j ≠ i) :
    readOrDraw e st (m.write i v) j = readOrDraw e st m j := by
  simp [readOrDraw, Memory.read_write_other m v h]

theorem readOrDraw_zeroFill (e : Nat) (st : Store) (m : Memory) (n i : Nat) :
    readOrDraw e st (m.zeroFill n) i = if i < n then 0x00000000#32 else readOrDraw e st m i := by
  unfold readOrDraw
  rw [Memory.read_zeroFill]
  by_cases h : i < n <;> simp [h]

/-- The canonical form as a fact about the entries: rising indices above a bound, and no entry that an unlisted word
reads as anyway. -/
theorem cellsCanonical_iff (m : Memory) (cells : List (Nat × Word)) :
    ∀ below : Option Nat, cellsCanonical m below cells = true ↔
      (∀ j, below = some j → ∀ c ∈ cells, j < c.1) ∧ cells.Pairwise (fun a b => a.1 < b.1) ∧
        ∀ c ∈ cells, m.unlisted c.1 ≠ some c.2 := by
  induction cells with
  | nil => intro below; simp [cellsCanonical]
  | cons c rest ih =>
    obtain ⟨i, v⟩ := c
    intro below
    simp only [cellsCanonical, Bool.and_eq_true, decide_eq_true_eq, ih, List.pairwise_cons, List.forall_mem_cons]
    constructor
    · rintro ⟨⟨h1, h2⟩, h3, h4, h5⟩
      refine ⟨?_, ⟨?_, h4⟩, h2, h5⟩
      · rintro j rfl
        have hji : j < i := by simpa using h1
        exact ⟨hji, fun c hc => lt_trans hji (h3 i rfl c hc)⟩
      · exact fun c hc => h3 i rfl c hc
    · rintro ⟨h1, ⟨h2, h3⟩, h4, h5⟩
      refine ⟨⟨?_, h4⟩, ?_, h3, h5⟩
      · cases below with
        | none => rfl
        | some j => simpa using (h1 j rfl).1
      · rintro j hj c hc
        obtain rfl : i = j := by simpa using hj
        exact h2 c hc

/-- The canonical form, without the recursion. -/
theorem Memory.wf_iff (m : Memory) : m.wf = true ↔
    m.cells.Pairwise (fun a b => a.1 < b.1) ∧ ∀ c ∈ m.cells, m.unlisted c.1 ≠ some c.2 := by
  simp [Memory.wf, cellsCanonical_iff]

theorem mem_insertCell {cells : List (Nat × Word)} {i : Nat} {v : Word} {c : Nat × Word}
    (h : c ∈ insertCell cells i v) : c = (i, v) ∨ c ∈ cells := by
  induction cells with
  | nil => simpa [insertCell] using h
  | cons d rest ih =>
    obtain ⟨j, w⟩ := d
    unfold insertCell at h
    split at h
    · simpa using h
    · split at h
      · rcases List.mem_cons.1 h with h | h
        · exact .inl h
        · exact .inr (List.mem_cons_of_mem _ h)
      · rcases List.mem_cons.1 h with h | h
        · exact .inr (by simp [h])
        · exact (ih h).imp id (List.mem_cons_of_mem _)

theorem pairwise_insertCell {cells : List (Nat × Word)} (i : Nat) (v : Word)
    (h : cells.Pairwise (fun a b => a.1 < b.1)) :
    (insertCell cells i v).Pairwise (fun a b => a.1 < b.1) := by
  induction cells with
  | nil => simp [insertCell]
  | cons d rest ih =>
    obtain ⟨j, w⟩ := d
    rw [List.pairwise_cons] at h
    unfold insertCell
    split
    · rename_i hij
      refine List.pairwise_cons.2 ⟨?_, List.pairwise_cons.2 h⟩
      intro c hc
      rcases List.mem_cons.1 hc with rfl | hc
      · exact hij
      · exact lt_trans hij (h.1 c hc)
    · split
      · rename_i hij
        subst hij
        exact List.pairwise_cons.2 h
      · rename_i h1 h2
        refine List.pairwise_cons.2 ⟨?_, ih h.2⟩
        intro c hc
        rcases mem_insertCell hc with rfl | hc
        · show j < i
          omega
        · exact h.1 c hc

theorem eraseCell_eq_filter (cells : List (Nat × Word)) (i : Nat) :
    eraseCell cells i = cells.filter fun c => decide (c.1 ≠ i) := by
  induction cells with
  | nil => rfl
  | cons d rest ih =>
    obtain ⟨j, w⟩ := d
    unfold eraseCell
    split <;> simp_all

/-- A write keeps the canonical form. -/
theorem Memory.wf_write {m : Memory} (i : Nat) (v : Word) (h : m.wf = true) : (m.write i v).wf = true := by
  obtain ⟨hp, hu⟩ := m.wf_iff.1 h
  refine (Memory.wf_iff _).2 ?_
  simp only [Memory.unlisted_write]
  unfold Memory.write
  split
  · rw [eraseCell_eq_filter]
    exact ⟨hp.filter _, fun c hc => hu c (List.mem_of_mem_filter hc)⟩
  · rename_i hv
    refine ⟨pairwise_insertCell i v hp, fun c hc => ?_⟩
    rcases mem_insertCell hc with rfl | hc
    · exact hv
    · exact hu c hc

/-- A zero fill keeps the canonical form. -/
theorem Memory.wf_zeroFill {m : Memory} (n : Nat) (h : m.wf = true) : (m.zeroFill n).wf = true := by
  obtain ⟨hp, hu⟩ := m.wf_iff.1 h
  refine (Memory.wf_iff _).2 ⟨hp.filter _, fun c hc => ?_⟩
  have hc1 := hu c (List.mem_of_mem_filter hc)
  have hn : n ≤ c.1 := by simpa using (List.mem_filter.1 hc).2
  have hmax : (c.1 < max m.zeroed n) ↔ c.1 < m.zeroed := by omega
  simpa [Memory.unlisted, hmax] using hc1

theorem Memory.wf_unspecified : Memory.unspecified.wf = true := rfl

theorem Memory.within_unspecified (depth : Nat) : Memory.unspecified.within depth = true := by
  simp [Memory.within, Memory.unspecified]

/-- A write below `depth` keeps every listed index below it. -/
theorem Memory.within_write {m : Memory} {depth i : Nat} (v : Word) (hi : i < depth) (h : m.within depth = true) :
    (m.write i v).within depth = true := by
  simp only [Memory.within, Bool.and_eq_true, decide_eq_true_eq, List.all_eq_true, Memory.write_zeroed] at h ⊢
  refine ⟨h.1, fun c hc => ?_⟩
  unfold Memory.write at hc
  split at hc
  · rw [eraseCell_eq_filter] at hc
    exact h.2 c (List.mem_of_mem_filter hc)
  · rcases mem_insertCell hc with rfl | hc
    · exact hi
    · exact h.2 c hc

/-- A zero fill up to at most `depth` keeps every index below it. -/
theorem Memory.within_zeroFill {m : Memory} {depth n : Nat} (hn : n ≤ depth) (h : m.within depth = true) :
    (m.zeroFill n).within depth = true := by
  simp only [Memory.within, Bool.and_eq_true, decide_eq_true_eq, List.all_eq_true, Memory.zeroFill_zeroed] at h ⊢
  exact ⟨decide_eq_true (max_le h.1 hn), fun c hc => h.2 c (List.mem_of_mem_filter hc)⟩

theorem lookupCell_of_mem {cells : List (Nat × Word)} (h : cells.Pairwise (fun a b => a.1 < b.1)) {c : Nat × Word}
    (hc : c ∈ cells) : lookupCell cells c.1 = some c.2 := by
  induction cells with
  | nil => simp at hc
  | cons d rest ih =>
    obtain ⟨j, w⟩ := d
    rw [List.pairwise_cons] at h
    rcases List.mem_cons.1 hc with rfl | hc
    · simp [lookupCell]
    · have hj := h.1 c hc
      have hne : j ≠ c.1 := by simp at hj; omega
      simp [lookupCell, hne, ih h.2 hc]

theorem mem_of_lookupCell {cells : List (Nat × Word)} {i : Nat} {v : Word} (h : lookupCell cells i = some v) :
    (i, v) ∈ cells := by
  induction cells with
  | nil => simp [lookupCell] at h
  | cons d rest ih =>
    obtain ⟨j, w⟩ := d
    unfold lookupCell at h
    split at h
    · rename_i hji
      subst hji
      simp_all
    · exact List.mem_cons_of_mem _ (ih h)

/-- What a canonical memory lists is exactly what it reads beyond an unlisted word. -/
theorem Memory.mem_cells_iff {m : Memory} (h : m.wf = true) (i : Nat) (v : Word) :
    (i, v) ∈ m.cells ↔ m.read i = some v ∧ m.unlisted i ≠ some v := by
  obtain ⟨hp, hu⟩ := m.wf_iff.1 h
  constructor
  · intro hm
    refine ⟨?_, hu _ hm⟩
    have := lookupCell_of_mem hp hm
    simp only at this
    simp [Memory.read, this]
  · rintro ⟨hr, hn⟩
    unfold Memory.read at hr
    split at hr
    · rename_i w hw
      obtain rfl : w = v := by simpa using hr
      exact mem_of_lookupCell hw
    · exact absurd hr hn

theorem pairwise_ext {l l' : List (Nat × Word)} (h : l.Pairwise (fun a b => a.1 < b.1))
    (h' : l'.Pairwise (fun a b => a.1 < b.1)) (hm : ∀ c, c ∈ l ↔ c ∈ l') : l = l' := by
  have nd : ∀ {k : List (Nat × Word)}, k.Pairwise (fun a b => a.1 < b.1) → k.Nodup := fun hk =>
    hk.imp fun hab heq => by simp [heq] at hab
  have hperm : l.Perm l' := (List.perm_ext_iff_of_nodup (nd h) (nd h')).2 hm
  refine hperm.eq_of_pairwise ?_ h h'
  intro a b _ _ hab hba
  exact absurd (lt_trans hab hba) (lt_irrefl _)

/-- Equal memories are equal data: two canonical memories of one zero-filled extent that read alike are equal. -/
theorem Memory.ext_of_read {m m' : Memory} (h : m.wf = true) (h' : m'.wf = true) (hz : m.zeroed = m'.zeroed)
    (hr : ∀ i, m.read i = m'.read i) : m = m' := by
  have hu : ∀ i, m.unlisted i = m'.unlisted i := fun i => by simp [Memory.unlisted, hz]
  have hcells : m.cells = m'.cells := by
    refine pairwise_ext (m.wf_iff.1 h).1 (m'.wf_iff.1 h').1 ?_
    rintro ⟨i, v⟩
    rw [Memory.mem_cells_iff h, Memory.mem_cells_iff h', hr, hu]
  cases m
  cases m'
  simp_all

end Sys2Proof.Machine
end

