-- ==== Sys2Proof/Laws/State.lean ====
section
/-! SUPPORT. One lemma per field per named update of State, so that no proof unfolds a record update. -/

namespace Sys2Proof.Machine

section
variable (s : State) (r : Option Word)

@[simp] theorem State.answer_srIn : (s.answer r).srIn = s.srIn := rfl
@[simp] theorem State.answer_maxblkIn : (s.answer r).maxblkIn = s.maxblkIn := rfl
@[simp] theorem State.answer_frameCount : (s.answer r).frameCount = s.frameCount := rfl
@[simp] theorem State.answer_params : (s.answer r).params = s.params := rfl
@[simp] theorem State.answer_configured : (s.answer r).configured = s.configured := rfl
@[simp] theorem State.answer_blkClamped : (s.answer r).blkClamped = s.blkClamped := rfl
@[simp] theorem State.answer_errors : (s.answer r).errors = s.errors := rfl
@[simp] theorem State.answer_pend : (s.answer r).pend = s.pend := rfl
@[simp] theorem State.answer_fcl : (s.answer r).fcl = s.fcl := rfl
@[simp] theorem State.answer_framesDone : (s.answer r).framesDone = s.framesDone := rfl
@[simp] theorem State.answer_cfgSr : (s.answer r).cfgSr = s.cfgSr := rfl
@[simp] theorem State.answer_cfgLen : (s.answer r).cfgLen = s.cfgLen := rfl
@[simp] theorem State.answer_cfgMaxblk : (s.answer r).cfgMaxblk = s.cfgMaxblk := rfl
@[simp] theorem State.answer_phase : (s.answer r).phase = s.phase := rfl
@[simp] theorem State.answer_left : (s.answer r).left = s.left := rfl
@[simp] theorem State.answer_right : (s.answer r).right = s.right := rfl
@[simp] theorem State.answer_epoch : (s.answer r).epoch = s.epoch := rfl
@[simp] theorem State.answer_rdata : (s.answer r).rdata = r := rfl
@[simp] theorem State.answer_agenda : (s.answer r).agenda = s.agenda := rfl

end

section
variable (s : State) (e : ErrorBit)

@[simp] theorem State.raise_srIn : (s.raise e).srIn = s.srIn := rfl
@[simp] theorem State.raise_maxblkIn : (s.raise e).maxblkIn = s.maxblkIn := rfl
@[simp] theorem State.raise_frameCount : (s.raise e).frameCount = s.frameCount := rfl
@[simp] theorem State.raise_params : (s.raise e).params = s.params := rfl
@[simp] theorem State.raise_configured : (s.raise e).configured = s.configured := rfl
@[simp] theorem State.raise_blkClamped : (s.raise e).blkClamped = s.blkClamped := rfl
@[simp] theorem State.raise_errors : (s.raise e).errors = s.errors.set e := rfl
@[simp] theorem State.raise_pend : (s.raise e).pend = s.pend := rfl
@[simp] theorem State.raise_fcl : (s.raise e).fcl = s.fcl := rfl
@[simp] theorem State.raise_framesDone : (s.raise e).framesDone = s.framesDone := rfl
@[simp] theorem State.raise_cfgSr : (s.raise e).cfgSr = s.cfgSr := rfl
@[simp] theorem State.raise_cfgLen : (s.raise e).cfgLen = s.cfgLen := rfl
@[simp] theorem State.raise_cfgMaxblk : (s.raise e).cfgMaxblk = s.cfgMaxblk := rfl
@[simp] theorem State.raise_phase : (s.raise e).phase = s.phase := rfl
@[simp] theorem State.raise_left : (s.raise e).left = s.left := rfl
@[simp] theorem State.raise_right : (s.raise e).right = s.right := rfl
@[simp] theorem State.raise_epoch : (s.raise e).epoch = s.epoch := rfl
@[simp] theorem State.raise_rdata : (s.raise e).rdata = s.rdata := rfl
@[simp] theorem State.raise_agenda : (s.raise e).agenda = s.agenda := rfl

end

section
variable (s : State)

@[simp] theorem State.popAgenda_srIn : (s.popAgenda).srIn = s.srIn := rfl
@[simp] theorem State.popAgenda_maxblkIn : (s.popAgenda).maxblkIn = s.maxblkIn := rfl
@[simp] theorem State.popAgenda_frameCount : (s.popAgenda).frameCount = s.frameCount := rfl
@[simp] theorem State.popAgenda_params : (s.popAgenda).params = s.params := rfl
@[simp] theorem State.popAgenda_configured : (s.popAgenda).configured = s.configured := rfl
@[simp] theorem State.popAgenda_blkClamped : (s.popAgenda).blkClamped = s.blkClamped := rfl
@[simp] theorem State.popAgenda_errors : (s.popAgenda).errors = s.errors := rfl
@[simp] theorem State.popAgenda_pend : (s.popAgenda).pend = s.pend := rfl
@[simp] theorem State.popAgenda_fcl : (s.popAgenda).fcl = s.fcl := rfl
@[simp] theorem State.popAgenda_framesDone : (s.popAgenda).framesDone = s.framesDone := rfl
@[simp] theorem State.popAgenda_cfgSr : (s.popAgenda).cfgSr = s.cfgSr := rfl
@[simp] theorem State.popAgenda_cfgLen : (s.popAgenda).cfgLen = s.cfgLen := rfl
@[simp] theorem State.popAgenda_cfgMaxblk : (s.popAgenda).cfgMaxblk = s.cfgMaxblk := rfl
@[simp] theorem State.popAgenda_phase : (s.popAgenda).phase = s.phase := rfl
@[simp] theorem State.popAgenda_left : (s.popAgenda).left = s.left := rfl
@[simp] theorem State.popAgenda_right : (s.popAgenda).right = s.right := rfl
@[simp] theorem State.popAgenda_epoch : (s.popAgenda).epoch = s.epoch := rfl
@[simp] theorem State.popAgenda_rdata : (s.popAgenda).rdata = s.rdata := rfl
@[simp] theorem State.popAgenda_agenda : (s.popAgenda).agenda = s.agenda.tail := rfl

end

section
variable (s : State) (e : Event)

@[simp] theorem State.pushEvent_srIn : (s.pushEvent e).srIn = s.srIn := rfl
@[simp] theorem State.pushEvent_maxblkIn : (s.pushEvent e).maxblkIn = s.maxblkIn := rfl
@[simp] theorem State.pushEvent_frameCount : (s.pushEvent e).frameCount = s.frameCount := rfl
@[simp] theorem State.pushEvent_params : (s.pushEvent e).params = s.params := rfl
@[simp] theorem State.pushEvent_configured : (s.pushEvent e).configured = s.configured := rfl
@[simp] theorem State.pushEvent_blkClamped : (s.pushEvent e).blkClamped = s.blkClamped := rfl
@[simp] theorem State.pushEvent_errors : (s.pushEvent e).errors = s.errors := rfl
@[simp] theorem State.pushEvent_pend : (s.pushEvent e).pend = s.pend := rfl
@[simp] theorem State.pushEvent_fcl : (s.pushEvent e).fcl = s.fcl := rfl
@[simp] theorem State.pushEvent_framesDone : (s.pushEvent e).framesDone = s.framesDone := rfl
@[simp] theorem State.pushEvent_cfgSr : (s.pushEvent e).cfgSr = s.cfgSr := rfl
@[simp] theorem State.pushEvent_cfgLen : (s.pushEvent e).cfgLen = s.cfgLen := rfl
@[simp] theorem State.pushEvent_cfgMaxblk : (s.pushEvent e).cfgMaxblk = s.cfgMaxblk := rfl
@[simp] theorem State.pushEvent_phase : (s.pushEvent e).phase = s.phase := rfl
@[simp] theorem State.pushEvent_left : (s.pushEvent e).left = s.left := rfl
@[simp] theorem State.pushEvent_right : (s.pushEvent e).right = s.right := rfl
@[simp] theorem State.pushEvent_epoch : (s.pushEvent e).epoch = s.epoch := rfl
@[simp] theorem State.pushEvent_rdata : (s.pushEvent e).rdata = s.rdata := rfl
@[simp] theorem State.pushEvent_agenda : (s.pushEvent e).agenda = e :: s.agenda := rfl

end

section
variable (s : State)

@[simp] theorem State.pendConfig_srIn : (s.pendConfig).srIn = s.srIn := rfl
@[simp] theorem State.pendConfig_maxblkIn : (s.pendConfig).maxblkIn = s.maxblkIn := rfl
@[simp] theorem State.pendConfig_frameCount : (s.pendConfig).frameCount = s.frameCount := rfl
@[simp] theorem State.pendConfig_params : (s.pendConfig).params = s.params := rfl
@[simp] theorem State.pendConfig_configured : (s.pendConfig).configured = s.configured := rfl
@[simp] theorem State.pendConfig_blkClamped : (s.pendConfig).blkClamped = s.blkClamped := rfl
@[simp] theorem State.pendConfig_errors : (s.pendConfig).errors = s.errors := rfl
@[simp] theorem State.pendConfig_pend : (s.pendConfig).pend = .config := rfl
@[simp] theorem State.pendConfig_fcl : (s.pendConfig).fcl = s.fcl := rfl
@[simp] theorem State.pendConfig_framesDone : (s.pendConfig).framesDone = s.framesDone := rfl
@[simp] theorem State.pendConfig_cfgSr : (s.pendConfig).cfgSr = s.cfgSr := rfl
@[simp] theorem State.pendConfig_cfgLen : (s.pendConfig).cfgLen = s.cfgLen := rfl
@[simp] theorem State.pendConfig_cfgMaxblk : (s.pendConfig).cfgMaxblk = s.cfgMaxblk := rfl
@[simp] theorem State.pendConfig_phase : (s.pendConfig).phase = s.phase := rfl
@[simp] theorem State.pendConfig_left : (s.pendConfig).left = s.left := rfl
@[simp] theorem State.pendConfig_right : (s.pendConfig).right = s.right := rfl
@[simp] theorem State.pendConfig_epoch : (s.pendConfig).epoch = s.epoch := rfl
@[simp] theorem State.pendConfig_rdata : (s.pendConfig).rdata = s.rdata := rfl
@[simp] theorem State.pendConfig_agenda : (s.pendConfig).agenda = s.agenda := rfl

end

section
variable (s : State)

@[simp] theorem State.pendProcess_srIn : (s.pendProcess).srIn = s.srIn := by unfold State.pendProcess; split <;> rfl
@[simp] theorem State.pendProcess_maxblkIn : (s.pendProcess).maxblkIn = s.maxblkIn := by unfold State.pendProcess; split <;> rfl
@[simp] theorem State.pendProcess_frameCount : (s.pendProcess).frameCount = s.frameCount := by unfold State.pendProcess; split <;> rfl
@[simp] theorem State.pendProcess_params : (s.pendProcess).params = s.params := by unfold State.pendProcess; split <;> rfl
@[simp] theorem State.pendProcess_configured : (s.pendProcess).configured = s.configured := by unfold State.pendProcess; split <;> rfl
@[simp] theorem State.pendProcess_blkClamped : (s.pendProcess).blkClamped = s.blkClamped := by unfold State.pendProcess; split <;> rfl
@[simp] theorem State.pendProcess_errors : (s.pendProcess).errors = s.errors := by unfold State.pendProcess; split <;> rfl
@[simp] theorem State.pendProcess_pend : (s.pendProcess).pend = if s.frameCount = 0x00000000#32 then s.pend else .process := by unfold State.pendProcess; split <;> rfl
@[simp] theorem State.pendProcess_fcl : (s.pendProcess).fcl = if s.frameCount = 0x00000000#32 then s.fcl else s.frameCount.toNat := by unfold State.pendProcess; split <;> rfl
@[simp] theorem State.pendProcess_framesDone : (s.pendProcess).framesDone = 0 := by unfold State.pendProcess; split <;> rfl
@[simp] theorem State.pendProcess_cfgSr : (s.pendProcess).cfgSr = s.cfgSr := by unfold State.pendProcess; split <;> rfl
@[simp] theorem State.pendProcess_cfgLen : (s.pendProcess).cfgLen = s.cfgLen := by unfold State.pendProcess; split <;> rfl
@[simp] theorem State.pendProcess_cfgMaxblk : (s.pendProcess).cfgMaxblk = s.cfgMaxblk := by unfold State.pendProcess; split <;> rfl
@[simp] theorem State.pendProcess_phase : (s.pendProcess).phase = s.phase := by unfold State.pendProcess; split <;> rfl
@[simp] theorem State.pendProcess_left : (s.pendProcess).left = s.left := by unfold State.pendProcess; split <;> rfl
@[simp] theorem State.pendProcess_right : (s.pendProcess).right = s.right := by unfold State.pendProcess; split <;> rfl
@[simp] theorem State.pendProcess_epoch : (s.pendProcess).epoch = s.epoch := by unfold State.pendProcess; split <;> rfl
@[simp] theorem State.pendProcess_rdata : (s.pendProcess).rdata = s.rdata := by unfold State.pendProcess; split <;> rfl
@[simp] theorem State.pendProcess_agenda : (s.pendProcess).agenda = s.agenda := by unfold State.pendProcess; split <;> rfl

end

section
variable (s : State) (c : Channel) (l : Lane)

@[simp] theorem State.setLane_srIn : (s.setLane c l).srIn = s.srIn := by cases c <;> rfl
@[simp] theorem State.setLane_maxblkIn : (s.setLane c l).maxblkIn = s.maxblkIn := by cases c <;> rfl
@[simp] theorem State.setLane_frameCount : (s.setLane c l).frameCount = s.frameCount := by cases c <;> rfl
@[simp] theorem State.setLane_params : (s.setLane c l).params = s.params := by cases c <;> rfl
@[simp] theorem State.setLane_configured : (s.setLane c l).configured = s.configured := by cases c <;> rfl
@[simp] theorem State.setLane_blkClamped : (s.setLane c l).blkClamped = s.blkClamped := by cases c <;> rfl
@[simp] theorem State.setLane_errors : (s.setLane c l).errors = s.errors := by cases c <;> rfl
@[simp] theorem State.setLane_pend : (s.setLane c l).pend = s.pend := by cases c <;> rfl
@[simp] theorem State.setLane_fcl : (s.setLane c l).fcl = s.fcl := by cases c <;> rfl
@[simp] theorem State.setLane_framesDone : (s.setLane c l).framesDone = s.framesDone := by cases c <;> rfl
@[simp] theorem State.setLane_cfgSr : (s.setLane c l).cfgSr = s.cfgSr := by cases c <;> rfl
@[simp] theorem State.setLane_cfgLen : (s.setLane c l).cfgLen = s.cfgLen := by cases c <;> rfl
@[simp] theorem State.setLane_cfgMaxblk : (s.setLane c l).cfgMaxblk = s.cfgMaxblk := by cases c <;> rfl
@[simp] theorem State.setLane_phase : (s.setLane c l).phase = s.phase := by cases c <;> rfl
@[simp] theorem State.setLane_left : (s.setLane c l).left = match c with | .left => l | .right => s.left := by cases c <;> rfl
@[simp] theorem State.setLane_right : (s.setLane c l).right = match c with | .left => s.right | .right => l := by cases c <;> rfl
@[simp] theorem State.setLane_epoch : (s.setLane c l).epoch = s.epoch := by cases c <;> rfl
@[simp] theorem State.setLane_rdata : (s.setLane c l).rdata = s.rdata := by cases c <;> rfl
@[simp] theorem State.setLane_agenda : (s.setLane c l).agenda = s.agenda := by cases c <;> rfl

end

section
variable (s : State) (c : Channel) (k : Nat) (v : Word)

@[simp] theorem State.storeInput_srIn : (s.storeInput c k v).srIn = s.srIn := by cases c <;> rfl
@[simp] theorem State.storeInput_maxblkIn : (s.storeInput c k v).maxblkIn = s.maxblkIn := by cases c <;> rfl
@[simp] theorem State.storeInput_frameCount : (s.storeInput c k v).frameCount = s.frameCount := by cases c <;> rfl
@[simp] theorem State.storeInput_params : (s.storeInput c k v).params = s.params := by cases c <;> rfl
@[simp] theorem State.storeInput_configured : (s.storeInput c k v).configured = s.configured := by cases c <;> rfl
@[simp] theorem State.storeInput_blkClamped : (s.storeInput c k v).blkClamped = s.blkClamped := by cases c <;> rfl
@[simp] theorem State.storeInput_errors : (s.storeInput c k v).errors = s.errors := by cases c <;> rfl
@[simp] theorem State.storeInput_pend : (s.storeInput c k v).pend = s.pend := by cases c <;> rfl
@[simp] theorem State.storeInput_fcl : (s.storeInput c k v).fcl = s.fcl := by cases c <;> rfl
@[simp] theorem State.storeInput_framesDone : (s.storeInput c k v).framesDone = s.framesDone := by cases c <;> rfl
@[simp] theorem State.storeInput_cfgSr : (s.storeInput c k v).cfgSr = s.cfgSr := by cases c <;> rfl
@[simp] theorem State.storeInput_cfgLen : (s.storeInput c k v).cfgLen = s.cfgLen := by cases c <;> rfl
@[simp] theorem State.storeInput_cfgMaxblk : (s.storeInput c k v).cfgMaxblk = s.cfgMaxblk := by cases c <;> rfl
@[simp] theorem State.storeInput_phase : (s.storeInput c k v).phase = s.phase := by cases c <;> rfl
@[simp] theorem State.storeInput_left : (s.storeInput c k v).left = match c with | .left => { s.left with ibuf := s.left.ibuf.write k v } | .right => s.left := by cases c <;> rfl
@[simp] theorem State.storeInput_right : (s.storeInput c k v).right = match c with | .left => s.right | .right => { s.right with ibuf := s.right.ibuf.write k v } := by cases c <;> rfl
@[simp] theorem State.storeInput_epoch : (s.storeInput c k v).epoch = s.epoch := by cases c <;> rfl
@[simp] theorem State.storeInput_rdata : (s.storeInput c k v).rdata = s.rdata := by cases c <;> rfl
@[simp] theorem State.storeInput_agenda : (s.storeInput c k v).agenda = s.agenda := by cases c <;> rfl

end

@[simp] theorem State.popAgenda_pushEvent (s : State) (e : Event) : (s.pushEvent e).popAgenda = s := rfl

/-- Raising an error sets its own bit and no other (60_exceptions R352). -/
theorem Errors.get_set (e : Errors) (b b' : ErrorBit) : (e.set b).get b' = if b = b' then true else e.get b' := by
  cases b <;> cases b' <;> rfl

@[simp] theorem State.lane_setLane_same (s : State) (c : Channel) (l : Lane) : (s.setLane c l).lane c = l := by
  cases c <;> rfl

theorem State.lane_setLane_other (s : State) {c c' : Channel} (l : Lane) (h : c' ≠ c) :
    (s.setLane c l).lane c' = s.lane c' := by
  cases c <;> cases c' <;> first | rfl | exact absurd rfl h

/-- BUSY is PEND ≠ NONE (10_state R24). -/
theorem busy_eq_true_iff (s : State) : busy s = true ↔ s.pend ≠ .none := by simp [busy]

theorem busy_eq_false_iff (s : State) : busy s = false ↔ s.pend = .none := by simp [busy]

@[simp] theorem resetEvent_epoch (s : State) : (resetEvent s).epoch = s.epoch + 1 := rfl
@[simp] theorem resetEvent_agenda (s : State) : (resetEvent s).agenda = s.agenda := rfl
@[simp] theorem resetEvent_errors (s : State) : (resetEvent s).errors = .reset := rfl
@[simp] theorem resetEvent_pend (s : State) : (resetEvent s).pend = .none := rfl
@[simp] theorem resetEvent_configured (s : State) : (resetEvent s).configured = false := rfl
@[simp] theorem resetEvent_left (s : State) : (resetEvent s).left = .reset := rfl
@[simp] theorem resetEvent_right (s : State) : (resetEvent s).right = .reset := rfl

end Sys2Proof.Machine
end

