-- ==== Sys2Proof/Laws/Ops.lean ====
section
/-! SUPPORT. For each shared operation, everything it can do, said once. -/

namespace Sys2Proof.Machine

@[simp] theorem completeRead_eq (s : State) (w : Word) : completeRead s w = .next (s.answer (some w)) := rfl
@[simp] theorem completeWrite_eq (s : State) : completeWrite s = .next (s.answer none) := rfl
@[simp] theorem ignoreWrite_eq (s : State) : ignoreWrite s = .next (s.answer none) := rfl
@[simp] theorem refuseWrite_eq (s : State) (e : ErrorBit) : refuseWrite s e = .next ((s.raise e).answer none) := rfl
@[simp] theorem refuseRead_eq (s : State) (e : ErrorBit) :
    refuseRead s e = .next ((s.raise e).answer (some 0x00000000#32)) := rfl

/-- While busy, a locked write is refused with ERR_BUSY (46_host_bus R271). -/
theorem lockedWrite_busy {s s' : State} (h : s.pend ≠ .none) :
    lockedWrite s s' = .next ((s.raise .busy).answer none) := by
  simp [lockedWrite, (busy_eq_true_iff s).2 h]

/-- While idle, a locked write is performed. -/
theorem lockedWrite_idle {s s' : State} (h : s.pend = .none) : lockedWrite s s' = .next (s'.answer none) := by
  simp [lockedWrite, (busy_eq_false_iff s).2 h]

/-- Everything a locked write can do. -/
theorem lockedWrite_cases {s s' t : State} (h : lockedWrite s s' = .next t) :
    (s.pend ≠ .none ∧ t = (s.raise .busy).answer none) ∨ (s.pend = .none ∧ t = s'.answer none) := by
  by_cases hp : s.pend = .none
  · rw [lockedWrite_idle hp] at h
    exact .inr ⟨hp, by simpa using h.symm⟩
  · rw [lockedWrite_busy hp] at h
    exact .inl ⟨hp, by simpa using h.symm⟩

/-- Everything the acceptance of a command word can do: a refusal, which only sets an error bit, a NOP, or one of the two
acceptances (45_commands R240). -/
theorem accept_cases (v : Word) (s : State) :
    (∃ e, accept v s = .next ((s.raise e).answer none)) ∨
    (s.pend = .none ∧ accept v s = .next (s.answer none)) ∨
    (s.pend = .none ∧ srValid s.srIn = true ∧ accept v s = .next (s.pendConfig.answer none)) ∨
    (s.pend = .none ∧ s.configured = true ∧ s.frameCount.toNat ≤ s.cfgMaxblk ∧
      accept v s = .next (s.pendProcess.answer none)) := by
  unfold accept
  dsimp only
  split
  · exact .inl ⟨.busy, rfl⟩
  rename_i hb
  have hp : s.pend = .none := (busy_eq_false_iff s).1 (by simpa using hb)
  split
  · exact .inl ⟨.cmd, rfl⟩
  split
  · exact .inr (.inl ⟨hp, rfl⟩)
  split
  · split
    · exact .inr (.inr (.inl ⟨hp, by assumption, rfl⟩))
    · exact .inl ⟨.cfg, rfl⟩
  split
  · exact .inl ⟨.unconf, rfl⟩
  rename_i hc
  split
  · exact .inl ⟨.count, rfl⟩
  · rename_i hm
    exact .inr (.inr (.inr ⟨hp, by simpa using hc, by omega, rfl⟩))

end Sys2Proof.Machine
end

