-- ==== Sys2Proof/Laws/Engine.lean ====
section
/-! SUPPORT. Everything an engine step can do, said once: inversion lemmas for the configuration, the parts of a frame and
the frame. -/

namespace Sys2Proof.Machine

/-- A bind answers only where both parts do. -/
theorem except_bind_ok {α β ε : Type} {x : Except ε α} {f : α → Except ε β} {b : β} :
    x.bind f = .ok b ↔ ∃ a, x = .ok a ∧ f a = .ok b := by
  cases x <;> simp [Except.bind]

theorem except_monad_bind_ok {α β ε : Type} {x : Except ε α} {f : α → Except ε β} {b : β} :
    (x >>= f) = .ok b ↔ ∃ a, x = .ok a ∧ f a = .ok b := except_bind_ok

theorem engineOutcome_next {r : Except Fault State} {t : State} : engineOutcome r = .next t ↔ r = .ok t := by
  cases r <;> simp [engineOutcome]

theorem engineOutcome_not_refused (r : Except Fault State) (x : Refusal) : engineOutcome r ≠ .refused x := by
  cases r <;> simp [engineOutcome]

theorem floorOf_ok {x : Word} {n : Nat} :
    floorOf x = .ok n ↔ isFinite x = true ∧ 0 ≤ signedValue x ∧ n = magnitude x / 2 ^ 149 := by
  unfold floorOf floorU
  by_cases h : isFinite x = true ∧ 0 ≤ signedValue x
  · rw [if_pos h]
    exact Iff.intro (fun hn => ⟨h.1, h.2, by cases hn; rfl⟩) (fun hn => by rw [hn.2.2])
  · rw [if_neg h]
    exact Iff.intro (fun hn => by cases hn) (fun hn => absurd (And.intro hn.1 hn.2.1) h)

theorem fractionOf_ok {x f : Word} :
    fractionOf x = .ok f ↔
      isFinite x = true ∧ 0 ≤ signedValue x ∧ f = sub32 x (u2f32 (magnitude x / 2 ^ 149)) := by
  unfold fractionOf frac32 floorU
  by_cases h : isFinite x = true ∧ 0 ≤ signedValue x
  · rw [if_pos h]
    exact Iff.intro (fun hn => ⟨h.1, h.2, by cases hn; rfl⟩) (fun hn => by rw [hn.2.2]; rfl)
  · rw [if_neg h]
    exact Iff.intro (fun hn => by cases hn) (fun hn => absurd (And.intro hn.1 hn.2.1) h)

theorem delayLength_ok {x : Word} {n : Nat} :
    delayLength x = .ok n ↔ ∃ m, floorOf (mul32 x Config.twoSeconds) = .ok m ∧ n = max Config.lMin m := by
  unfold delayLength
  rw [except_monad_bind_ok]
  simp [eq_comm]

/-- Everything the configuration step can do (45_commands R247). -/
theorem configResult_ok {s t : State} : configResult s = .ok t ↔
    ∃ len, delayLength s.srIn = .ok len ∧
      t = { s with
            cfgSr := s.srIn, cfgLen := len,
            cfgMaxblk := if Config.blockCap < s.maxblkIn.toNat then Config.blockCap else s.maxblkIn.toNat,
            blkClamped := decide (Config.blockCap < s.maxblkIn.toNat),
            left := s.left.configure len, right := s.right.configure len,
            phase := 0x00000000#32, framesDone := 0, configured := true, pend := .none } := by
  unfold configResult
  rw [except_monad_bind_ok]
  simp [eq_comm]

theorem delayWrite_ok {l l' : Lane} {ws : Word} : delayWrite l ws = .ok l' ↔
    l.wh < Config.dlDepth ∧ l' = { l with dl := l.dl.write l.wh ws } := by
  unfold delayWrite
  split <;> simp_all [eq_comm]

theorem delayRead_ok {e : Nat} {c : Channel} {l : Lane} {i : Nat} {w : Word} : delayRead e c l i = .ok w ↔
    i < Config.dlDepth ∧ w = readOrDraw e (.delayRam c) l.dl i := by
  unfold delayRead
  split <;> simp_all [eq_comm]

theorem inputFetch_ok {e : Nat} {c : Channel} {l : Lane} {k : Nat} {w : Word} : inputFetch e c l k = .ok w ↔
    k < Config.blockCap ∧ w = readOrDraw e (.inputWindow c) l.ibuf k := by
  unfold inputFetch
  split <;> simp_all [eq_comm]

theorem outputWrite_ok {l l' : Lane} {k : Nat} {w : Word} : outputWrite l k w = .ok l' ↔
    k < Config.blockCap ∧ l' = { l with obuf := l.obuf.write k w } := by
  unfold outputWrite
  split <;> simp_all [eq_comm]

/-- Everything the first part of a lane's frame can do (44_engine_frame R203, R204). -/
theorem laneInput_ok {e : Nat} {c : Channel} {len k : Nat} {l : Lane} {r : Word × Lane} :
    laneInput e c len k l = .ok r ↔
      k < Config.blockCap ∧ l.wh < Config.dlDepth ∧
      r.1 = readOrDraw e (.inputWindow c) l.ibuf k ∧
      r.2 = { l with dl := l.dl.write l.wh (add32 r.1 l.fb), wh := if l.wh + 1 = len then 0 else l.wh + 1 } := by
  obtain ⟨x, l'⟩ := r
  unfold laneInput feedbackSum
  simp only [except_monad_bind_ok, inputFetch_ok, delayWrite_ok, headAdvance]
  constructor
  · rintro ⟨a, ⟨hk, rfl⟩, b, ⟨d, ⟨hw, rfl⟩, h2⟩, h3⟩
    cases h2
    cases h3
    exact ⟨hk, hw, rfl, rfl⟩
  · rintro ⟨hk, hw, rfl, h⟩
    exact ⟨_, ⟨hk, rfl⟩, _, ⟨_, ⟨hw, rfl⟩, rfl⟩, by rw [← h]⟩

/-- Everything a read position can be (43_fractional_reader R181 to R184). -/
theorem readPosition_ok {wh len : Nat} {dn : Word} {p : ReadPosition} : readPosition wh dn len = .ok p ↔
    ∃ n, floorOf (readWrap (readSub wh dn) len) = .ok n ∧
      p = { cur := (readIndex n len).1, nxt := (readIndex n len).2,
            frac := sub32 (readWrap (readSub wh dn) len) (u2f32 n) } := by
  unfold readPosition readSplit
  simp only [except_monad_bind_ok]
  constructor
  · rintro ⟨a, ⟨n, hn, ha⟩, hp⟩
    cases ha
    cases hp
    exact ⟨n, hn, rfl⟩
  · rintro ⟨n, hn, rfl⟩
    exact ⟨_, ⟨n, hn, rfl⟩, rfl⟩

/-- Everything the interpolated read can give (43_fractional_reader R185). -/
theorem interpolate_ok {e : Nat} {c : Channel} {l : Lane} {p : ReadPosition} {w : Word} :
    interpolate e c l p = .ok w ↔
      p.cur < Config.dlDepth ∧
      ((eq32 p.frac 0x00000000#32 = true ∧ w = readOrDraw e (.delayRam c) l.dl p.cur) ∨
        (eq32 p.frac 0x00000000#32 = false ∧ p.nxt < Config.dlDepth ∧
          w = blend p.frac (readOrDraw e (.delayRam c) l.dl p.cur) (readOrDraw e (.delayRam c) l.dl p.nxt))) := by
  unfold interpolate
  simp only [except_monad_bind_ok, delayRead_ok]
  cases hz : eq32 p.frac 0x00000000#32
  · constructor
    · rintro ⟨a, ⟨ha, rfl⟩, h⟩
      simp only [Bool.false_eq_true, if_false, except_monad_bind_ok, delayRead_ok] at h
      obtain ⟨b, ⟨hb, rfl⟩, h⟩ := h
      cases h
      exact ⟨ha, .inr ⟨rfl, hb, rfl⟩⟩
    · rintro ⟨ha, h | ⟨-, hb, rfl⟩⟩
      · simp at h
      · refine ⟨_, ⟨ha, rfl⟩, ?_⟩
        simp only [Bool.false_eq_true, if_false, except_monad_bind_ok, delayRead_ok]
        exact ⟨_, ⟨hb, rfl⟩, rfl⟩
  · constructor
    · rintro ⟨a, ⟨ha, rfl⟩, h⟩
      cases h
      exact ⟨ha, .inl ⟨rfl, rfl⟩⟩
    · rintro ⟨ha, ⟨-, rfl⟩ | h⟩
      · exact ⟨_, ⟨ha, rfl⟩, rfl⟩
      · simp at h

/-- A lane whose feedback value is no NaN mixes the sample it reads. -/
@[simp] theorem holdPoison_of_not_nan {fb : Word} (wet : Word) (h : isNaN fb = false) : holdPoison fb wet = wet := by
  simp [holdPoison, h]

/-- A lane whose feedback value is a NaN mixes the canonical NaN (93_implementation_defined I5). -/
@[simp] theorem holdPoison_of_nan {fb : Word} (wet : Word) (h : isNaN fb = true) :
    holdPoison fb wet = Config.cnan := by
  simp [holdPoison, h]

/-- Everything the second part of a lane's frame can do (44_engine_frame R206 to R215). -/
theorem laneOutput_ok {e : Nat} {c : Channel} {len k : Nat} {sr m x : Word} {p : Snapshot} {l l' : Lane} :
    laneOutput e c len k sr p m x l = .ok l' ↔
      k < Config.blockCap ∧ ∃ read, wetRead e c len (delaySamples sr p.ty m) l = .ok read ∧
        l' = { l with fb := mul32 (holdPoison l.fb read) p.fbc,
                      obuf := l.obuf.write k (mix x (holdPoison l.fb read) p.dw) } := by
  unfold laneOutput
  simp only [except_monad_bind_ok, outputWrite_ok, feedbackUpdate]
  constructor
  · rintro ⟨wet, hw, hk, rfl⟩
    exact ⟨hk, wet, hw, rfl⟩
  · rintro ⟨hk, wet, hw, rfl⟩
    exact ⟨wet, hw, hk, rfl⟩

theorem lfoStep_ok {sn : Word → Word} {phase sr : Word} {p : Snapshot} {r : Modulation} :
    lfoStep sn phase p sr = .ok r ↔
      ∃ phR phase', fractionOf (add32 phase p.po) = .ok phR ∧
        fractionOf (add32 phase (div32 p.rt sr)) = .ok phase' ∧
        r = { left := mul32 (sn phase) p.dp, right := mul32 (sn phR) p.dp, phase := phase' } := by
  unfold lfoStep lfoRight lfoAdvance lfoLeft lfoScale
  simp only [except_monad_bind_ok]
  constructor
  · rintro ⟨a, ⟨phR, h1, h2⟩, ph, h3, h4⟩
    cases h2
    cases h4
    exact ⟨phR, ph, h1, h3, rfl⟩
  · rintro ⟨phR, ph, h1, h3, rfl⟩
    exact ⟨_, ⟨phR, h1, rfl⟩, ph, h3, rfl⟩

/-- Everything a frame step can do (44_engine_frame R230). -/
theorem frameResult_ok {sn : Word → Word} {s t : State} : frameResult sn s = .ok t ↔
    ∃ inL inR mod left right,
      laneInput s.epoch .left s.cfgLen s.framesDone s.left = .ok inL ∧
      laneInput s.epoch .right s.cfgLen s.framesDone s.right = .ok inR ∧
      lfoStep sn s.phase (snapshot s.params) s.cfgSr = .ok mod ∧
      laneOutput s.epoch .left s.cfgLen s.framesDone s.cfgSr (snapshot s.params) mod.left inL.1 inL.2 = .ok left ∧
      laneOutput s.epoch .right s.cfgLen s.framesDone s.cfgSr (snapshot s.params) mod.right inR.1 inR.2 = .ok right ∧
      t = { s with
            left := left, right := right, phase := mod.phase, framesDone := s.framesDone + 1,
            pend := if s.framesDone + 1 = s.fcl then .none else s.pend } := by
  unfold frameResult
  simp only [except_monad_bind_ok]
  constructor
  · rintro ⟨inL, h1, inR, h2, mod, h3, left, h4, right, h5, h6⟩
    cases h6
    exact ⟨inL, inR, mod, left, right, h1, h2, h3, h4, h5, rfl⟩
  · rintro ⟨inL, inR, mod, left, right, h1, h2, h3, h4, h5, rfl⟩
    exact ⟨inL, h1, inR, h2, mod, h3, left, h4, right, h5, rfl⟩

/-- Everything an engine turn can do (00_scope R5). -/
theorem engineStep_next {sn : Word → Word} {s t : State} : engineStep sn s = .next t ↔
    (s.pend = .none ∧ t = s) ∨ (s.pend = .config ∧ configResult s = .ok t) ∨
      (s.pend = .process ∧ frameResult sn s = .ok t) := by
  unfold engineStep configStep frameStep
  cases h : s.pend
  · exact ⟨fun ht => .inl ⟨rfl, by cases ht; rfl⟩, fun ht => by rcases ht with ⟨-, rfl⟩ | ⟨h', -⟩ | ⟨h', -⟩ <;> simp_all⟩
  · simp [engineOutcome_next]
  · simp [engineOutcome_next]

/-- Everything a step can do: the engine's turn, one transaction, or RESET (20_memory R68). -/
theorem step_next {s t : State} : step s = .next t ↔
    (s.agenda = [] ∧ engineStep sine s = .next t) ∨
    (∃ ht v rest, s.agenda = .host ht v :: rest ∧ exec (decodeHT ht v) s.popAgenda = .next t) ∨
    (∃ rest, s.agenda = .engine :: rest ∧ engineStep sine s.popAgenda = .next t) ∨
    (∃ rest, s.agenda = .reset :: rest ∧ t = resetEvent s.popAgenda) := by
  unfold step stepWith
  rcases h : s.agenda with _ | ⟨ht | _ | _, rest⟩
  · simp
  · simp
  · simp
  · refine ⟨fun ht => .inr (.inr (.inr ⟨rest, rfl, by cases ht; rfl⟩)), fun ht => ?_⟩
    rcases ht with ⟨h', -⟩ | ⟨_, _, _, h', -⟩ | ⟨_, h', -⟩ | ⟨_, -, rfl⟩
    · cases h'
    · cases h'
    · cases h'
    · rfl

end Sys2Proof.Machine
end

