-- ==== Sys2Proof/Laws/PerInstr.lean ====
section
/-! SUPPORT. Facts about every operation, one lemma for each. -/

namespace Sys2Proof

/-- The operation is a write transaction. -/
def Instr.isWrite : Instr → Bool
  | .wrCmd _ | .wrStatus _ | .wrSrIn _ | .wrMaxblkIn _ | .wrFrameCount _ | .wrDrywet _ | .wrDepth _ | .wrRate _
  | .wrPhaseOffset _ | .wrFeedback _ | .wrType _ | .wrObs _ _ | .wrRsvd _ _ | .wrIbufL _ _ | .wrIbufR _ _
  | .wrObufL _ _ | .wrObufR _ _ | .wrBuserr _ _ _ => true
  | .rdCmd | .rdStatus | .rdSrIn | .rdMaxblkIn | .rdFrameCount | .rdDrywet | .rdDepth | .rdRate | .rdPhaseOffset
  | .rdFeedback | .rdType | .rdCfgSr | .rdCfgLen | .rdCfgMaxblk | .rdFramesDone | .rdWheadL | .rdWheadR
  | .rdLfoPhase | .rdFbL | .rdFbR | .rdRsvd _ | .rdIbufL _ | .rdIbufR _ | .rdObufL _ | .rdObufR _
  | .rdBuserr _ _ => false
  | .nop | .configure | .process | .cmdIllegal _ => false

end Sys2Proof

namespace Sys2Proof.Laws

/-- Bit 19 of a transaction's descriptor, W, is 1 exactly for a write (30_encoding R93); a command word has no
descriptor of its own. -/
def DirectionBit.Statement (i : Instr) : Prop :=
  match encode i with
  | .transaction ht _ => ht.getLsbD 19 = i.isWrite
  | .command _ => i.isWrite = false

/-- Bit 19 of a descriptor is its W field (30_encoding R93). -/
theorem descriptor_getLsbD_19 (w : BitVec 1) (size : BitVec 2) (a : BitVec 17) :
    (descriptor w size a).getLsbD 19 = w.getLsbD 0 := by
  have h : (descriptor w size a).getLsbD 19 = (w ++ size ++ a : BitVec (1 + 2 + 17)).getLsbD 19 := rfl
  rw [h]
  simp only [BitVec.getLsbD_append]
  simp

theorem DirectionBit.rdCmd : DirectionBit.Statement .rdCmd := rfl
theorem DirectionBit.rdStatus : DirectionBit.Statement .rdStatus := rfl
theorem DirectionBit.rdSrIn : DirectionBit.Statement .rdSrIn := rfl
theorem DirectionBit.rdMaxblkIn : DirectionBit.Statement .rdMaxblkIn := rfl
theorem DirectionBit.rdFrameCount : DirectionBit.Statement .rdFrameCount := rfl
theorem DirectionBit.rdDrywet : DirectionBit.Statement .rdDrywet := rfl
theorem DirectionBit.rdDepth : DirectionBit.Statement .rdDepth := rfl
theorem DirectionBit.rdRate : DirectionBit.Statement .rdRate := rfl
theorem DirectionBit.rdPhaseOffset : DirectionBit.Statement .rdPhaseOffset := rfl
theorem DirectionBit.rdFeedback : DirectionBit.Statement .rdFeedback := rfl
theorem DirectionBit.rdType : DirectionBit.Statement .rdType := rfl
theorem DirectionBit.rdCfgSr : DirectionBit.Statement .rdCfgSr := rfl
theorem DirectionBit.rdCfgLen : DirectionBit.Statement .rdCfgLen := rfl
theorem DirectionBit.rdCfgMaxblk : DirectionBit.Statement .rdCfgMaxblk := rfl
theorem DirectionBit.rdFramesDone : DirectionBit.Statement .rdFramesDone := rfl
theorem DirectionBit.rdWheadL : DirectionBit.Statement .rdWheadL := rfl
theorem DirectionBit.rdWheadR : DirectionBit.Statement .rdWheadR := rfl
theorem DirectionBit.rdLfoPhase : DirectionBit.Statement .rdLfoPhase := rfl
theorem DirectionBit.rdFbL : DirectionBit.Statement .rdFbL := rfl
theorem DirectionBit.rdFbR : DirectionBit.Statement .rdFbR := rfl
theorem DirectionBit.wrCmd (wdata : Word) : DirectionBit.Statement (.wrCmd wdata) := rfl
theorem DirectionBit.wrStatus (wdata : Word) : DirectionBit.Statement (.wrStatus wdata) := rfl
theorem DirectionBit.wrSrIn (wdata : Word) : DirectionBit.Statement (.wrSrIn wdata) := rfl
theorem DirectionBit.wrMaxblkIn (wdata : Word) : DirectionBit.Statement (.wrMaxblkIn wdata) := rfl
theorem DirectionBit.wrFrameCount (wdata : Word) : DirectionBit.Statement (.wrFrameCount wdata) := rfl
theorem DirectionBit.wrDrywet (wdata : Word) : DirectionBit.Statement (.wrDrywet wdata) := rfl
theorem DirectionBit.wrDepth (wdata : Word) : DirectionBit.Statement (.wrDepth wdata) := rfl
theorem DirectionBit.wrRate (wdata : Word) : DirectionBit.Statement (.wrRate wdata) := rfl
theorem DirectionBit.wrPhaseOffset (wdata : Word) : DirectionBit.Statement (.wrPhaseOffset wdata) := rfl
theorem DirectionBit.wrFeedback (wdata : Word) : DirectionBit.Statement (.wrFeedback wdata) := rfl
theorem DirectionBit.wrType (wdata : Word) : DirectionBit.Statement (.wrType wdata) := rfl
theorem DirectionBit.wrObs (word : BitVec 4) (wdata : Word) : DirectionBit.Statement (.wrObs word wdata) := descriptor_getLsbD_19 _ _ _
theorem DirectionBit.rdRsvd (word : BitVec 5) : DirectionBit.Statement (.rdRsvd word) := descriptor_getLsbD_19 _ _ _
theorem DirectionBit.wrRsvd (word : BitVec 5) (wdata : Word) : DirectionBit.Statement (.wrRsvd word wdata) := descriptor_getLsbD_19 _ _ _
theorem DirectionBit.rdIbufL (k : WindowIndex) : DirectionBit.Statement (.rdIbufL k) := descriptor_getLsbD_19 _ _ _
theorem DirectionBit.wrIbufL (k : WindowIndex) (wdata : Word) : DirectionBit.Statement (.wrIbufL k wdata) := descriptor_getLsbD_19 _ _ _
theorem DirectionBit.rdIbufR (k : WindowIndex) : DirectionBit.Statement (.rdIbufR k) := descriptor_getLsbD_19 _ _ _
theorem DirectionBit.wrIbufR (k : WindowIndex) (wdata : Word) : DirectionBit.Statement (.wrIbufR k wdata) := descriptor_getLsbD_19 _ _ _
theorem DirectionBit.rdObufL (k : WindowIndex) : DirectionBit.Statement (.rdObufL k) := descriptor_getLsbD_19 _ _ _
theorem DirectionBit.wrObufL (k : WindowIndex) (wdata : Word) : DirectionBit.Statement (.wrObufL k wdata) := descriptor_getLsbD_19 _ _ _
theorem DirectionBit.rdObufR (k : WindowIndex) : DirectionBit.Statement (.rdObufR k) := descriptor_getLsbD_19 _ _ _
theorem DirectionBit.wrObufR (k : WindowIndex) (wdata : Word) : DirectionBit.Statement (.wrObufR k wdata) := descriptor_getLsbD_19 _ _ _
theorem DirectionBit.rdBuserr (size : BitVec 2) (a : BitVec 17) : DirectionBit.Statement (.rdBuserr size a) := descriptor_getLsbD_19 _ _ _
theorem DirectionBit.wrBuserr (size : BitVec 2) (a : BitVec 17) (wdata : Word) : DirectionBit.Statement (.wrBuserr size a wdata) := descriptor_getLsbD_19 _ _ _
theorem DirectionBit.nop : DirectionBit.Statement .nop := rfl
theorem DirectionBit.configure : DirectionBit.Statement .configure := rfl
theorem DirectionBit.process : DirectionBit.Statement .process := rfl
theorem DirectionBit.cmdIllegal (v : Word) : DirectionBit.Statement (.cmdIllegal v) := rfl

end Sys2Proof.Laws
end

