-- ==== Sys2Proof/Laws/Ranges.lean ====
section
/-! SUPPORT. What bounds an operation's exact result bounds its rounded result: for add32, sub32, mul32 and div32, in the
signed values of words. Comparisons, conversions and the exact fraction follow. -/

namespace Sys2Proof.Machine

theorem signedValue_of_not_signBit {x : Word} (h : signBit x = false) : signedValue x = magnitude x := by
  simp [signedValue, h]

theorem signedValue_of_signBit {x : Word} (h : signBit x = true) : signedValue x = -(magnitude x : Int) := by
  simp [signedValue, h]

/-- Rounding an exact signed value num / den keeps an upper bound. -/
theorem signedRound_le {num : Int} {den : Nat} {x : Word} (hd : 0 < den) (hx : isFinite x = true)
    (h : num ≤ signedValue x * den) : signedValue (roundRational (decide (num < 0)) num.natAbs den) ≤ signedValue x := by
  have hxa := natAbs_signedValue x
  by_cases hn : num < 0
  · rw [signedValue_of_signBit (by simp [hn])]
    by_cases hs : signedValue x < 0
    · have hb : magnitude x * den ≤ num.natAbs := by
        zify
        rw [← hxa]
        rw [abs_of_neg hn]
        push_cast
        rw [abs_of_neg hs]
        nlinarith
      have := le_roundRational (negative := decide (num < 0)) hd hx hb
      omega
    · omega
  · rw [signedValue_of_not_signBit (by simp [hn])]
    have hs : 0 ≤ signedValue x := by
      by_contra hc
      have : (0 : Int) < den := by exact_mod_cast hd
      nlinarith
    have hb : num.natAbs ≤ magnitude x * den := by
      zify
      rw [← hxa, abs_of_nonneg (by omega)]
      push_cast
      rw [abs_of_nonneg hs]
      exact h
    have := roundRational_le (negative := decide (num < 0)) hd hx hb
    omega

/-- Rounding an exact signed value num / den keeps a lower bound. -/
theorem le_signedRound {num : Int} {den : Nat} {x : Word} (hd : 0 < den) (hx : isFinite x = true)
    (h : signedValue x * den ≤ num) : signedValue x ≤ signedValue (roundRational (decide (num < 0)) num.natAbs den) := by
  have hxa := natAbs_signedValue x
  by_cases hn : num < 0
  · rw [signedValue_of_signBit (x := roundRational _ _ _) (by simp [hn])]
    have hs : signedValue x < 0 := by
      by_contra hc
      have : (0 : Int) < den := by exact_mod_cast hd
      nlinarith
    have hb : num.natAbs ≤ magnitude x * den := by
      zify
      rw [← hxa, abs_of_neg hn]
      push_cast
      rw [abs_of_neg hs]
      nlinarith
    have := roundRational_le (negative := decide (num < 0)) hd hx hb
    omega
  · rw [signedValue_of_not_signBit (x := roundRational _ _ _) (by simp [hn])]
    by_cases hs : signedValue x < 0
    · omega
    · have hb : magnitude x * den ≤ num.natAbs := by
        zify
        rw [← hxa, abs_of_nonneg (by omega)]
        push_cast
        rw [abs_of_nonneg (by omega)]
        exact h
      have := le_roundRational (negative := decide (num < 0)) hd hx hb
      omega

/-- A rounded value between two finite words is finite. -/
theorem isFinite_signedRound {num : Int} {den : Nat} {lo hi : Word} (hd : 0 < den) (hl : isFinite lo = true)
    (hh : isFinite hi = true) (h1 : signedValue lo * den ≤ num) (h2 : num ≤ signedValue hi * den) :
    isFinite (roundRational (decide (num < 0)) num.natAbs den) = true := by
  have hla := natAbs_signedValue lo
  have hha := natAbs_signedValue hi
  by_cases hn : num < 0
  · refine isFinite_roundRational hd hl ?_
    have hs : signedValue lo < 0 := by
      by_contra hc
      have : (0 : Int) < den := by exact_mod_cast hd
      nlinarith
    zify
    rw [← hla, abs_of_neg hn]
    push_cast
    rw [abs_of_neg hs]
    nlinarith
  · refine isFinite_roundRational hd hh ?_
    have hs : 0 ≤ signedValue hi := by
      by_contra hc
      have : (0 : Int) < den := by exact_mod_cast hd
      nlinarith
    zify
    rw [← hha, abs_of_nonneg (by omega)]
    push_cast
    rw [abs_of_nonneg hs]
    exact h2

/-! Sums -/

theorem signedValue_zero (negative : Bool) : signedValue (packWord negative 0) = 0 := by
  unfold signedValue
  rw [magnitude_eq, bitsOf_packWord (by norm_num)]
  simp [magnitudeOfBits]

theorem isFinite_zero (negative : Bool) : isFinite (packWord negative 0) = true := by
  rw [isFinite_iff, bitsOf_packWord (by norm_num)]
  norm_num

theorem add32_le {a b x : Word} (ha : isFinite a = true) (hb : isFinite b = true) (hx : isFinite x = true)
    (h : signedValue a + signedValue b ≤ signedValue x) : signedValue (add32 a b) ≤ signedValue x := by
  rw [add32_of_finite ha hb]
  split
  · rw [signedValue_zero]
    omega
  · exact signedRound_le (by norm_num) hx (by simpa using h)

theorem le_add32 {a b x : Word} (ha : isFinite a = true) (hb : isFinite b = true) (hx : isFinite x = true)
    (h : signedValue x ≤ signedValue a + signedValue b) : signedValue x ≤ signedValue (add32 a b) := by
  rw [add32_of_finite ha hb]
  split
  · rw [signedValue_zero]
    omega
  · exact le_signedRound (by norm_num) hx (by simpa using h)

theorem isFinite_add32 {a b lo hi : Word} (ha : isFinite a = true) (hb : isFinite b = true) (hl : isFinite lo = true)
    (hh : isFinite hi = true) (h1 : signedValue lo ≤ signedValue a + signedValue b)
    (h2 : signedValue a + signedValue b ≤ signedValue hi) : isFinite (add32 a b) = true := by
  rw [add32_of_finite ha hb]
  split
  · exact isFinite_zero _
  · exact isFinite_signedRound (by norm_num) hl hh (by simpa using h1) (by simpa using h2)

theorem bitsOf_negate (x : Word) : bitsOf (negate x) = bitsOf x := by
  unfold bitsOf negate
  have h : (x ^^^ 0x80000000#32).toNat % 2 ^ 31 = (x.toNat ^^^ 2 ^ 31) % 2 ^ 31 := by
    rw [BitVec.toNat_xor]
    rfl
  rw [h]
  apply Nat.eq_of_testBit_eq
  intro i
  simp only [Nat.testBit_mod_two_pow, Nat.testBit_xor, Nat.testBit_two_pow]
  by_cases hi : i < 31
  · have hne : 31 ≠ i := by omega
    simp [hi, hne]
  · simp [hi]

theorem signBit_negate (x : Word) : signBit (negate x) = !signBit x := by
  unfold signBit negate
  have h : (0x80000000#32).msb = true := by decide
  rw [BitVec.msb_xor, h, Bool.xor_true]

@[simp] theorem isFinite_negate (x : Word) : isFinite (negate x) = isFinite x := by
  rw [Bool.eq_iff_iff, isFinite_iff, isFinite_iff, bitsOf_negate]

@[simp] theorem magnitude_negate (x : Word) : magnitude (negate x) = magnitude x := by
  rw [magnitude_eq, magnitude_eq, bitsOf_negate]

@[simp] theorem signedValue_negate (x : Word) : signedValue (negate x) = -signedValue x := by
  unfold signedValue
  rw [signBit_negate, magnitude_negate]
  cases signBit x <;> simp

theorem sub32_le {a b x : Word} (ha : isFinite a = true) (hb : isFinite b = true) (hx : isFinite x = true)
    (h : signedValue a - signedValue b ≤ signedValue x) : signedValue (sub32 a b) ≤ signedValue x :=
  add32_le ha (by simpa using hb) hx (by rw [signedValue_negate]; omega)

theorem le_sub32 {a b x : Word} (ha : isFinite a = true) (hb : isFinite b = true) (hx : isFinite x = true)
    (h : signedValue x ≤ signedValue a - signedValue b) : signedValue x ≤ signedValue (sub32 a b) :=
  le_add32 ha (by simpa using hb) hx (by rw [signedValue_negate]; omega)

theorem isFinite_sub32 {a b lo hi : Word} (ha : isFinite a = true) (hb : isFinite b = true) (hl : isFinite lo = true)
    (hh : isFinite hi = true) (h1 : signedValue lo ≤ signedValue a - signedValue b)
    (h2 : signedValue a - signedValue b ≤ signedValue hi) : isFinite (sub32 a b) = true :=
  isFinite_add32 ha (by simpa using hb) hl hh (by rw [signedValue_negate]; omega) (by rw [signedValue_negate]; omega)

/-! Products -/

theorem mul32_eq_signedRound {a b : Word} (ha : isFinite a = true) (hb : isFinite b = true)
    (h : signedValue a * signedValue b ≠ 0) :
    mul32 a b = roundRational (decide (signedValue a * signedValue b < 0)) (signedValue a * signedValue b).natAbs
      (2 ^ 149) := by
  rw [mul32_of_finite ha hb, Int.natAbs_mul, natAbs_signedValue, natAbs_signedValue]
  congr 1
  have hma : 0 ≤ (magnitude a : Int) := by positivity
  have hmb : 0 ≤ (magnitude b : Int) := by positivity
  have hm := mul_nonneg hma hmb
  cases sa : signBit a <;> cases sb : signBit b <;>
    simp only [signedValue, sa, sb, if_true, Bool.false_eq_true, if_false, neg_mul, mul_neg, neg_neg, ne_eq] at h ⊢ <;>
    first
      | exact (decide_eq_false (by omega)).symm
      | exact (decide_eq_true (by omega)).symm

theorem signedValue_mul32_zero {a b : Word} (ha : isFinite a = true) (hb : isFinite b = true)
    (h : signedValue a * signedValue b = 0) : signedValue (mul32 a b) = 0 ∧ isFinite (mul32 a b) = true := by
  have hm : magnitude a * magnitude b = 0 := by
    rw [← natAbs_signedValue, ← natAbs_signedValue, ← Int.natAbs_mul, h]
    rfl
  rw [mul32_of_finite ha hb, hm]
  have hr : roundMagnitude 0 (2 ^ 149) = 0 := by decide
  unfold roundRational
  rw [hr]
  exact ⟨signedValue_zero _, isFinite_zero _⟩

theorem mul32_le {a b x : Word} (ha : isFinite a = true) (hb : isFinite b = true) (hx : isFinite x = true)
    (h : signedValue a * signedValue b ≤ signedValue x * 2 ^ 149) : signedValue (mul32 a b) ≤ signedValue x := by
  by_cases h0 : signedValue a * signedValue b = 0
  · rw [(signedValue_mul32_zero ha hb h0).1]
    rw [h0] at h
    by_contra hc
    nlinarith
  · rw [mul32_eq_signedRound ha hb h0]
    exact signedRound_le (by positivity) hx (by exact_mod_cast h)

theorem le_mul32 {a b x : Word} (ha : isFinite a = true) (hb : isFinite b = true) (hx : isFinite x = true)
    (h : signedValue x * 2 ^ 149 ≤ signedValue a * signedValue b) : signedValue x ≤ signedValue (mul32 a b) := by
  by_cases h0 : signedValue a * signedValue b = 0
  · rw [(signedValue_mul32_zero ha hb h0).1]
    rw [h0] at h
    by_contra hc
    nlinarith
  · rw [mul32_eq_signedRound ha hb h0]
    exact le_signedRound (by positivity) hx (by exact_mod_cast h)

theorem isFinite_mul32 {a b lo hi : Word} (ha : isFinite a = true) (hb : isFinite b = true) (hl : isFinite lo = true)
    (hh : isFinite hi = true) (h1 : signedValue lo * 2 ^ 149 ≤ signedValue a * signedValue b)
    (h2 : signedValue a * signedValue b ≤ signedValue hi * 2 ^ 149) : isFinite (mul32 a b) = true := by
  by_cases h0 : signedValue a * signedValue b = 0
  · exact (signedValue_mul32_zero ha hb h0).2
  · rw [mul32_eq_signedRound ha hb h0]
    exact isFinite_signedRound (by positivity) hl hh (by exact_mod_cast h1) (by exact_mod_cast h2)

/-! Quotients of a word that is not negative by a positive one -/

theorem div32_eq_round {a b : Word} (ha : isFinite a = true) (hb : isFinite b = true) (h : 0 < magnitude b) :
    div32 a b = roundRational (signBit a != signBit b) (magnitude a * 2 ^ 149) (magnitude b) := by
  unfold div32
  simp [isNaN_of_isFinite ha, isNaN_of_isFinite hb, isInf_of_isFinite ha, isInf_of_isFinite hb, Nat.ne_of_gt h]

/-- The quotient of finite words with sign 0, by a divisor that is not 0, has sign 0, and a bound of the exact quotient
bounds it. -/
theorem div32_nonneg_le {a b x : Word} (ha : isFinite a = true) (hb : isFinite b = true) (hx : isFinite x = true)
    (hsa : signBit a = false) (hsb : signBit b = false) (hpos : 0 < magnitude b)
    (h : magnitude a * 2 ^ 149 ≤ magnitude x * magnitude b) :
    isFinite (div32 a b) = true ∧ signBit (div32 a b) = false ∧ magnitude (div32 a b) ≤ magnitude x := by
  rw [div32_eq_round ha hb hpos]
  exact ⟨isFinite_roundRational hpos hx h, by simp [hsa, hsb], roundRational_le hpos hx h⟩

/-! Comparisons -/

theorem le32_of_finite {a b : Word} (ha : isFinite a = true) (hb : isFinite b = true) :
    le32 a b = decide (signedValue a ≤ signedValue b) := by
  simp [le32, ordered, isNaN_of_isFinite ha, isNaN_of_isFinite hb]

theorem lt32_of_finite {a b : Word} (ha : isFinite a = true) (hb : isFinite b = true) :
    lt32 a b = decide (signedValue a < signedValue b) := by
  simp [lt32, ordered, isNaN_of_isFinite ha, isNaN_of_isFinite hb]

theorem eq32_of_finite {a b : Word} (ha : isFinite a = true) (hb : isFinite b = true) :
    eq32 a b = decide (signedValue a = signedValue b) := by
  simp [eq32, ordered, isNaN_of_isFinite ha, isNaN_of_isFinite hb]

theorem magnitude_lt_of_isFinite {x : Word} (h : isFinite x = true) : magnitude x < 2 ^ 277 := by
  have hb := (isFinite_iff x).1 h
  rw [magnitude_eq]
  calc magnitudeOfBits (bitsOf x) < magnitudeOfBits 0x7F800000 := magnitudeOfBits_lt_iff.2 hb
    _ = 2 ^ 277 := by decide +kernel

/-- A word between two finite words is finite. -/
theorem isFinite_of_le32 {a x b : Word} (ha : isFinite a = true) (hb : isFinite b = true) (h1 : le32 a x = true)
    (h2 : le32 x b = true) : isFinite x = true := by
  simp only [le32, ordered, Bool.and_eq_true, Bool.not_eq_true', decide_eq_true_eq] at h1 h2
  have ma := magnitude_lt_of_isFinite ha
  have mb := magnitude_lt_of_isFinite hb
  have na := natAbs_signedValue a
  have nb := natAbs_signedValue b
  have nx := natAbs_signedValue x
  have hn : ¬ isNaN x = true := by simp [h2.1.1]
  rw [isNaN_iff] at hn
  rw [isFinite_iff]
  by_contra hc
  have hx : bitsOf x = 0x7F800000 := by omega
  have mx : magnitude x = 2 ^ 277 := by
    rw [magnitude_eq, hx]
    decide +kernel
  omega

/-! Conversions -/

/-- Every integer from 1 to 2^24 is a significand of 24 bits times a power of two. -/
theorem exists_scale {n : Nat} (hp : 0 < n) (h : n ≤ 2 ^ 24) : ∃ j, j ≤ 23 ∧ 2 ^ 23 ≤ n * 2 ^ j ∧ n * 2 ^ j ≤ 2 ^ 24 := by
  have hl := Nat.log2_self_le (n := n) (by omega)
  have hu := Nat.lt_log2_self (n := n)
  by_cases hk : Nat.log2 n ≤ 23
  · refine ⟨23 - Nat.log2 n, by omega, ?_, ?_⟩
    · calc 2 ^ 23 = 2 ^ Nat.log2 n * 2 ^ (23 - Nat.log2 n) := by rw [← pow_add]; congr 1; omega
        _ ≤ n * 2 ^ (23 - Nat.log2 n) := Nat.mul_le_mul_right _ hl
    · calc n * 2 ^ (23 - Nat.log2 n) ≤ 2 ^ (Nat.log2 n + 1) * 2 ^ (23 - Nat.log2 n) := Nat.mul_le_mul_right _ (by omega)
        _ = 2 ^ 24 := by rw [← pow_add]; congr 1; omega
  · have : 2 ^ 24 ≤ 2 ^ Nat.log2 n := Nat.pow_le_pow_right (by norm_num) (by omega)
    exact ⟨0, by omega, by omega, by omega⟩

/-- A representable magnitude is encoded by bits below those of infinity. -/
theorem exists_bits {n : Nat} (hp : 0 < n) (h : n ≤ 2 ^ 24) :
    ∃ b, b < 0x7F800000 ∧ magnitudeOfBits b = n * 2 ^ 149 := by
  obtain ⟨j, hj, h1, h2⟩ := exists_scale hp h
  refine ⟨(149 - j) * 2 ^ 23 + n * 2 ^ j, ?_, ?_⟩
  · have : (149 - j) * 2 ^ 23 ≤ 149 * 2 ^ 23 := Nat.mul_le_mul_right _ (by omega)
    omega
  · have e : j + (149 - j) = 149 := by omega
    rw [magnitudeOfBits_add _ _ (.inr h1) h2, mul_assoc, ← pow_add, e]

/-- Every n up to 2^24 is represented: u2f32 is exact (00_scope R12). -/
theorem u2f32_exact {n : Nat} (h : n ≤ 2 ^ 24) :
    isFinite (u2f32 n) = true ∧ signBit (u2f32 n) = false ∧ magnitude (u2f32 n) = n * 2 ^ 149 := by
  rcases Nat.eq_zero_or_pos n with rfl | hp
  · decide +kernel
  · obtain ⟨b, hb, hm⟩ := exists_bits hp h
    have hr : roundMagnitude (n * 2 ^ 149) 1 = b := by
      rw [← hm, ← Nat.mul_one (magnitudeOfBits b)]
      exact roundMagnitude_exact (by norm_num) (by omega)
    refine ⟨?_, by simp [u2f32], ?_⟩
    · rw [isFinite_iff, u2f32, bitsOf_roundRational, hr]
      exact hb
    · rw [u2f32, magnitude_roundRational, hr, hm]

theorem signedValue_u2f32 {n : Nat} (h : n ≤ 2 ^ 24) : signedValue (u2f32 n) = n * 2 ^ 149 := by
  rw [signedValue_of_not_signBit (u2f32_exact h).2.1, (u2f32_exact h).2.2]
  push_cast
  rfl

end Sys2Proof.Machine
end

