-- ==== Sys2Proof/Machine/HostProgram.lean ====
section
/-! DEFINITION. Host programs in the assembler syntax of 30_encoding R102 and R103: what transactions a line issues. A
program is loaded by putting its transactions on the agenda (assumption logs 5 and 24). -/

namespace Sys2Proof.Machine

/-- The registers an operand can name (10_state R25). -/
inductive Register where
  | cmd | status | srIn | maxblkIn | frameCount | drywet | depth | rate | phaseOffset | feedback | type
  | cfgSr | cfgLen | cfgMaxblk | framesDone | wheadL | wheadR | lfoPhase | fbL | fbR
deriving DecidableEq, Repr

/-- The word number of a register: its offset in 10_state R25 divided by 4. -/
def Register.wordNumber : Register → BitVec 5
  | .cmd => 0#5
  | .status => 1#5
  | .srIn => 2#5
  | .maxblkIn => 3#5
  | .frameCount => 4#5
  | .drywet => 8#5
  | .depth => 9#5
  | .rate => 10#5
  | .phaseOffset => 11#5
  | .feedback => 12#5
  | .type => 13#5
  | .cfgSr => 16#5
  | .cfgLen => 17#5
  | .cfgMaxblk => 18#5
  | .framesDone => 19#5
  | .wheadL => 20#5
  | .wheadR => 21#5
  | .lfoPhase => 22#5
  | .fbL => 23#5
  | .fbR => 24#5

/-- An operand: a register or a window element (30_encoding R102). -/
inductive AsmOperand where
  | reg (r : Register)
  | ibufL (k : WindowIndex)
  | ibufR (k : WindowIndex)
  | obufL (k : WindowIndex)
  | obufR (k : WindowIndex)
deriving DecidableEq, Repr

/-- The descriptor of an access to an operand; `w` is 1 for a write (30_encoding R93). -/
def AsmOperand.descriptor (w : BitVec 1) : AsmOperand → Descriptor
  | .reg r => pageDescriptor w r.wordNumber
  | .ibufL k => windowDescriptor w 1#3 k
  | .ibufR k => windowDescriptor w 2#3 k
  | .obufL k => windowDescriptor w 3#3 k
  | .obufR k => windowDescriptor w 4#3 k

/-- A decimal: (−1)^negative · num / den. -/
structure Decimal where
  negative : Bool
  num : Nat
  den : Nat
deriving DecidableEq, Repr

/-- The binary32 word nearest a decimal, ties to even (30_encoding R103). -/
def Decimal.word (d : Decimal) : Word := roundRational d.negative (d.num * 2 ^ 149) d.den

/-- One line of a host program (30_encoding R102, R103). A `wait` polls STATUS until BUSY is 0; how often is not fixed
by the spec, and `polls` says how often in this run. -/
inductive AsmLine where
  | rd (o : AsmOperand)
  | wr (o : AsmOperand) (w : Word)
  | wrf (o : AsmOperand) (d : Decimal)
  | cmdNop
  | cmdConfigure
  | cmdProcess
  | wait (polls : Nat)
  | configure (sr : Decimal) (maxblk : Word) (polls : Nat)
  | process (n : Word) (polls : Nat)
deriving DecidableEq, Repr

/-- A read transaction. -/
def readEvent (o : AsmOperand) : Event := .host (o.descriptor 0#1) 0#32
/-- A write transaction. -/
def writeEvent (o : AsmOperand) (w : Word) : Event := .host (o.descriptor 1#1) w

/-- The transactions of a line, in order (30_encoding R103). -/
def AsmLine.events : AsmLine → List Event
  | .rd o => [readEvent o]
  | .wr o w => [writeEvent o w]
  | .wrf o d => [writeEvent o d.word]
  | .cmdNop => [writeEvent (.reg .cmd) 0x00000000#32]
  | .cmdConfigure => [writeEvent (.reg .cmd) 0x00000001#32]
  | .cmdProcess => [writeEvent (.reg .cmd) 0x00000002#32]
  | .wait polls => List.replicate polls (readEvent (.reg .status))
  | .configure sr maxblk polls =>
    [writeEvent (.reg .srIn) sr.word, writeEvent (.reg .maxblkIn) maxblk, writeEvent (.reg .cmd) 0x00000001#32] ++
      List.replicate polls (readEvent (.reg .status))
  | .process n polls =>
    [writeEvent (.reg .frameCount) n, writeEvent (.reg .cmd) 0x00000002#32] ++
      List.replicate polls (readEvent (.reg .status))

/-- The transactions of a program, in issue order (20_memory R68). -/
def programEvents (p : List AsmLine) : List Event := p.flatMap AsmLine.events

end Sys2Proof.Machine
end

