-- ==== Sys2Proof/Machine/SineReference.lean ====
section
/-! DEFINITION. The reference SINE of 41_lfo R141: sin(2π·p) of the exact phase, rounded once to binary32. The step does not
use it (the sine unit is the implementation's own, `Machine.sine`); the spec's vectors hold for it. Assumption log 10. -/

namespace Sys2Proof.Machine

/-- π/2 in units of 2^−320, rounded down. -/
def halfPi : Nat := 0x1921FB54442D18469898CC51701B839A252049C1114CF98E804177D4C76273644A29410F31C6809BB

/-- The sum of the Taylor series x − x³/3! + x⁵/5! − …, `term` being the next term, the (2n−1)-th power's, in units of
2^−320; `fuel` bounds the number of terms. -/
def sineSeries : (fuel n term x2 : Nat) → (negative : Bool) → Int
  | 0, _, _, _, _ => 0
  | fuel + 1, n, term, x2, negative =>
    let next := term * x2 / 2 ^ 320 / ((2 * n) * (2 * n + 1))
    (if negative then -(term : Int) else term) + sineSeries fuel (n + 1) next x2 (!negative)

/-- sin((π/2)·u) in units of 2^−320 for u = n / 2^147 with 0 ≤ n ≤ 2^147. -/
def sineOfQuarter (n : Nat) : Nat :=
  let x := halfPi * n / 2 ^ 147
  (sineSeries 48 1 x (x * x / 2 ^ 320) false).toNat

/-- The reference SINE (41_lfo R141): the phase is reduced to a quarter turn exactly; the sine of the rest is computed to
more than 2^−300 and rounded once. The quarter turns are exact. -/
def sineReference (p : Word) : Word :=
  let n := magnitude p
  let quadrant := n / 2 ^ 147 % 4
  let rest := n % 2 ^ 147
  let negative := decide (2 ≤ quadrant)
  if quadrant % 2 = 0 then
    (if rest = 0 then 0x00000000#32 else roundRational negative (sineOfQuarter rest) (2 ^ 171))
  else if rest = 0 then (if negative then Config.minusOne else Config.one)
  else roundRational negative (sineOfQuarter (2 ^ 147 - rest)) (2 ^ 171)

end Sys2Proof.Machine
end

