-- ==== Sys2Proof/Tests/Slice0.lean ====
section
/-! SUPPORT. Tests: expected results are the spec's own vectors (95_test_vectors) or hand-written words from 30_encoding, and
the witnesses of the statements' hypotheses. -/

namespace Sys2Proof.Tests

/- One theorem at a time: each waits for the kernel, and elaborating many at once starts a thread for each. -/
set_option Elab.async false

open Sys2Proof.Machine

/-! WellFormed: an ill-formed operation is refused by each check -/

theorem test_illformed_reserved_read : Instr.wellFormed (.rdRsvd 1#5) = false := by decide
theorem test_wellformed_reserved_read : Instr.wellFormed (.rdRsvd 25#5) = true := by decide
theorem test_illformed_reserved_write : Instr.wellFormed (.wrRsvd 25#5 0#32) = false := by decide
theorem test_wellformed_reserved_write : Instr.wellFormed (.wrRsvd 5#5 0#32) = true := by decide
theorem test_illformed_bus_error_read : Instr.wellFormed (.rdBuserr 2#2 0x00004#17) = false := by decide
theorem test_illformed_bus_error_write : Instr.wellFormed (.wrBuserr 2#2 0x13FFC#17 0#32) = false := by decide
theorem test_illformed_command : Instr.wellFormed (.cmdIllegal 2#32) = false := by decide
theorem test_wellformed_command : Instr.wellFormed (.cmdIllegal 3#32) = true := by decide

/-! Decode: words written out from the fields W, SIZE, A of 30_encoding R93 and the offsets of R98 -/

/-- W = 0, SIZE = 10, A = the register's offset (R98), every register read. -/
theorem test_decode_register_reads :
    [0b0_10_00000000000000000#20, 0b0_10_00000000000000100#20, 0b0_10_00000000000001000#20,
      0b0_10_00000000000001100#20, 0b0_10_00000000000010000#20, 0b0_10_00000000000100000#20,
      0b0_10_00000000000100100#20, 0b0_10_00000000000101000#20, 0b0_10_00000000000101100#20,
      0b0_10_00000000000110000#20, 0b0_10_00000000000110100#20, 0b0_10_00000000001000000#20,
      0b0_10_00000000001000100#20, 0b0_10_00000000001001000#20, 0b0_10_00000000001001100#20,
      0b0_10_00000000001010000#20, 0b0_10_00000000001010100#20, 0b0_10_00000000001011000#20,
      0b0_10_00000000001011100#20, 0b0_10_00000000001100000#20].map (fun ht => decodeHT ht 9#32) =
    [.rdCmd, .rdStatus, .rdSrIn, .rdMaxblkIn, .rdFrameCount, .rdDrywet, .rdDepth, .rdRate, .rdPhaseOffset, .rdFeedback,
      .rdType, .rdCfgSr, .rdCfgLen, .rdCfgMaxblk, .rdFramesDone, .rdWheadL, .rdWheadR, .rdLfoPhase, .rdFbL, .rdFbR] := by
  decide

/-- W = 1, SIZE = 10, A = the register's offset (R98), every register write. -/
theorem test_decode_register_writes :
    [0b1_10_00000000000000000#20, 0b1_10_00000000000000100#20, 0b1_10_00000000000001000#20,
      0b1_10_00000000000001100#20, 0b1_10_00000000000010000#20, 0b1_10_00000000000100000#20,
      0b1_10_00000000000100100#20, 0b1_10_00000000000101000#20, 0b1_10_00000000000101100#20,
      0b1_10_00000000000110000#20, 0b1_10_00000000000110100#20].map (fun ht => decodeHT ht 9#32) =
    [.wrCmd 9#32, .wrStatus 9#32, .wrSrIn 9#32, .wrMaxblkIn 9#32, .wrFrameCount 9#32, .wrDrywet 9#32, .wrDepth 9#32,
      .wrRate 9#32, .wrPhaseOffset 9#32, .wrFeedback 9#32, .wrType 9#32] := by
  decide

/-- The page remainder: V-HT-5 to V-HT-9, and the last reserved read, 0x07C. -/
theorem test_decode_page_remainder :
    [0x40014#20, 0xC0018#20, 0x40064#20, 0xC0058#20, 0xC0064#20, 0x4007C#20].map (fun ht => decodeHT ht 9#32) =
    [.rdRsvd 5#5, .wrRsvd 6#5 9#32, .rdRsvd 25#5, .wrObs 6#4 9#32, .wrObs 9#4 9#32, .rdRsvd 31#5] := by
  decide

/-- The windows, regions 001 to 100, with k = 0, 4095, 1, 2 as in V-HT-10 to V-HT-14. -/
theorem test_decode_windows :
    [0b0_10_001_000000000000_00#20, 0b1_10_001_111111111111_00#20, 0b0_10_010_000000000001_00#20,
      0b1_10_010_000000000001_00#20, 0b0_10_011_000000000010_00#20, 0b1_10_011_000000000010_00#20,
      0b0_10_100_111111111111_00#20, 0b1_10_100_111111111111_00#20].map (fun ht => decodeHT ht 9#32) =
    [.rdIbufL 0#12, .wrIbufL 4095#12 9#32, .rdIbufR 1#12, .wrIbufR 1#12 9#32, .rdObufL 2#12, .wrObufL 2#12 9#32,
      .rdObufR 4095#12, .wrObufR 4095#12 9#32] := by
  decide

/-- V-HT-15 to V-HT-22. -/
theorem test_decode_bus_errors :
    [0x54000#20, 0x40080#20, 0x40002#20, 0x00004#20, 0x60004#20, 0xC0002#20, 0xDC000#20, 0xF8000#20].map
      (fun ht => decodeHT ht 9#32) =
    [.rdBuserr 2#2 0x14000#17, .rdBuserr 2#2 0x00080#17, .rdBuserr 2#2 0x00002#17, .rdBuserr 0#2 0x00004#17,
      .rdBuserr 3#2 0x00004#17, .wrBuserr 2#2 0x00002#17 9#32, .wrBuserr 2#2 0x1C000#17 9#32,
      .wrBuserr 3#2 0x18000#17 9#32] := by
  decide

/-- 30_encoding R91, R92; V-CMD-2 to V-CMD-4. -/
theorem test_decode_commands :
    [0x00000000#32, 0x00000001#32, 0x00000002#32, 0x00000003#32, 0x00000011#32, 0xFFFFFFFF#32].map decodeCommand =
    [.nop, .configure, .process, .cmdIllegal 0x00000003#32, .cmdIllegal 0x00000011#32, .cmdIllegal 0xFFFFFFFF#32] := by
  decide

/-- The encodings of R98, word for word. -/
theorem test_encode_samples :
    [Instr.rdFbR, .wrType 7#32, .wrObs 15#4 1#32, .wrIbufR 4095#12 2#32, .wrBuserr 0#2 1#17 3#32, .cmdIllegal 5#32].map
      encode =
    [.transaction 0x40060#20 0#32, .transaction 0xC0034#20 7#32, .transaction 0xC007C#20 1#32,
      .transaction 0xCBFFC#20 2#32, .transaction 0x80001#20 3#32, .command 5#32] := by
  decide

/-- A raw record with bits above a descriptor's 20 is rejected by name (log 14). -/
theorem test_reject_wide_record :
    decodeRecord 24 0x140004 = .error .descriptorTooWide ∧ decodeRecord 64 0 = .error .unknownLength := by
  exact ⟨rfl, rfl⟩

/-! States -/

/-- What an outcome's next state shows. -/
def after {α : Type} (o : Host.Outcome State Fault Refusal) (f : State → α) : Option α :=
  match o with
  | .next t => some (f t)
  | .fault _ => none
  | .refused _ => none

/-- A delay line just after CONFIGURE at 80 Hz. -/
def freshLine : Memory := { zeroed := 160, cells := [] }

/-- Fresh at 80 Hz, idle, blocks of up to 64 frames. -/
def idleAt80 : State :=
  { State.reset with
    srIn := 0x42A00000#32, maxblkIn := 64#32, frameCount := 3#32, configured := true,
    cfgSr := 0x42A00000#32, cfgLen := 160, cfgMaxblk := 64,
    left := { Lane.reset with dl := freshLine }, right := { Lane.reset with dl := freshLine } }

/-- V-FR-1: inputs (1.0, 0.5), then zeros; DRYWET = FEEDBACK = 0.5; a block of 3 frames begins. -/
def blockAt80 : State :=
  { idleAt80 with
    pend := .process, fcl := 3,
    params := { Params.reset with drywet := 0x3F000000#32, feedback := 0x3F000000#32 },
    left := { idleAt80.left with ibuf := { zeroed := 0, cells := [(0, 0x3F800000#32), (1, 0#32), (2, 0#32)] } },
    right := { idleAt80.right with ibuf := { zeroed := 0, cells := [(0, 0x3F000000#32), (1, 0#32), (2, 0#32)] } } }

/-- The same block with channel 0 poisoned. -/
def poisonedAt80 : State := { blockAt80 with left := { blockAt80.left with fb := 0x7FC00000#32 } }

/-- The same at 48000 Hz: the delay is 840 samples, so the read does not reach the word the frame writes. -/
def poisonedAt48000 : State :=
  { poisonedAt80 with
    cfgSr := 0x473B8000#32, cfgLen := 96000,
    left := { poisonedAt80.left with dl := { zeroed := 96000, cells := [] } },
    right := { poisonedAt80.right with dl := { zeroed := 96000, cells := [] } } }

/-- V-CMD-11: SR_IN = 80.0, MAXBLK_IN = 8192, CONFIGURE accepted. -/
def configuring : State :=
  { State.reset with srIn := 0x42A00000#32, maxblkIn := 0x2000#32, pend := .config }

/-! Transactions -/

/-- V-REG-1. -/
theorem test_type_keeps_bit_0 :
    after (exec (.wrType 0xFFFFFFFF#32) State.reset) (fun t => after (exec .rdType t) (·.rdata)) =
      some (some (some 1#32)) := by decide
/-- 10_state R35: 2 selects chorus. -/
theorem test_type_2_is_chorus : after (exec (.wrType 2#32) State.reset) (·.params.effect) = some .chorus := by decide
/-- V-REG-2. -/
theorem test_drywet_keeps_bits :
    after (exec (.wrDrywet 0x7FC00001#32) State.reset) (fun t => after (exec .rdDrywet t) (·.rdata)) =
      some (some (some 0x7FC00001#32)) := by decide
/-- V-REG-4. -/
theorem test_drywet_while_busy :
    after (exec (.wrDrywet 0#32) blockAt80) (fun t => (t.params.drywet, t.errors)) = some (0#32, .reset) := by decide
theorem test_depth : after (exec (.wrDepth 0xBF800000#32) blockAt80) (·.params.depth) = some 0xBF800000#32 := by decide
theorem test_rate : after (exec (.wrRate 0x41A00000#32) blockAt80) (·.params.rate) = some 0x41A00000#32 := by decide
theorem test_phase_offset :
    after (exec (.wrPhaseOffset 0x3E800000#32) blockAt80) (·.params.phaseOffset) = some 0x3E800000#32 := by decide
theorem test_feedback :
    after (exec (.wrFeedback 0x3F800000#32) blockAt80) (·.params.feedback) = some 0x3F800000#32 := by decide
/-- V-REG-5. -/
theorem test_sr_in_while_busy :
    after (exec (.wrSrIn 0x473B8000#32) blockAt80) (fun t => (t.srIn, t.errors.busy)) = some (0x42A00000#32, true) := by
  decide
theorem test_maxblk_in_idle : after (exec (.wrMaxblkIn 0xFFFFFFFF#32) idleAt80) (·.maxblkIn) = some 0xFFFFFFFF#32 := by
  decide
/-- 46_host_bus R283's example. -/
theorem test_frame_count_while_busy :
    after (exec (.wrFrameCount 3#32) configuring) (fun t => (t.frameCount, t.errors.busy)) = some (0#32, true) := by decide
/-- 46_host_bus R320's example. -/
theorem test_ibuf_read_back :
    after (exec (.wrIbufL 5#12 0x3F800000#32) idleAt80) (fun t => after (exec (.rdIbufL 5#12) t) (·.rdata)) =
      some (some (some 0x3F800000#32)) := by decide
theorem test_ibuf_lanes_apart :
    after (exec (.wrIbufR 5#12 0x3F800000#32) idleAt80) (fun t => (t.left.ibuf.cells, t.right.ibuf.cells)) =
      some ([], [(5, 0x3F800000#32)]) := by decide
/-- V-ERR-5. -/
theorem test_ibuf_while_configuring :
    after (exec (.wrIbufL 0#12 0x3F800000#32) configuring) (fun t => (t.left.ibuf.cells, statusWord t)) =
      some ([], 0x00000802#32) := by decide
/-- V-HT-14: a write to the output window is ignored. -/
theorem test_obuf_write_ignored :
    after (exec (.wrObufL 1#12 7#32) idleAt80) (fun t => (t.left, t.errors)) = some (idleAt80.left, .reset) := by decide
/-- V-HT-8. -/
theorem test_obs_write_ignored :
    after (exec (.wrObs 6#4 0x3F000000#32) idleAt80) (fun t => (t.phase, t.errors)) = some (0#32, .reset) := by decide
/-- V-ERR-4 and V-ERR-7. -/
theorem test_bus_error_read :
    after (exec (decodeHT 0x40006#20 0#32) idleAt80) (fun t => (t.rdata, statusWord t)) =
      some (some 0#32, 0x00002001#32) := by decide
theorem test_bus_error_write_while_busy :
    after (exec (decodeHT 0xC0002#20 3#32) configuring) statusWord = some 0x00002002#32 := by decide

/-! Command words -/

/-- V-CMD-1, and V-CMD-20: the NOP is refused while busy (P2 line 9). -/
theorem test_nop_busy : after (exec .nop configuring) statusWord = some 0x00000802#32 := by decide
/-- V-CMD-2 and V-CMD-20. -/
theorem test_illegal_idle : after (exec (.cmdIllegal 3#32) idleAt80) statusWord = some 0x00000401#32 := by decide
theorem test_illegal_busy : after (exec (.wrCmd 3#32) blockAt80) statusWord = some 0x00000803#32 := by decide
/-- V-CMD-21. -/
theorem test_illegal_before_unconfigured : after (exec (.wrCmd 0x12#32) State.reset) statusWord = some 0x00000400#32 := by
  decide
/-- V-CMD-5 and V-CMD-6. -/
theorem test_configure_accepted : after (exec (.wrCmd 1#32) idleAt80) (·.pend) = some .config := by decide +kernel
theorem test_configure_refused :
    after (exec .configure { idleAt80 with srIn := 0x3F000000#32 }) statusWord = some 0x00000201#32 := by decide +kernel
/-- V-CMD-14 and V-CMD-18. -/
theorem test_process_unconfigured : after (exec .process State.reset) statusWord = some 0x00000100#32 := by decide
theorem test_process_count_unsigned :
    after (exec .process { idleAt80 with frameCount := 0x80000000#32 }) statusWord = some 0x00001001#32 := by decide
/-- V-CMD-15 and V-CMD-16. -/
theorem test_process_accepted_at_maximum :
    after (exec (.wrCmd 2#32) { idleAt80 with frameCount := 0x40#32 }) (fun t => (t.fcl, t.framesDone, t.pend)) =
      some (64, 0, .process) := by decide +kernel
/-- V-CMD-19. -/
theorem test_process_zero_frames :
    after (exec .process { idleAt80 with frameCount := 0#32, framesDone := 3 }) (fun t => (t.framesDone, t.pend)) =
      some (0, .none) := by decide

/-- V-CMD-6 to V-CMD-10: the edges of srValid. -/
theorem test_sr_valid :
    [0x3F000000#32, 0x3F800000#32, 0x48800000#32, 0x48800001#32, 0x7F800000#32, 0x7FC00000#32, 0xC2A00000#32, 0#32,
      0x3F7FFFFF#32].map srValid = [false, true, true, false, false, false, false, false, false] := by decide +kernel

/-- V-CMD-13. -/
theorem test_length :
    [0x3F800000#32, 0x3FE00000#32, 0x42A00000#32, 0x472C4400#32, 0x472C4480#32, 0x473B8000#32, 0x48800000#32].map
      (fun s => (delayLength s).toOption) =
    [some 2, some 3, some 160, some 88200, some 88201, some 96000, some 524288] := by decide +kernel

/-- V-CMD-11. -/
theorem test_config_exec :
    after (engineStep sine configuring) (fun t => (t.cfgSr, t.cfgLen, t.cfgMaxblk, t.blkClamped, t.configured)) =
      some (0x42A00000#32, 160, 4096, true, true) := by decide +kernel

/-! Arithmetic and the datapath -/

/-- SPAN_C and SPAN_F (00_scope R15, V-MAP-7). -/
theorem test_span :
    sub32 Config.hiChorus Config.loChorus = Config.spanChorus ∧ sub32 Config.hiFlanger Config.loFlanger = Config.spanFlanger := by
  decide +kernel
/-- V-FR-6, V-LFO-9, V-LFO-11, V-LFO-12. -/
theorem test_arithmetic :
    add32 0x3F800000#32 0x3E999A00#32 = 0x3FA66680#32 ∧ add32 0x3F666666#32 0x3E99999A#32 = 0x3F99999A#32 ∧
      div32 0x3DCCCCCD#32 0x473B8000#32 = 0x360BCF65#32 ∧ mul32 0x473B8000#32 0x3C8F5C28#32 = 0x4451FFFF#32 := by
  decide +kernel
/-- V-S3: a tie rounds to even. -/
theorem test_blend_near_one :
    blend 0x3F7FFFFF#32 0#32 0x3F800000#32 = 0x3F7FFFFF#32 ∧ blend 0x3F7FFFFF#32 0x3F800000#32 0x40000000#32 = 0x40000000#32 := by
  decide +kernel
/-- V-RD-11, V-RD-13, V-RD-14. -/
theorem test_blend_corners :
    blend 0x3EA221A5#32 0x3FF204E5#32 0x3FF204E5#32 = 0x3FF204E6#32 ∧
      blend 0x3F000000#32 0x7F800000#32 0#32 = 0x7F800000#32 ∧
      blend 0x3F000000#32 0x7F800000#32 0xFF800000#32 = 0x7FC00000#32 := by decide +kernel
/-- V-FR-5, its last row too, where the dry weight rounds to 1. -/
theorem test_mix :
    mix 0x3F800000#32 0x3F199A00#32 0x3F000000#32 = 0x3F4CCD00#32 ∧ mix 0x3F000000#32 0x3F400000#32 0x3F400000#32 = 0x3F300000#32 ∧
      mix 0x3F800000#32 0#32 0x33000000#32 = 0x3F800000#32 ∧ mix 0x80000000#32 0x7F800000#32 0x80000000#32 = 0x80000000#32 := by
  decide +kernel
/-- V-LFO-19: the first two advances from 0 by 0.7. -/
theorem test_phase_advance :
    frac32 (add32 0#32 0x3F333333#32) = some 0x3F333333#32 ∧ frac32 (add32 0x3F333333#32 0x3F333333#32) = some 0x3ECCCCCC#32 ∧
      frac32 (add32 0x3F7FFFFF#32 0x41A00000#32) = some 0x00000000#32 := by decide +kernel
/-- V-RD-1 to V-RD-4; and V-RD-6 as rules R181 to R184 and V-FR-2 give it: position 158.6 is that of write head 1 (for
write head 0, which V-RD-6 names, it is 157.6: log 20). -/
theorem test_read_position :
    (readPosition 1 0x3FB33332#32 160).toOption = some ⟨159, 0, 0x3F199A00#32⟩ ∧
      ((readPosition 1 0x40199999#32 160).toOption.map (·.cur)) = some 158 ∧
      ((readPosition 0 0x40199999#32 160).toOption.map (·.cur)) = some 157 := by decide +kernel
/-- V-FR-4: the clamps of out-of-range parameters. -/
theorem test_snapshot :
    snapshot { drywet := 0x7FC00000#32, depth := 0xBF800000#32, rate := 0x42C80000#32, phaseOffset := 0x40000000#32,
               feedback := 0xBF800000#32, effect := .chorus } =
      { dw := 0#32, dp := 0#32, rt := 0x41A00000#32, po := 0x3F800000#32, fbc := 0#32, ty := .chorus } := by decide +kernel
/-- V-LFO-2, V-LFO-4, V-LFO-5: the reference SINE. -/
theorem test_sine_reference :
    sineReference 0x3E000000#32 = 0x3F3504F3#32 ∧ sineReference 0x3F7FFFFF#32 = 0xB4C90FDB#32 ∧
      sineReference 0x3AA3D70A#32 = 0x3C00ADA6#32 ∧ sineReference 0x3DCCCCCD#32 = 0x3F167918#32 := by decide +kernel

/-- V-FR-1, frame 0. -/
theorem test_frame_0 :
    after (engineStep sine blockAt80) (fun t => (t.left.wh, t.left.fb, t.right.fb, t.phase)) =
      some (1, 0x3E999A00#32, 0x3E199A00#32, 0x3AA3D70A#32) ∧
    after (engineStep sine blockAt80) (fun t => (t.left.dl.cells, t.left.obuf.cells, t.right.obuf.cells)) =
      some ([(0, 0x3F800000#32)], [(0, 0x3F4CCD00#32)], [(0, 0x3ECCCD00#32)]) ∧
    after (engineStep sine blockAt80) (fun t => (t.framesDone, t.pend)) = some (1, .process) := by decide +kernel

/-- V-FR-2, frame 1: modulated, both channels at quarter turns, the impulse word in the line. -/
theorem test_frame_modulated :
    after (engineStep sine { blockAt80 with
        framesDone := 1, phase := 0x3E800000#32,
        params := { drywet := 0x3F800000#32, depth := 0x3F800000#32, rate := 0x41A00000#32,
                    phaseOffset := 0x3E800000#32, feedback := 0#32, effect := .chorus },
        left := { blockAt80.left with dl := { freshLine with cells := [(0, 0x3F800000#32)] }, wh := 1 },
        right := { blockAt80.right with dl := { freshLine with cells := [(0, 0x3F800000#32)] }, wh := 1 } })
      (fun t => (t.left.obuf.cells, t.right.obuf.cells, t.phase)) =
    some ([(1, 0x3F199A00#32)], [(1, 0x3ECCCCC8#32)], 0x3F000000#32) := by decide +kernel

/-- V-FR-7, frame 1: the word of frame 0 and the feedback value are NaN, and lane 1 goes on. -/
theorem test_frame_poisoned :
    after (engineStep sineReference { blockAt80 with
        framesDone := 1, phase := 0x3AA3D70A#32,
        left := { blockAt80.left with dl := { freshLine with cells := [(0, 0x7FC00000#32)] }, wh := 1, fb := 0x7FC00000#32 },
        right := { blockAt80.right with
          ibuf := { zeroed := 0, cells := [(0, 0x3F800000#32), (1, 0#32)] },
          dl := { freshLine with cells := [(0, 0x3F800000#32)] }, wh := 1, fb := 0x3E999A00#32 } })
      (fun t => (t.left.obuf.cells, t.left.fb, t.right.obuf.cells, t.right.fb)) =
    some ([(1, 0x7FC00000#32)], 0x7FC00000#32, [(1, 0x3E947AFE#32)], 0x3E947AFE#32) := by decide +kernel
/-- 93_implementation_defined I5: a NaN goes into the line, the wet output and the feedback value stay NaN, and no error
bit is set, also where the delay line read is all zeros. -/
theorem test_poison_with_a_long_delay :
    after (engineStep sine poisonedAt48000) (fun t => (t.left.dl.cells, t.left.obuf.cells, t.left.fb, t.right.fb)) =
      some ([(0, 0x7FC00000#32)], [(0, 0x7FC00000#32)], 0x7FC00000#32, 0x00000000#32) ∧
    after (engineStep sine poisonedAt48000) (·.errors) = some Errors.reset := by decide +kernel

/-- V-RST-5: RESET during a block. -/
theorem test_reset_in_a_block :
    after (step { blockAt80 with framesDone := 5, agenda := [.reset] }) (fun t => (statusWord t, t.framesDone, t.params.rate)) =
      some (0#32, 0, 0x3DCCCCCD#32) := by decide +kernel

/-- 30_encoding R103: the lines `cmd PROCESS` and `wrf SR_IN, 80` are the transactions of program P1. -/
theorem test_program_lines :
    programEvents [.wrf (.reg .srIn) ⟨false, 80, 1⟩, .cmdProcess, .rd (.obufR 2#12)] =
      [.host 0xC0008#20 0x42A00000#32, .host 0xC0000#20 2#32, .host 0x50008#20 0#32] := by decide +kernel

/-! Witnesses of hypotheses -/

theorem inv_reset : Inv State.reset where
  leftWf := by decide
  rightWf := by decide
  phase := by decide +kernel
  maxblk := by decide
  framesDone := by decide
  whenConfigured := fun h => absurd h (by decide)
  whenUnconfigured := fun _ => by constructor <;> decide
  whenProcessing := fun h => absurd h (by decide)
  whenConfiguring := fun h => absurd h (by decide)

theorem configuredInv_at80 {s : State} (hs : s.cfgSr = 0x42A00000#32) (hl : s.cfgLen = 160)
    (hw : s.left.wh = 0 ∧ s.right.wh = 0) (hz : s.left.dl.zeroed = 160 ∧ s.right.dl.zeroed = 160) : ConfiguredInv s where
  rateValid := by rw [hs]; decide +kernel
  lengthOfRate := by rw [hs, hl]; exact (by decide +kernel : delayLength 0x42A00000#32 = .ok 160)
  lengthLow := by rw [hl]; decide
  lengthHigh := by rw [hl]; decide
  headsEqual := by rw [hw.1, hw.2]
  headLow := by rw [hw.1, hl]; decide
  leftZeroed := by rw [hl, hz.1]
  rightZeroed := by rw [hl, hz.2]

/-- Configured and idle. -/
theorem inv_idleAt80 : Inv idleAt80 where
  leftWf := by decide +kernel
  rightWf := by decide +kernel
  phase := by decide +kernel
  maxblk := by decide
  framesDone := by decide
  whenConfigured := fun _ => configuredInv_at80 rfl rfl ⟨rfl, rfl⟩ ⟨rfl, rfl⟩
  whenUnconfigured := fun h => absurd h (by decide)
  whenProcessing := fun h => absurd h (by decide)
  whenConfiguring := fun h => absurd h (by decide)

/-- Configured, with a block in progress. -/
theorem inv_blockAt80 : Inv blockAt80 where
  leftWf := by decide +kernel
  rightWf := by decide +kernel
  phase := by decide +kernel
  maxblk := by decide
  framesDone := by decide
  whenConfigured := fun _ => configuredInv_at80 rfl rfl ⟨rfl, rfl⟩ ⟨rfl, rfl⟩
  whenUnconfigured := fun h => absurd h (by decide)
  whenProcessing := fun _ => by constructor <;> decide
  whenConfiguring := fun h => absurd h (by decide)

/-- Configured, with a block in progress and channel 0 poisoned. -/
theorem inv_poisonedAt80 : Inv poisonedAt80 where
  leftWf := by decide +kernel
  rightWf := by decide +kernel
  phase := by decide +kernel
  maxblk := by decide
  framesDone := by decide
  whenConfigured := fun _ => configuredInv_at80 rfl rfl ⟨rfl, rfl⟩ ⟨rfl, rfl⟩
  whenUnconfigured := fun h => absurd h (by decide)
  whenProcessing := fun _ => by constructor <;> decide
  whenConfiguring := fun h => absurd h (by decide)

/-- Unconfigured, with a configuration pending. -/
theorem inv_configuring : Inv configuring where
  leftWf := by decide
  rightWf := by decide
  phase := by decide +kernel
  maxblk := by decide
  framesDone := by decide
  whenConfigured := fun h => absurd h (by decide)
  whenUnconfigured := fun _ => by constructor <;> decide
  whenProcessing := fun h => absurd h (by decide)
  whenConfiguring := fun _ => by decide +kernel

/-- The block's second frame: its input words are 0. -/
def silentAt80 : State := { blockAt80 with framesDone := 1 }

theorem inv_silentAt80 : Inv silentAt80 where
  leftWf := by decide +kernel
  rightWf := by decide +kernel
  phase := by decide +kernel
  maxblk := by decide
  framesDone := by decide
  whenConfigured := fun _ => configuredInv_at80 rfl rfl ⟨rfl, rfl⟩ ⟨rfl, rfl⟩
  whenUnconfigured := fun h => absurd h (by decide)
  whenProcessing := fun _ => by constructor <;> decide
  whenConfiguring := fun h => absurd h (by decide)

theorem next_of_after {α : Type} {o : Host.Outcome State Fault Refusal} {f : State → α} {x : α}
    (h : after o f = some x) : ∃ t, o = .next t ∧ f t = x := by
  cases o with
  | next t => exact ⟨t, rfl, by simpa [after] using h⟩
  | fault r => simp [after] at h
  | refused r => simp [after] at h

theorem next_frame_blockAt80 : ∃ t, engineStep sine blockAt80 = .next t ∧ t.pend = .process :=
  next_of_after (by decide +kernel : after (engineStep sine blockAt80) (·.pend) = some .process)

/-- The last frame of the block returns PEND to NONE. -/
theorem next_last_frame :
    ∃ t, engineStep sine { blockAt80 with framesDone := 2 } = .next t ∧ t.pend = .none :=
  next_of_after (by decide +kernel : after (engineStep sine { blockAt80 with framesDone := 2 }) (·.pend) = some .none)

theorem next_configuring : ∃ t, engineStep sine configuring = .next t ∧ t.pend = .none :=
  next_of_after (by decide +kernel : after (engineStep sine configuring) (·.pend) = some .none)

theorem witness_DecodeInvertsEncode :
    Instr.wellFormed (.wrIbufR 4095#12 9#32) = true ∧ Instr.wellFormed (.wrRsvd 15#5 9#32) = true ∧
      Instr.wellFormed (.rdBuserr 2#2 0x14000#17) = true ∧ Instr.wellFormed (.cmdIllegal 3#32) = true := by decide

theorem witness_StepPerformsTheNextAgendaEntry :
    ({ blockAt80 with agenda := [.host 0x40004#20 0#32] }.agenda = .host 0x40004#20 0#32 :: [] ∧
      decodeHT 0x40004#20 0#32 = .rdStatus) ∧
    { blockAt80 with agenda := [.engine] }.agenda = .engine :: [] ∧ blockAt80.agenda = [] ∧
    { blockAt80 with agenda := [.reset] }.agenda = .reset :: [] ∧ idleAt80.pend = .none := by decide

theorem witness_StepRunsThePlacedRecord :
    decodeTableWord 20 0xC0034 = some (.wrType 0#32) ∧ decodeTableWord 32 1 = some .configure := by decide

theorem witness_ConfigurationRegisterReads :
    (Inv configuring ∧ configuring.configured = false) ∧ Inv idleAt80 ∧ idleAt80.configured = true :=
  ⟨⟨inv_configuring, rfl⟩, inv_idleAt80, rfl⟩

theorem witness_EngineRegisterReads : Inv blockAt80 ∧ blockAt80.configured = true := ⟨inv_blockAt80, rfl⟩

/-- The first and the last reserved offset decode to RD_RSVD; CMD, which its mask matches too, does not. -/
theorem witness_ReservedWordsReadZero :
    (0x40014#20 &&& 0xFFF83#20 = 0x40000#20 ∧ (0x40014#20).extractLsb' 2 5 = 5#5 ∧
      decodeHT 0x40014#20 0#32 = .rdRsvd 5#5) ∧
    (0x4007C#20 &&& 0xFFF83#20 = 0x40000#20 ∧ (0x4007C#20).extractLsb' 2 5 = 31#5 ∧
      decodeHT 0x4007C#20 0#32 = .rdRsvd 31#5) ∧
    0x40000#20 &&& 0xFFF83#20 = 0x40000#20 ∧ decodeHT 0x40000#20 0#32 = .rdCmd := by decide

theorem witness_InputWindowReads :
    0x47FFC#20 &&& 0xFC003#20 = 0x44000#20 ∧ 0x48000#20 &&& 0xFC003#20 = 0x48000#20 ∧
      (blockAt80.lane .left).ibuf.read (0#12).toNat = some 0x3F800000#32 ∧
      (blockAt80.lane .right).ibuf.read (4095#12).toNat = none := by decide

theorem witness_OutputWindowReads :
    0x4C000#20 &&& 0xFC003#20 = 0x4C000#20 ∧ 0x53FFC#20 &&& 0xFC003#20 = 0x50000#20 ∧
      ({ blockAt80 with left := { blockAt80.left with obuf := { zeroed := 0, cells := [(0, 7#32)] } } }.lane .left).obuf.read
        (0#12).toNat = some 7#32 ∧
      (blockAt80.lane .right).obuf.read (4095#12).toNat = none := by decide

theorem witness_ReadsHaveNoSideEffect :
    Instr.isMappedRead (.rdIbufL 4095#12) = true ∧ Instr.isMappedRead .rdStatus = true ∧
      Instr.storesAWord (.wrIbufR 0#12 7#32) = true ∧ Instr.storesAWord (.wrType 3#32) = true := by decide

theorem witness_IgnoredWritesChangeNothing :
    0xC0040#20 &&& 0xFFFC3#20 = 0xC0040#20 ∧ 0xC007C#20 &&& 0xFFFC3#20 = 0xC0040#20 ∧
      (0xC003C#20 &&& 0xFFF83#20 = 0xC0000#20 ∧ (0xC003C#20).extractLsb' 2 5 ∈ [5#5, 6#5, 7#5, 14#5, 15#5]) ∧
      0xCFFFC#20 &&& 0xFC003#20 = 0xCC000#20 ∧ 0xD0000#20 &&& 0xFC003#20 = 0xD0000#20 := by decide

theorem witness_OperandWritesUnderBusyLockout :
    idleAt80.pend = .none ∧ blockAt80.pend ≠ .none ∧ configuring.pend ≠ .none := by decide

theorem witness_InputWindowWritesUnderBusyLockout :
    0xC7FFC#20 &&& 0xFC003#20 = 0xC4000#20 ∧ 0xC8000#20 &&& 0xFC003#20 = 0xC8000#20 ∧
      idleAt80.pend = .none ∧ configuring.pend ≠ .none := by decide

theorem witness_BusErrorsSetOnlyErrBus :
    (0x00004#20).extractLsb' 17 2 ≠ 2#2 ∧ (0x40002#20).extractLsb' 0 2 ≠ 0#2 ∧ 5#3 ≤ (0x54000#20).extractLsb' 14 3 ∧
      (0xC0080#20).extractLsb' 14 3 = 0#3 ∧ (0xC0080#20).extractLsb' 7 7 ≠ 0#7 := by decide

theorem witness_NopAndIllegalCommandWords :
    idleAt80.pend = .none ∧ blockAt80.pend ≠ .none ∧ 3#4 ≤ (3#32).extractLsb' 0 4 ∧
      (0x10#32).extractLsb' 4 28 ≠ 0#28 := by decide

theorem witness_ConfigureAcceptance :
    (idleAt80.pend = .none ∧ srValid idleAt80.srIn = true) ∧ (State.reset.pend = .none ∧ srValid State.reset.srIn = false) ∧
      blockAt80.pend ≠ .none ∧ configuring.pend = .config := by decide +kernel

theorem witness_ProcessAcceptance :
    (({ idleAt80 with frameCount := 64#32 }).pend = .none ∧ ({ idleAt80 with frameCount := 64#32 }).configured = true ∧
      ({ idleAt80 with frameCount := 64#32 }).frameCount.toNat ≤ idleAt80.cfgMaxblk ∧
      ({ idleAt80 with frameCount := 64#32 }).frameCount ≠ 0#32) ∧
    ({ idleAt80 with frameCount := 0#32 }).frameCount = 0#32 ∧
    idleAt80.cfgMaxblk < ({ idleAt80 with frameCount := 65#32 }).frameCount.toNat ∧
    (State.reset.pend = .none ∧ State.reset.configured = false) ∧ blockAt80.pend ≠ .none := by decide

theorem witness_BusyLockoutSparesTheOtherTransactions :
    blockAt80.pend ≠ .none ∧ Instr.isCommand (.wrIbufL 0#12 0#32) = false ∧
      Instr.underBusyLockout (.wrIbufL 0#12 0#32) = true ∧
      Instr.underBusyLockout (.wrDrywet 7#32) = false ∧ Instr.isCommand (.wrDrywet 7#32) = false := by decide

/-- An error bit set, and a step that is no RESET; and a RESET. -/
theorem witness_ErrorBitsStayUntilReset :
    (∃ t, step { State.reset with errors := { Errors.reset with bus := true }, agenda := [.host 0xC0004#20 7#32] } = .next t) ∧
    ¬ ResetTurn { State.reset with errors := { Errors.reset with bus := true }, agenda := [.host 0xC0004#20 7#32] } ∧
    ({ Errors.reset with bus := true }).get .bus = true ∧ ResetTurn { blockAt80 with agenda := [.reset] } :=
  ⟨⟨_, rfl⟩, fun h => by obtain ⟨_, h⟩ := h; simp at h, rfl, ⟨[], rfl⟩⟩

theorem witness_OnlyResetUnconfigures :
    ((∃ t, step { idleAt80 with agenda := [.host 0x40004#20 0#32] } = .next t ∧ t.configured = true) ∧
      ¬ ResetTurn { idleAt80 with agenda := [.host 0x40004#20 0#32] }) ∧
    (configuring.configured = false ∧ ∃ t, step configuring = .next t ∧ t.configured = true) ∧
    ResetTurn { idleAt80 with agenda := [.reset] } :=
  ⟨⟨⟨_, rfl, rfl⟩, fun h => by obtain ⟨_, h⟩ := h; simp at h⟩,
    ⟨rfl, next_of_after (by decide +kernel : after (step configuring) (·.configured) = some true)⟩, ⟨[], rfl⟩⟩

theorem witness_PendChangesOnlyByCommandOrCompletion :
    (idleAt80.pend = .none ∧
      (∃ t, step { idleAt80 with agenda := [.host 0xC0000#20 1#32] } = .next t ∧ t.pend = .config) ∧
      ∃ t, step { idleAt80 with agenda := [.host 0xC0000#20 2#32] } = .next t ∧ t.pend = .process) ∧
    (∃ t, step { blockAt80 with framesDone := 2 } = .next t ∧ t.pend = .none) ∧
    (∃ t, step configuring = .next t ∧ t.pend = .none) ∧ ∃ t, step blockAt80 = .next t ∧ t.pend = .process :=
  ⟨⟨rfl, next_of_after
      (by decide +kernel : after (step { idleAt80 with agenda := [.host 0xC0000#20 1#32] }) (·.pend) = some .config),
      next_of_after
      (by decide +kernel : after (step { idleAt80 with agenda := [.host 0xC0000#20 2#32] }) (·.pend) = some .process)⟩,
    next_last_frame, next_configuring, next_frame_blockAt80⟩

theorem next_step_blockAt80 : ∃ t, step blockAt80 = .next t ∧ t.framesDone = 1 :=
  next_of_after (by decide +kernel : after (step blockAt80) (·.framesDone) = some 1)

/-- A frame step; and a host transaction while a block is in progress. -/
theorem witness_FramesDoneAdvancesByFrameStepsOnly :
    ((∃ t, step blockAt80 = .next t ∧ t.framesDone = 1) ∧ EngineTurn blockAt80 ∧ blockAt80.pend = .process) ∧
    (∃ t, step { blockAt80 with agenda := [.host 0xC4000#20 7#32] } = .next t) ∧
    ¬ (EngineTurn { blockAt80 with agenda := [.host 0xC4000#20 7#32] } ∧ blockAt80.pend = .process) :=
  ⟨⟨next_step_blockAt80, .inl rfl, rfl⟩, ⟨_, rfl⟩, fun h => by rcases h.1 with h | ⟨_, h⟩ <;> simp at h⟩

theorem witness_PendingCommandKeepsItsOperands :
    (∃ t, step { blockAt80 with agenda := [.host 0xC4000#20 7#32] } = .next t) ∧
    ¬ ResetTurn { blockAt80 with agenda := [.host 0xC4000#20 7#32] } ∧ blockAt80.pend ≠ .none :=
  ⟨⟨_, rfl⟩, fun h => by obtain ⟨_, h⟩ := h; simp at h, by decide⟩

theorem witness_EngineRaisesNoError :
    (∃ t, engineStep sine blockAt80 = .next t ∧ t.pend = .process) ∧ ∃ t, engineStep sine idleAt80 = .next t :=
  ⟨next_frame_blockAt80, ⟨_, rfl⟩⟩

theorem witness_ResetEventRestoresTheResetState : { blockAt80 with agenda := [.reset, .engine] }.agenda = .reset :: [.engine] :=
  rfl

theorem witness_ConfigurationStepEffect :
    configuring.pend = .config ∧ srValid configuring.srIn = true ∧
      srValid ({ configuring with srIn := 0x3F800000#32 }).srIn = true ∧
      srValid ({ configuring with srIn := 0x48800000#32 }).srIn = true := by decide +kernel

theorem witness_ReconfigurationIsIdempotent :
    configuring.pend = .config ∧ srValid configuring.srIn = true ∧ ∃ t, engineStep sine configuring = .next t ∧ t.pend = .none :=
  ⟨rfl, by decide +kernel, next_configuring⟩

/-- A channel with a finite feedback value, and one with a NaN. -/
theorem witness_FrameStepComputesTheFrameRule :
    (Inv blockAt80 ∧ blockAt80.pend = .process ∧ isNaN (blockAt80.lane .left).fb = false) ∧
    Inv poisonedAt80 ∧ poisonedAt80.pend = .process ∧ isNaN (poisonedAt80.lane .left).fb = true :=
  ⟨⟨inv_blockAt80, rfl, by decide⟩, inv_poisonedAt80, rfl, by decide⟩

theorem next_frame_poisonedAt48000 : ∃ t, engineStep sine poisonedAt48000 = .next t ∧ t.pend = .process :=
  next_of_after (by decide +kernel : after (engineStep sine poisonedAt48000) (·.pend) = some .process)

theorem next_step_poisonedAt48000 : ∃ t, step poisonedAt48000 = .next t ∧ t.pend = .process :=
  next_of_after (by decide +kernel : after (step poisonedAt48000) (·.pend) = some .process)

/-- A frame, a RESET and a configuration of a poisoned channel; and the two ways in which FB becomes a NaN. -/
theorem witness_PoisonedChannelStaysPoisonedUntilConfigure :
    isNaN (poisonedAt48000.lane .left).fb = true ∧
    (∃ t, engineStep sine poisonedAt48000 = .next t ∧ t.pend = .process) ∧
    ((∃ t, step { poisonedAt48000 with agenda := [.reset] } = .next t) ∧
      ResetTurn { poisonedAt48000 with agenda := [.reset] }) ∧
    ((∃ t, step { poisonedAt48000 with pend := .config } = .next t ∧ t.pend = .none) ∧
      EngineTurn { poisonedAt48000 with pend := .config }) ∧
    ((∃ t, step poisonedAt48000 = .next t ∧ t.pend = .process) ∧ ¬ ResetTurn poisonedAt48000 ∧
      ¬ (EngineTurn poisonedAt48000 ∧ poisonedAt48000.pend = .config)) ∧
    isNaN 0x7FC00000#32 = true ∧ isInf 0xFF800000#32 = true ∧ eq32 0x80000000#32 0x00000000#32 = true :=
  ⟨by decide, next_frame_poisonedAt48000, ⟨⟨_, rfl⟩, ⟨[], rfl⟩⟩,
    ⟨next_of_after (by decide +kernel : after (step { poisonedAt48000 with pend := .config }) (·.pend) = some .none), .inl rfl⟩,
    ⟨next_step_poisonedAt48000, fun h => (by obtain ⟨_, h⟩ := h; cases h), fun h => absurd h.2 (by decide)⟩,
    by decide +kernel⟩

theorem witness_BypassesCopyBitForBit :
    (eq32 0x80000000#32 0x00000000#32 = true ∧ 524287 < Config.dlDepth) ∧ eq32 0x3F800000#32 0x3F800000#32 = true ∧
    (eq32 0x3F000000#32 0#32 = false ∧ eq32 0x3F000000#32 0x3F800000#32 = false) ∧
    (∃ t, engineStep sine { blockAt80 with params := { blockAt80.params with drywet := 0x7FC00000#32 } } = .next t ∧
      t.pend = .process) ∧
    isNaN 0x7FC00000#32 = true ∧ le32 0x80000000#32 0#32 = true :=
  ⟨by decide +kernel, by decide +kernel, by decide +kernel,
    next_of_after (by decide +kernel : after (engineStep sine
      { blockAt80 with params := { blockAt80.params with drywet := 0x7FC00000#32 } }) (·.pend) = some .process),
    by decide +kernel, by decide +kernel⟩

theorem witness_LanesDoNotAffectEachOther :
    blockAt80.pend = .process ∧ (∃ t, engineStep sine blockAt80 = .next t ∧ t.pend = .process) ∧
    (∃ t, engineStep sine { blockAt80 with right := { blockAt80.right with fb := 0x7FC00000#32 } } = .next t ∧ t.pend = .process) ∧
    ∃ t, engineStep sine { blockAt80 with left := { blockAt80.left with fb := 0x7FC00000#32 } } = .next t ∧ t.pend = .process :=
  ⟨rfl, next_frame_blockAt80,
    next_of_after (by decide +kernel : after (engineStep sine
      { blockAt80 with right := { blockAt80.right with fb := 0x7FC00000#32 } }) (·.pend) = some .process),
    next_of_after (by decide +kernel : after (engineStep sine
      { blockAt80 with left := { blockAt80.left with fb := 0x7FC00000#32 } }) (·.pend) = some .process)⟩

/-- Two states that differ in input word 2 of channel 0, run through one frame. -/
theorem witness_OutputDoesNotDependOnLaterInput :
    SameButLaterInputs 2 blockAt80
      { blockAt80 with left := { blockAt80.left with
          ibuf := { zeroed := 0, cells := [(0, 0x3F800000#32), (1, 0#32), (2, 7#32)] } } } ∧
    blockAt80.agenda = [] ∧ blockAt80.framesDone + 1 ≤ 2 ∧
    ∃ t : State, Host.Core.run core 1 blockAt80 = .next t ∧ t.framesDone = 1 := by
  refine ⟨⟨rfl, fun c j hj => ?_⟩, rfl, by decide, ?_⟩
  · interval_cases j <;> cases c <;> rfl
  · exact next_of_after (by decide +kernel : after (Host.Core.run core 1 blockAt80) (fun t : State => t.framesDone) = some 1)

theorem witness_BlockCompletesAfterItsFrames :
    (Inv blockAt80 ∧ blockAt80.agenda = [] ∧ blockAt80.pend = .process ∧ 2 < blockAt80.fcl - blockAt80.framesDone) ∧
    Inv configuring ∧ configuring.agenda = [] ∧ configuring.pend = .config :=
  ⟨⟨inv_blockAt80, rfl, rfl, by decide⟩, inv_configuring, rfl, rfl⟩

/-- 1 + 2^−24 is a tie between 1 and its successor; the largest finite word doubled overflows, upwards and downwards;
1 − 1 is an exact 0; infinities with a finite word, with themselves and with their negation. -/
theorem witness_AdditionRoundsToNearestEven :
    (isFinite 0x3F800000#32 = true ∧ isFinite 0x33800000#32 = true ∧ isFinite 0x3F800001#32 = true) ∧
    (isFinite (add32 0x3F800000#32 0x33800000#32) = true ∧ isFinite (sub32 0x3F800000#32 0xB3800000#32) = true ∧
      signedValue 0x3F800001#32 ≠ signedValue (add32 0x3F800000#32 0x33800000#32)) ∧
    (isFinite 0x7F7FFFFF#32 = true ∧ isFinite 0xFF7FFFFF#32 = true ∧
      isFinite (add32 0x7F7FFFFF#32 0x7F7FFFFF#32) = false ∧ isFinite (sub32 0xFF7FFFFF#32 0x7F7FFFFF#32) = false) ∧
    (signedValue 0x80000000#32 + signedValue 0x80000000#32 = 0 ∧ signedValue 0x3F800000#32 - signedValue 0x3F800000#32 = 0) ∧
    (isInf 0xFF800000#32 = true ∧ isInf 0x7F800000#32 = true ∧ signBit 0xFF800000#32 ≠ signBit 0x7F800000#32) := by
  decide +kernel

/-- The smallest subnormal times 1/2 is a tie between 0 and itself; an infinity times a finite word and times itself. -/
theorem witness_MultiplicationRoundsToNearestEven :
    (isFinite 0x00000001#32 = true ∧ isFinite 0x3F000000#32 = true ∧
      isFinite (mul32 0x00000001#32 0x3F000000#32) = true ∧
      signedValue 0x00000001#32 ≠ signedValue (mul32 0x00000001#32 0x3F000000#32)) ∧
    isFinite (mul32 0x7F7FFFFF#32 0x40000000#32) = false ∧
    (isInf 0xFF800000#32 = true ∧ isNaN 0x00000001#32 = false ∧ magnitude 0x00000001#32 ≠ 0) ∧
    isNaN 0xFF800000#32 = false ∧ magnitude 0xFF800000#32 ≠ 0 := by decide +kernel

/-- The smallest subnormal divided by 2 is a tie; an infinity by 0, 1 by −0, and 0 by an infinity. -/
theorem witness_DivisionRoundsToNearestEven :
    (isFinite 0x00000001#32 = true ∧ isFinite 0x40000000#32 = true ∧ magnitude 0x40000000#32 ≠ 0 ∧
      isFinite (div32 0x00000001#32 0x40000000#32) = true ∧
      signedValue 0x00000001#32 ≠ signedValue (div32 0x00000001#32 0x40000000#32)) ∧
    isFinite (div32 0x7F7FFFFF#32 0x00000001#32) = false ∧
    (isInf 0x7F800000#32 = true ∧ isFinite 0x00000000#32 = true) ∧
    (isFinite 0x3F800000#32 = true ∧ magnitude 0x3F800000#32 ≠ 0 ∧ magnitude 0x80000000#32 = 0) := by decide +kernel

theorem witness_NaNResultsAreCanonical :
    isNaN 0xFFC12345#32 = true ∧ (isInf 0x7F800000#32 = true ∧ isInf 0xFF800000#32 = true ∧
      signBit 0x7F800000#32 ≠ signBit 0xFF800000#32) ∧ magnitude 0x80000000#32 = 0 ∧
      isNaN (add32 0xFFC12345#32 0#32) = true ∧ isNaN (sub32 0#32 0xFFC12345#32) = true ∧
      isNaN (mul32 0x7F800000#32 0#32) = true ∧ isNaN (div32 0#32 0#32) = true := by decide +kernel

theorem witness_ClampKeepsTheRange :
    le32 0x00000000#32 0x3F800000#32 = true ∧ isNaN 0x7FC00000#32 = true ∧
      (le32 0x00000000#32 0x80000000#32 = true ∧ le32 0x80000000#32 0x3F800000#32 = true) ∧
      le32 0x00000000#32 0x3F800000#32 = true ∧ le32 0x3F800000#32 0x3F800000#32 = true := by decide +kernel

theorem witness_PhaseStaysInOneTurn :
    phaseInTurn 0x3F7FFFFF#32 = true ∧ phaseInTurn 0x00000000#32 = true ∧
      (le32 Config.rateMin 0x41A00000#32 = true ∧ le32 0x41A00000#32 Config.rateMax = true ∧ srValid 0x3F800000#32 = true) ∧
      le32 0x00000000#32 0x80000000#32 = true ∧ le32 0x80000000#32 Config.one = true := by decide +kernel

theorem witness_EffectMapTableRangeAndOrder :
    le32 Config.minusOne 0xBF800000#32 = true ∧ le32 0xBF800000#32 0x3F800000#32 = true ∧
      le32 0x3F800000#32 Config.one = true := by decide +kernel

theorem witness_DepthZeroGivesTheMidRangeDelay :
    eq32 0x00000000#32 0x00000000#32 = true ∧ eq32 0x80000000#32 0x00000000#32 = true := by decide +kernel

theorem witness_ReadPositionIsInRange :
    srValid 0x3F800000#32 = true ∧ delayLength 0x3F800000#32 = .ok 2 ∧ (0 < 2 ∧ 1 < 2) ∧
      le32 Config.minusOne 0xBF800000#32 = true ∧ le32 0xBF800000#32 Config.one = true ∧
      srValid 0x48800000#32 = true ∧ delayLength 0x48800000#32 = .ok 524288 := by decide +kernel

theorem withinPeak_silentAt80 (c : Channel) : WithinPeak silentAt80 c 64 := by
  cases c <;> refine ⟨by decide +kernel, by decide +kernel, ?_⟩
  · exact (by decide +kernel : ∀ i, i < 160 →
      isFinite (delayWord silentAt80 .left i) = true ∧ magnitude (delayWord silentAt80 .left i) ≤ 64)
  · exact (by decide +kernel : ∀ i, i < 160 →
      isFinite (delayWord silentAt80 .right i) = true ∧ magnitude (delayWord silentAt80 .right i) ≤ 64)

theorem silentInput_silentAt80 (c : Channel) : SilentInput silentAt80 c := by
  unfold SilentInput
  cases c <;> decide

theorem next_frame_silentAt80 : ∃ t, engineStep sine silentAt80 = .next t ∧ t.framesDone = 2 :=
  next_of_after (by decide +kernel : after (engineStep sine silentAt80) (·.framesDone) = some 2)

/-- Each channel, at the lowest bound and at the highest. -/
theorem witness_PeakNeverGrowsInSilenceAboveTheSubnormals :
    Inv silentAt80 ∧ silentAt80.pend = .process ∧
      (∀ c, SilentInput silentAt80 c ∧ WithinPeak silentAt80 c 64 ∧ WithinPeak silentAt80 c (2 ^ 276)) ∧
      (64 ≤ 64 ∧ 64 ≤ 2 ^ 276) ∧ ∃ t, engineStep sine silentAt80 = .next t ∧ t.framesDone = 2 := by
  have hle : 64 ≤ 2 ^ 276 := by decide +kernel
  refine ⟨inv_silentAt80, rfl, fun c => ⟨silentInput_silentAt80 c, withinPeak_silentAt80 c, ?_⟩, ⟨Nat.le_refl _, hle⟩,
    next_frame_silentAt80⟩
  have h := withinPeak_silentAt80 c
  exact ⟨h.1, h.2.1.trans hle, fun i hi => ⟨(h.2.2 i hi).1, (h.2.2 i hi).2.trans hle⟩⟩

theorem witness_PeakNeverGrowsInSilence :
    Inv silentAt80 ∧ silentAt80.pend = .process ∧ (∀ c, SilentInput silentAt80 c ∧ WithinPeak silentAt80 c 64) ∧
      ∃ t, engineStep sine silentAt80 = .next t ∧ t.framesDone = 2 :=
  ⟨inv_silentAt80, rfl, fun c => ⟨silentInput_silentAt80 c, withinPeak_silentAt80 c⟩, next_frame_silentAt80⟩

theorem witness_EveryStepKeepsTheInvariant :
    Inv blockAt80 ∧ (∃ t, step blockAt80 = .next t ∧ t.framesDone = 1) ∧ Inv configuring ∧
      ∃ t, step configuring = .next t ∧ t.pend = .none :=
  ⟨inv_blockAt80, next_step_blockAt80, inv_configuring, next_configuring⟩

theorem witness_EveryStepOfTheInvariantCompletes : Inv blockAt80 ∧ blockAt80.pend = .process := ⟨inv_blockAt80, rfl⟩

end Sys2Proof.Tests
end

section
/-! The order of binary32 words: `le32` compares the exact values of words that are not NaNs, and the infinities are
its ends. Then clamp32 (00_scope R13). -/

namespace Sys2Proof.Machine

/-! The comparison -/

theorem le32_iff {a b : Word} :
    le32 a b = true ↔ isNaN a = false ∧ isNaN b = false ∧ signedValue a ≤ signedValue b := by
  simp [le32, ordered, and_assoc]

/-- The two spellings of one comparison; `le32` is the one the lemmas here use. -/
theorem ge32_eq_le32 (a b : Word) : ge32 a b = le32 b a := by
  simp [ge32, le32, ordered, Bool.and_comm]

theorem le32_refl {a : Word} (ha : isNaN a = false) : le32 a a = true := le32_iff.2 ⟨ha, ha, le_rfl⟩

theorem le32_nan_right {a b : Word} (hb : isNaN b = true) : le32 a b = false := by
  simp [le32, ordered, hb]

/-! The infinities -/

/-- An infinity's magnitude is the largest that any word but a NaN has. -/
theorem magnitude_le_of_not_isNaN {x : Word} (h : isNaN x = false) : magnitude x ≤ 2 ^ 277 := by
  have hb : bitsOf x ≤ 0x7F800000 := by
    rw [← Bool.not_eq_true, isNaN_iff] at h
    exact Nat.le_of_not_lt h
  rw [magnitude_eq]
  calc magnitudeOfBits (bitsOf x) ≤ magnitudeOfBits 0x7F800000 := magnitudeOfBits_le_iff.2 hb
    _ = 2 ^ 277 := by decide +kernel

theorem signedValue_negInf : signedValue 0xFF800000#32 = -2 ^ 277 := by decide +kernel

theorem signedValue_posInf : signedValue 0x7F800000#32 = 2 ^ 277 := by decide +kernel

theorem le32_negInf {x : Word} (h : isNaN x = false) : le32 0xFF800000#32 x = true := by
  have hm := magnitude_le_of_not_isNaN h
  have ha := natAbs_signedValue x
  exact le32_iff.2 ⟨by decide, h, by rw [signedValue_negInf]; omega⟩

theorem le32_posInf {x : Word} (h : isNaN x = false) : le32 x 0x7F800000#32 = true := by
  have hm := magnitude_le_of_not_isNaN h
  have ha := natAbs_signedValue x
  exact le32_iff.2 ⟨h, by decide, by rw [signedValue_posInf]; omega⟩

/-- Away from the two zeros the value fixes the sign. -/
theorem signBit_iff_signedValue_neg {x : Word} (h : signedValue x ≠ 0) : signBit x = true ↔ signedValue x < 0 := by
  cases hs : signBit x with
  | true =>
    rw [signedValue_of_signBit hs] at h ⊢
    simp only [true_iff]
    omega
  | false =>
    rw [signedValue_of_not_signBit hs]
    simp only [Bool.false_eq_true, false_iff]
    omega

/-- Only the two zeros are different words of one value. -/
theorem eq_of_signedValue_eq {a b : Word} (h : signedValue a = signedValue b) (h0 : signedValue b ≠ 0) : a = b := by
  have hbits : bitsOf a = bitsOf b := by
    apply magnitudeOfBits_strictMono.injective
    rw [← magnitude_eq, ← magnitude_eq, ← natAbs_signedValue, ← natAbs_signedValue, h]
  have hsign : signBit a = signBit b := by
    rw [Bool.eq_iff_iff, signBit_iff_signedValue_neg (h ▸ h0), signBit_iff_signedValue_neg h0, h]
  rw [← packWord_bitsOf a, ← packWord_bitsOf b, hbits, hsign]

theorem eq_negInf_of_le32 {x : Word} (h : le32 x 0xFF800000#32 = true) : x = 0xFF800000#32 := by
  obtain ⟨hx, -, hle⟩ := le32_iff.1 h
  obtain ⟨-, -, hge⟩ := le32_iff.1 (le32_negInf hx)
  exact eq_of_signedValue_eq (le_antisymm hle hge) (by rw [signedValue_negInf]; norm_num)

theorem eq_posInf_of_le32 {x : Word} (h : le32 0x7F800000#32 x = true) : x = 0x7F800000#32 := by
  obtain ⟨-, hx, hge⟩ := le32_iff.1 h
  obtain ⟨-, -, hle⟩ := le32_iff.1 (le32_posInf hx)
  exact eq_of_signedValue_eq (le_antisymm hle hge) (by rw [signedValue_posInf]; norm_num)

/-! clamp32, one equation per branch -/

section
variable {x lo hi : Word}

theorem clamp32_of_not_ge (h : le32 lo x = false) : clamp32 x lo hi = lo := by
  simp [clamp32, ge32_eq_le32, h]

theorem clamp32_of_mem (h1 : le32 lo x = true) (h2 : le32 x hi = true) : clamp32 x lo hi = x := by
  simp [clamp32, ge32_eq_le32, h1, h2]

theorem clamp32_of_above (h1 : le32 lo x = true) (h2 : le32 x hi = false) : clamp32 x lo hi = hi := by
  simp [clamp32, ge32_eq_le32, h1, h2]

theorem clamp32_nan (h : isNaN x = true) : clamp32 x lo hi = lo := clamp32_of_not_ge (le32_nan_right h)

/-- Where +∞ is itself inside the range, `hi` is +∞, so keeping the bits and giving `hi` agree. -/
theorem clamp32_posInf (h : le32 lo hi = true) : clamp32 0x7F800000#32 lo hi = hi := by
  obtain ⟨hlo, -, -⟩ := le32_iff.1 h
  cases hx : le32 0x7F800000#32 hi with
  | true => rw [clamp32_of_mem (le32_posInf hlo) hx, eq_posInf_of_le32 hx]
  | false => exact clamp32_of_above (le32_posInf hlo) hx

/-- Where −∞ is itself inside the range, `lo` is −∞, so keeping the bits and giving `lo` agree. -/
theorem clamp32_negInf (h : le32 lo hi = true) : clamp32 0xFF800000#32 lo hi = lo := by
  obtain ⟨-, hhi, -⟩ := le32_iff.1 h
  cases hx : le32 lo 0xFF800000#32 with
  | true => rw [clamp32_of_mem hx (le32_negInf hhi), eq_negInf_of_le32 hx]
  | false => exact clamp32_of_not_ge hx

/-- The result is `lo`, `x` inside the range, or `hi`: each is in the range. -/
theorem clamp32_mem (h : le32 lo hi = true) :
    le32 lo (clamp32 x lo hi) = true ∧ le32 (clamp32 x lo hi) hi = true := by
  obtain ⟨hlo, hhi, -⟩ := le32_iff.1 h
  cases h1 : le32 lo x with
  | false => rw [clamp32_of_not_ge h1]; exact ⟨le32_refl hlo, h⟩
  | true =>
    cases h2 : le32 x hi with
    | true => rw [clamp32_of_mem h1 h2]; exact ⟨h1, h2⟩
    | false => rw [clamp32_of_above h1 h2]; exact ⟨h, le32_refl hhi⟩

end

/-- Settles O50: each clause is a lemma about one case of clamp32. -/
theorem clampKeepsTheRange : Obligations.ClampKeepsTheRange := by
  intro x lo hi h
  exact ⟨rfl, clamp32_nan, clamp32_negInf h, clamp32_posInf h, clamp32_of_mem, clamp32_mem h⟩

end Sys2Proof.Machine
end

section
/-! What a host transaction can do, said once, and which descriptor and word a command comes from; then PEND through
every step (10_state R24). -/

namespace Sys2Proof

/-! Which descriptors carry a command word -/

/-- Everything decoding a descriptor can give: what a matching row builds, or a bus error (30_encoding R95). -/
theorem decodeHT_cases (ht : Descriptor) (v : Word) :
    (∃ r ∈ htRows, ht &&& r.mask = r.value ∧ decodeHT ht v = r.build ht v) ∨ decodeHT ht v = decodeBusError ht v := by
  cases h : htRows.find? (fun r => ht &&& r.mask == r.value) with
  | none => exact .inr (decodeHT_of_none (by simpa using List.find?_eq_none.1 h))
  | some r =>
    have hmatch := List.find?_some h
    exact .inl ⟨r, List.mem_of_find?_eq_some h, by simpa using hmatch, by simp [decodeHT, h]⟩

/-- The row of WR_CMD (46_host_bus R274). -/
def wrCmdRow : HtRow := ⟨0xFFFFF#20, 0xC0000#20, fun _ v => .wrCmd v⟩

/-- No row builds a command word, and only WR_CMD's row builds a write to CMD. -/
theorem htRows_build (ht : Descriptor) (v : Word) :
    ∀ r ∈ htRows, (r.build ht v).isCommand = false ∧ (r = wrCmdRow ∨ ∀ w, r.build ht v ≠ .wrCmd w) := by
  simp [htRows, readRows, writeRows, pageRows, windowRows, wrCmdRow, Instr.isCommand]

theorem decodeBusError_isCommand (ht : Descriptor) (v : Word) : (decodeBusError ht v).isCommand = false := by
  unfold decodeBusError
  split <;> rfl

theorem decodeBusError_ne_wrCmd (ht : Descriptor) (v w : Word) : decodeBusError ht v ≠ .wrCmd w := by
  unfold decodeBusError
  split <;> simp

/-- A descriptor is a transaction, never a command word of its own (30_encoding R90). -/
@[simp] theorem decodeHT_isCommand (ht : Descriptor) (v : Word) : (decodeHT ht v).isCommand = false := by
  obtain ⟨r, hr, -, hd⟩ | hd := decodeHT_cases ht v
  · rw [hd]
    exact (htRows_build ht v r hr).1
  · rw [hd]
    exact decodeBusError_isCommand ht v

/-- One descriptor only writes CMD, and its WDATA is the command word (46_host_bus R274). -/
theorem decodeHT_eq_wrCmd_iff {ht : Descriptor} {v w : Word} :
    decodeHT ht v = .wrCmd w ↔ ht = 0xC0000#20 ∧ v = w := by
  constructor
  · intro h
    obtain ⟨r, hr, hmatch, hd⟩ | hd := decodeHT_cases ht v
    · obtain rfl | hne := (htRows_build ht v r hr).2
      · have hht : ht &&& BitVec.allOnes 20 = 0xC0000#20 := hmatch
        rw [BitVec.and_allOnes] at hht
        exact ⟨hht, Instr.wrCmd.inj (hd.symm.trans h)⟩
      · exact absurd (hd.symm.trans h) (hne w)
    · exact absurd (hd.symm.trans h) (decodeBusError_ne_wrCmd ht v w)
  · rintro ⟨rfl, rfl⟩
    rfl

/-- A command word with RSVD = 0 is its OP field (30_encoding R90). -/
theorem word_eq_of_op {v : Word} {op : BitVec 4} (hrsvd : v.extractLsb' 4 28 = 0#28) (hop : v.extractLsb' 0 4 = op) :
    v = op.setWidth 32 := by
  subst hop
  have hr := congrArg BitVec.toNat hrsvd
  apply BitVec.eq_of_toNat_eq
  simp only [BitVec.extractLsb'_toNat, Nat.shiftRight_eq_div_pow, BitVec.toNat_setWidth, BitVec.toNat_ofNat] at hr ⊢
  omega

/-- The legal OP fields but NOP's and CONFIGURE's are PROCESS's (30_encoding R91). -/
theorem op_eq_two {op : BitVec 4} (hlegal : ¬ 3#4 ≤ op) (h0 : op ≠ 0#4) (h1 : op ≠ 1#4) : op = 2#4 := by
  bv_omega

end Sys2Proof

namespace Sys2Proof.Machine

/-! Host transactions -/

/-- What transaction `i` leaves of state `s`: at most an answer, one error bit, the parameters, or, with PEND = NONE, the
operands and one input word; only a write to CMD does what ACCEPT does (46_host_bus R270 to R274). -/
inductive HostEffect (i : Instr) (s : State) : State → Prop where
  | answers (r : Option Word) : HostEffect i s (s.answer r)
  | raises (e : ErrorBit) (r : Option Word) : HostEffect i s ((s.raise e).answer r)
  | setsParams (p : Params) : HostEffect i s ({ s with params := p }.answer none)
  | setsOperands (idle : s.pend = .none) (sr mb fc : Word) :
      HostEffect i s ({ s with srIn := sr, maxblkIn := mb, frameCount := fc }.answer none)
  | storesInput (idle : s.pend = .none) (c : Channel) (k : Nat) (v : Word) :
      HostEffect i s ((s.storeInput c k v).answer none)
  | writesCommand (v : Word) {t : State} (hi : i = .wrCmd v) (h : accept v s = .next t) : HostEffect i s t

/-- A locked write is refused, or has its own effect with PEND = NONE. -/
theorem hostEffect_of_lockedWrite {i : Instr} {s s' t : State} (h : lockedWrite s s' = .next t)
    (hs' : s.pend = .none → HostEffect i s (s'.answer none)) : HostEffect i s t := by
  obtain ⟨-, rfl⟩ | ⟨hp, rfl⟩ := lockedWrite_cases h
  · exact .raises .busy none
  · exact hs' hp

/-- Everything a host transaction can do. -/
theorem exec_hostEffect {i : Instr} {s t : State} (hi : i.isCommand = false) (h : exec i s = .next t) :
    HostEffect i s t := by
  cases i with
  | nop | configure | process | cmdIllegal _ => cases hi
  | wrCmd v => exact .writesCommand v rfl h
  | rdBuserr _ _ | wrBuserr _ _ _ => cases h; exact .raises .bus _
  | wrDrywet _ | wrDepth _ | wrRate _ | wrPhaseOffset _ | wrFeedback _ | wrType _ => cases h; exact .setsParams _
  | wrSrIn v => exact hostEffect_of_lockedWrite h fun hp => .setsOperands hp v s.maxblkIn s.frameCount
  | wrMaxblkIn v => exact hostEffect_of_lockedWrite h fun hp => .setsOperands hp s.srIn v s.frameCount
  | wrFrameCount v => exact hostEffect_of_lockedWrite h fun hp => .setsOperands hp s.srIn s.maxblkIn v
  | wrIbufL k v => exact hostEffect_of_lockedWrite h fun hp => .storesInput hp .left k.toNat v
  | wrIbufR k v => exact hostEffect_of_lockedWrite h fun hp => .storesInput hp .right k.toNat v
  | _ => cases h; exact .answers _

/-! PEND -/

/-- Command word `v` passes its checks in state `s` and leaves the engine the command `p`: CONFIGURE (45_commands R244), or
PROCESS of a block that is not empty (R245, R246). -/
def StartsCommand (s : State) (v : Word) (p : Pend) : Prop :=
  (v = 0x00000001#32 ∧ p = .config ∧ srValid s.srIn = true) ∨
  (v = 0x00000002#32 ∧ p = .process ∧ s.configured = true ∧ s.frameCount ≠ 0x00000000#32 ∧
    s.frameCount.toNat ≤ s.cfgMaxblk)

/-- The command that `s` has pending is completed by the engine's next step: the configuration, or the last frame of the
block (45_commands R247, 44_engine_frame R230). -/
def CompletesCommand (s : State) : Prop :=
  s.pend = .config ∨ (s.pend = .process ∧ s.framesDone + 1 = s.fcl)

/-- ACCEPT's checks in their order, down to the two words that start a command; `accept_cases` does not name the word
(45_commands R240). -/
theorem accept_pend {v : Word} {s t : State} (h : accept v s = .next t) :
    t.pend = s.pend ∨ (s.pend = .none ∧ StartsCommand s v t.pend) := by
  simp only [accept, completeWrite_eq, refuseWrite_eq] at h
  split_ifs at h with hbusy hillegal hnop hconfigure hvalid hconf hcount <;> cases h
  · exact .inl rfl
  · exact .inl rfl
  · exact .inl rfl
  · obtain ⟨hrsvd, -⟩ := not_or.1 hillegal
    have hv : v = 0x00000001#32 := word_eq_of_op (not_not.1 hrsvd) hconfigure
    exact .inr ⟨(busy_eq_false_iff s).1 (by simpa using hbusy), .inl ⟨hv, rfl, hvalid⟩⟩
  · exact .inl rfl
  · exact .inl rfl
  · exact .inl rfl
  · obtain ⟨hrsvd, hop⟩ := not_or.1 hillegal
    have hv : v = 0x00000002#32 := word_eq_of_op (not_not.1 hrsvd) (op_eq_two hop hnop hconfigure)
    rw [State.answer_pend, State.pendProcess_pend]
    split_ifs with hempty
    · exact .inl rfl
    · exact .inr ⟨(busy_eq_false_iff s).1 (by simpa using hbusy),
        .inr ⟨hv, rfl, by simpa using hconf, hempty, Nat.le_of_not_lt hcount⟩⟩

/-- Everything a host transaction does to PEND (10_state R24). -/
theorem exec_pend {i : Instr} {s t : State} (hi : i.isCommand = false) (h : exec i s = .next t) :
    t.pend = s.pend ∨ (s.pend = .none ∧ ∃ v, i = .wrCmd v ∧ StartsCommand s v t.pend) := by
  cases exec_hostEffect hi h with
  | writesCommand v hi h => exact (accept_pend h).imp_right fun ⟨hp, hv⟩ => ⟨hp, v, hi, hv⟩
  | storesInput => exact .inl (by simp)
  | _ => exact .inl rfl

/-- Everything the engine's turn does to PEND (10_state R24). -/
theorem engineStep_pend {sn : Word → Word} {s t : State} (h : engineStep sn s = .next t) :
    t.pend = s.pend ∨ (t.pend = .none ∧ CompletesCommand s) := by
  obtain ⟨-, rfl⟩ | ⟨hp, hc⟩ | ⟨hp, hf⟩ := engineStep_next.1 h
  · exact .inl rfl
  · obtain ⟨len, -, rfl⟩ := configResult_ok.1 hc
    exact .inr ⟨rfl, .inl hp⟩
  · obtain ⟨_, _, _, _, _, -, -, -, -, -, rfl⟩ := frameResult_ok.1 hf
    by_cases hlast : s.framesDone + 1 = s.fcl
    · exact .inr ⟨if_pos hlast, .inr ⟨hp, hlast⟩⟩
    · exact .inl (if_neg hlast)

/-- Everything a step does to PEND: it stays, a write to CMD starts a command, the engine completes one, or RESET clears it
(10_state R24). -/
theorem step_pend {s t : State} (h : step s = .next t) :
    t.pend = s.pend ∨
    (s.pend = .none ∧ ∃ v rest, s.agenda = .host 0xC0000#20 v :: rest ∧ StartsCommand s v t.pend) ∨
    (t.pend = .none ∧ (ResetTurn s ∨ (EngineTurn s ∧ CompletesCommand s))) := by
  obtain ⟨ha, he⟩ | ⟨ht, v, rest, ha, hx⟩ | ⟨rest, ha, he⟩ | ⟨rest, ha, rfl⟩ := step_next.1 h
  · exact (engineStep_pend he).imp_right fun ⟨hn, hc⟩ => .inr ⟨hn, .inr ⟨.inl ha, hc⟩⟩
  · refine (exec_pend (decodeHT_isCommand ht v) hx).imp_right fun ⟨hp, w, hd, hw⟩ => .inl ⟨hp, ?_⟩
    obtain ⟨rfl, rfl⟩ := decodeHT_eq_wrCmd_iff.1 hd
    exact ⟨v, rest, ha, hw⟩
  · exact (engineStep_pend he).imp_right fun ⟨hn, hc⟩ => .inr ⟨hn, .inr ⟨.inr ⟨rest, ha⟩, hc⟩⟩
  · exact .inr (.inr ⟨rfl, .inl ⟨rest, ha⟩⟩)

/-- The bit above the lowest of a word put together from single bits. -/
theorem getLsbD_1_append_ofBool {n : Nat} (x : BitVec n) (a b : Bool) :
    (x ++ BitVec.ofBool a ++ BitVec.ofBool b).getLsbD 1 = a := by
  rw [BitVec.getLsbD_append, BitVec.getLsbD_append]
  simp

/-- Bit 1 of STATUS is BUSY (46_host_bus R276). -/
theorem statusWord_getLsbD_1 (s : State) : (statusWord s).getLsbD 1 = busy s := getLsbD_1_append_ofBool _ _ _

/-- Settles O32: each clause rules out the other ways of `step_pend`. -/
theorem pendChangesOnlyByCommandOrCompletion : Obligations.PendChangesOnlyByCommandOrCompletion := by
  intro s t h
  have hpend := step_pend h
  refine ⟨fun hs ht => ?_, fun hs ht => ?_, fun hs ht => ?_, statusWord s, rfl, statusWord_getLsbD_1 s⟩
  · obtain heq | ⟨-, hstart⟩ | ⟨hn, -⟩ := hpend
    · exact absurd (heq.trans hs) ht
    · exact hstart
    · exact absurd hn ht
  · obtain heq | ⟨hn, -⟩ | ⟨-, hend⟩ := hpend
    · exact absurd (heq.symm.trans ht) hs
    · exact absurd hn hs
    · exact hend
  · obtain heq | ⟨hn, -⟩ | ⟨hn, -⟩ := hpend
    · exact heq
    · exact absurd hn hs
    · exact absurd hn ht

end Sys2Proof.Machine
end

section
/-! The reset state (10_state R49). -/

namespace Sys2Proof.Machine

@[simp] theorem State.lane_reset (c : Channel) : State.reset.lane c = .reset := by
  cases c <;> rfl

@[simp] theorem Errors.get_reset (e : ErrorBit) : Errors.reset.get e = false := by
  cases e <;> rfl

/-- Settles O36: each read answers with its own field of the reset state. -/
theorem resetValuesOfEveryRegister : Obligations.ResetValuesOfEveryRegister := by
  refine ⟨fun i hi => ?_, rfl, rfl, rfl, rfl, Errors.get_reset, fun c => ?_, rfl, fun c i => ?_⟩
  · fin_cases hi <;> rfl
  · rw [State.lane_reset]
    exact ⟨rfl, rfl⟩
  · rw [State.lane_reset]
    exact ⟨Memory.read_unspecified i, Memory.read_unspecified i, Memory.read_unspecified i⟩

end Sys2Proof.Machine
end

section
/-! add32 and mul32 keep the order of their operands, infinities included, so MAP does (42_effect_mapper R161, R163). -/

namespace Sys2Proof.Machine

/-! Rounding and the order -/

theorem le32_trans {a b c : Word} (hab : le32 a b = true) (hbc : le32 b c = true) : le32 a c = true := by
  obtain ⟨ha, -, h1⟩ := le32_iff.1 hab
  obtain ⟨-, hc, h2⟩ := le32_iff.1 hbc
  exact le32_iff.2 ⟨ha, hc, h1.trans h2⟩

/-- Rounding an exact signed value num / den is monotonic in it. -/
theorem signedRound_mono {num num' : Int} {den : Nat} (hd : 0 < den) (h : num ≤ num') :
    signedValue (roundRational (decide (num < 0)) num.natAbs den) ≤
      signedValue (roundRational (decide (num' < 0)) num'.natAbs den) := by
  have hmono {n n' : Nat} (hn : n ≤ n') :
      magnitudeOfBits (roundMagnitude n den) ≤ magnitudeOfBits (roundMagnitude n' den) :=
    magnitudeOfBits_le_iff.2 (roundMagnitude_mono hd hd (Nat.mul_le_mul_right _ hn))
  simp only [signedValue_roundRational, decide_eq_true_eq]
  split <;> split
  · have := hmono (n := num'.natAbs) (n' := num.natAbs) (by omega)
    omega
  · omega
  · omega
  · have := hmono (n := num.natAbs) (n' := num'.natAbs) (by omega)
    omega

/-- The exact value 0 rounds to 0. -/
theorem signedValue_roundRational_zero (negative : Bool) {den : Nat} (hd : 0 < den) :
    signedValue (roundRational negative 0 den) = 0 := by
  have hz : roundMagnitude 0 den = 0 := by simpa [magnitudeOfBits] using roundMagnitude_exact (b := 0) hd (by omega)
  rw [roundRational, hz, signedValue_zero]

theorem signedValue_add32_of_finite {a b : Word} (ha : isFinite a = true) (hb : isFinite b = true) :
    signedValue (add32 a b) = signedValue (roundRational (decide (signedValue a + signedValue b < 0))
      (signedValue a + signedValue b).natAbs 1) := by
  rw [add32_of_finite ha hb]
  split
  next h => rw [h, signedValue_zero, Int.natAbs_zero, signedValue_roundRational_zero _ Nat.one_pos]
  next => rfl

theorem signedValue_mul32_of_finite {a b : Word} (ha : isFinite a = true) (hb : isFinite b = true) :
    signedValue (mul32 a b) = signedValue (roundRational (decide (signedValue a * signedValue b < 0))
      (signedValue a * signedValue b).natAbs (2 ^ 149)) := by
  by_cases h : signedValue a * signedValue b = 0
  · rw [(signedValue_mul32_zero ha hb h).1, h, Int.natAbs_zero, signedValue_roundRational_zero _ (by positivity)]
  · rw [mul32_eq_signedRound ha hb h]

theorem isNaN_add32_of_finite {a b : Word} (ha : isFinite a = true) (hb : isFinite b = true) :
    isNaN (add32 a b) = false := by
  rw [add32_of_finite ha hb]
  split
  · exact isNaN_of_isFinite (isFinite_zero _)
  · exact isNaN_roundRational _ _ _

theorem isNaN_mul32_of_finite {a b : Word} (ha : isFinite a = true) (hb : isFinite b = true) :
    isNaN (mul32 a b) = false := by
  rw [mul32_of_finite ha hb]
  exact isNaN_roundRational _ _ _

theorem add32_comm_of_finite {b : Word} (a : Word) (hb : isFinite b = true) : add32 a b = add32 b a := by
  simp [add32, isNaN_of_isFinite hb, isInf_of_isFinite hb, add_comm, Bool.and_comm]

/-! Functions that keep the order -/

theorem isNaN_packWord_inf (negative : Bool) : isNaN (packWord negative 0x7F800000) = false := by
  cases negative <;> decide

theorem isInf_packWord_inf (negative : Bool) : isInf (packWord negative 0x7F800000) = true := by
  cases negative <;> decide

theorem magnitude_packWord_inf_ne_zero (negative : Bool) : magnitude (packWord negative 0x7F800000) ≠ 0 := by
  cases negative <;> decide +kernel

/-- A word that is no NaN is an infinity or finite. -/
theorem not_isNaN_cases {x : Word} (h : isNaN x = false) :
    x = 0xFF800000#32 ∨ x = 0x7F800000#32 ∨ isFinite x = true := by
  rw [← Bool.not_eq_true, isNaN_iff] at h
  obtain hlt | heq := Nat.lt_or_eq_of_le (Nat.le_of_not_lt h)
  · exact .inr (.inr ((isFinite_iff x).2 hlt))
  · rw [← packWord_bitsOf x, heq]
    cases signBit x with
    | true => exact .inl (by decide)
    | false => exact .inr (.inl (by decide))

/-- What keeps both infinities and the order of the finite words keeps the order of all words. -/
theorem le32_map {f : Word → Word}
    (hinf : ∀ negative, f (packWord negative 0x7F800000) = packWord negative 0x7F800000)
    (hnan : ∀ x, isFinite x = true → isNaN (f x) = false)
    (hmono : ∀ x y, isFinite x = true → isFinite y = true → signedValue x ≤ signedValue y →
      signedValue (f x) ≤ signedValue (f y)) {a b : Word} (h : le32 a b = true) : le32 (f a) (f b) = true := by
  have hneg : f 0xFF800000#32 = 0xFF800000#32 := hinf true
  have hpos : f 0x7F800000#32 = 0x7F800000#32 := hinf false
  have hf {x : Word} (hx : isNaN x = false) : isNaN (f x) = false := by
    obtain rfl | rfl | hx := not_isNaN_cases hx
    · rw [hneg]; decide
    · rw [hpos]; decide
    · exact hnan x hx
  obtain ⟨ha, hb, hle⟩ := le32_iff.1 h
  obtain rfl | rfl | hfa := not_isNaN_cases ha
  · rw [hneg]
    exact le32_negInf (hf hb)
  · rw [eq_posInf_of_le32 h, hpos]
    exact le32_posInf (by decide)
  · obtain rfl | rfl | hfb := not_isNaN_cases hb
    · rw [eq_negInf_of_le32 h, hneg]
      exact le32_negInf (by decide)
    · rw [hpos]
      exact le32_posInf (hf ha)
    · exact le32_iff.2 ⟨hf ha, hf hb, hmono a b hfa hfb hle⟩

section
variable {a b c : Word}

/-- An infinity plus a finite word is that infinity. -/
theorem add32_inf_of_finite (hc : isFinite c = true) (negative : Bool) :
    add32 (packWord negative 0x7F800000) c = packWord negative 0x7F800000 := by
  simp [add32, isNaN_packWord_inf, isInf_packWord_inf, isNaN_of_isFinite hc, isInf_of_isFinite hc]

/-- Adding a finite word keeps the order. -/
theorem add32_mono_left (hc : isFinite c = true) (h : le32 a b = true) : le32 (add32 a c) (add32 b c) = true := by
  refine le32_map (f := (add32 · c)) (add32_inf_of_finite hc) (fun x hx => isNaN_add32_of_finite hx hc)
    (fun x y hx hy hle => ?_) h
  rw [signedValue_add32_of_finite hx hc, signedValue_add32_of_finite hy hc]
  exact signedRound_mono Nat.one_pos (Int.add_le_add_right hle _)

theorem add32_mono_right (hc : isFinite c = true) (h : le32 a b = true) : le32 (add32 c a) (add32 c b) = true := by
  rw [← add32_comm_of_finite a hc, ← add32_comm_of_finite b hc]
  exact add32_mono_left hc h

/-- An infinity times a positive finite word is that infinity. -/
theorem mul32_inf_of_pos (hc : isFinite c = true) (hpos : 0 < signedValue c) (negative : Bool) :
    mul32 (packWord negative 0x7F800000) c = packWord negative 0x7F800000 := by
  have hsign : signBit c = false := by
    rw [← Bool.not_eq_true, signBit_iff_signedValue_neg (by omega)]
    omega
  have hmag : magnitude c ≠ 0 := by
    rw [← natAbs_signedValue]
    omega
  simp [mul32, isNaN_packWord_inf, isInf_packWord_inf, magnitude_packWord_inf_ne_zero, isNaN_of_isFinite hc, hsign,
    hmag]

/-- Multiplying by a positive finite word keeps the order. -/
theorem mul32_mono_left (hc : isFinite c = true) (hpos : 0 < signedValue c) (h : le32 a b = true) :
    le32 (mul32 a c) (mul32 b c) = true := by
  refine le32_map (f := (mul32 · c)) (mul32_inf_of_pos hc hpos) (fun x hx => isNaN_mul32_of_finite hx hc)
    (fun x y hx hy hle => ?_) h
  rw [signedValue_mul32_of_finite hx hc, signedValue_mul32_of_finite hy hc]
  exact signedRound_mono (by positivity) (Int.mul_le_mul_of_nonneg_right hle hpos.le)

end

/-! MAP -/

theorem isFinite_lowEdge (ty : EffectType) : isFinite (lowEdge ty) = true := by
  cases ty <;> decide

theorem isFinite_edgeSpan (ty : EffectType) : isFinite (edgeSpan ty) = true := by
  cases ty <;> decide

theorem edgeSpan_pos (ty : EffectType) : 0 < signedValue (edgeSpan ty) := by
  cases ty <;> decide +kernel

/-- R163: each of MAP's four operations keeps the order, for every m that is no NaN. -/
theorem effectMap_mono (ty : EffectType) {m m' : Word} (h : le32 m m' = true) :
    le32 (effectMap ty m) (effectMap ty m') = true := by
  have h1 : le32 (add32 m Config.one) (add32 m' Config.one) = true := add32_mono_left (by decide) h
  have h2 := mul32_mono_left (c := Config.half) (by decide) (by decide +kernel) h1
  have h3 := mul32_mono_left (isFinite_edgeSpan ty) (edgeSpan_pos ty) h2
  exact add32_mono_right (isFinite_lowEdge ty) h3

/-- At m = −1 MAP is the low edge exactly. -/
theorem effectMap_minusOne (ty : EffectType) : effectMap ty Config.minusOne = lowEdge ty := by
  cases ty <;> decide +kernel

/-- At m = 1 MAP is the high edge, or for chorus the word below it. -/
theorem effectMap_one_le_highEdge (ty : EffectType) : le32 (effectMap ty Config.one) (highEdge ty) = true := by
  cases ty <;> decide +kernel

/-- Settles O52: the table is evaluated; the range follows from the order and MAP's values at m = −1 and m = 1. -/
theorem effectMapTableRangeAndOrder : Obligations.EffectMapTableRangeAndOrder := by
  refine ⟨by decide +kernel, fun ty m m' => ⟨rfl, fun hlo hhi => ⟨?_, ?_⟩, fun _ h _ => effectMap_mono ty h⟩⟩
  · rw [← effectMap_minusOne]
    exact effectMap_mono ty hlo
  · exact le32_trans (effectMap_mono ty hhi) (effectMap_one_le_highEdge ty)

end Sys2Proof.Machine
end

section
/-! The two bypasses (43_fractional_reader R185, 44_engine_frame R214): INTERP at fraction ±0, MIX at dry/wet ±0 and 1,
and a frame at the dry bypass. -/

namespace Sys2Proof.Machine

/-! Comparing with a zero -/

theorem eq32_iff {a b : Word} :
    eq32 a b = true ↔ isNaN a = false ∧ isNaN b = false ∧ signedValue a = signedValue b := by
  simp [eq32, ordered, and_assoc]

theorem eq32_of_le32_of_le32 {a b : Word} (hab : le32 a b = true) (hba : le32 b a = true) : eq32 a b = true := by
  obtain ⟨ha, hb, h1⟩ := le32_iff.1 hab
  obtain ⟨-, -, h2⟩ := le32_iff.1 hba
  exact eq32_iff.2 ⟨ha, hb, le_antisymm h1 h2⟩

/-- A NaN or a word below the range gives `lo` itself; a word that compares equal to `lo` keeps its bits. -/
theorem clamp32_eq32_lo {x lo hi : Word} (hr : le32 lo hi = true) (h : isNaN x = true ∨ le32 x lo = true) :
    eq32 (clamp32 x lo hi) lo = true := by
  cases hlo : le32 lo x with
  | false =>
    obtain ⟨hn, -, -⟩ := le32_iff.1 hr
    rw [clamp32_of_not_ge hlo]
    exact eq32_of_le32_of_le32 (le32_refl hn) (le32_refl hn)
  | true =>
    obtain hnan | hle := h
    · rw [le32_nan_right hnan] at hlo
      cases hlo
    · rw [clamp32_of_mem hlo (le32_trans hle hr)]
      exact eq32_of_le32_of_le32 hle hlo

/-- The snapshot of a DRYWET that is ±0, negative or a NaN is ±0 (44_engine_frame R201). -/
theorem snapshot_dw_eq32_zero {p : Params} (h : isNaN p.drywet = true ∨ le32 p.drywet 0x00000000#32 = true) :
    eq32 (snapshot p).dw 0x00000000#32 = true :=
  clamp32_eq32_lo (by decide +kernel) h

/-! MIX, one equation per branch -/

section
variable {x wet dw : Word}

theorem mix_of_zero (h : eq32 dw 0x00000000#32 = true) : mix x wet dw = x := by
  simp [mix, h]

/-- No word compares equal both to 1 and to 0. -/
theorem eq32_zero_of_eq32_one (h : eq32 dw Config.one = true) : eq32 dw 0x00000000#32 = false := by
  obtain ⟨-, -, h1⟩ := eq32_iff.1 h
  have hne : signedValue Config.one ≠ signedValue 0x00000000#32 := by decide +kernel
  rw [← Bool.not_eq_true, eq32_iff, h1]
  exact fun ⟨_, _, h0⟩ => hne h0

theorem mix_of_one (h : eq32 dw Config.one = true) : mix x wet dw = wet := by
  simp [mix, eq32_zero_of_eq32_one h, h]

theorem mix_of_between (h0 : eq32 dw 0x00000000#32 = false) (h1 : eq32 dw Config.one = false) :
    mix x wet dw = add32 (mul32 x (sub32 Config.one dw)) (mul32 wet dw) := by
  simp [mix, h0, h1]

end

/-! A frame, lane by lane -/

/-- A frame step runs the two parts of a lane's frame on each lane, with that channel's oscillator value
(44_engine_frame R216, R230). -/
theorem frameResult_lane {sn : Word → Word} {s t : State} (h : frameResult sn s = .ok t) (c : Channel) :
    ∃ inp m, laneInput s.epoch c s.cfgLen s.framesDone (s.lane c) = .ok inp ∧
      laneOutput s.epoch c s.cfgLen s.framesDone s.cfgSr (snapshot s.params) m inp.1 inp.2 = .ok (t.lane c) := by
  obtain ⟨inL, inR, mod, left, right, hinL, hinR, -, houtL, houtR, rfl⟩ := frameResult_ok.1 h
  cases c with
  | left => exact ⟨inL, mod.left, hinL, houtL⟩
  | right => exact ⟨inR, mod.right, hinR, houtR⟩

theorem frameResult_of_engineStep {sn : Word → Word} {s t : State} (hp : s.pend = .process)
    (h : engineStep sn s = .next t) : frameResult sn s = .ok t := by
  simpa [engineStep_next, hp] using h

/-- The output word of a frame is the mix of its own input word with some wet sample (44_engine_frame R213, R215). -/
theorem frameResult_outputWord {sn : Word → Word} {s t : State} (h : frameResult sn s = .ok t) (c : Channel) :
    ∃ wet, outputWord t c s.framesDone = mix (inputWord s c s.framesDone) wet (snapshot s.params).dw := by
  obtain ⟨inp, m, hin, hout⟩ := frameResult_lane h c
  obtain ⟨-, -, hx, -⟩ := laneInput_ok.1 hin
  obtain ⟨-, read, -, hlane⟩ := laneOutput_ok.1 hout
  exact ⟨holdPoison inp.2.fb read, by rw [outputWord, hlane, readOrDraw_write_same, hx, inputWord]⟩

/-- Settles O41: the interpolator and MIX by their branches, and a frame at the dry bypass is MIX at ±0. -/
theorem bypassesCopyBitForBit : Obligations.BypassesCopyBitForBit := by
  refine ⟨fun e c l p hfrac hcur => interpolate_ok.2 ⟨hcur, .inl ⟨hfrac, rfl⟩⟩, fun _ _ _ => mix_of_zero,
    fun _ _ _ => mix_of_one, fun _ _ _ => mix_of_between, fun s t hp hstep hdw c => ?_⟩
  obtain ⟨wet, hout⟩ := frameResult_outputWord (frameResult_of_engineStep hp hstep) c
  rw [hout, mix_of_zero (snapshot_dw_eq32_zero hdw)]

end Sys2Proof.Machine
end

section
/-! The sample rates that CONFIGURE accepts, the delay length of each, and CONFIG_EXEC (45_commands R243, R247, R248). -/

namespace Sys2Proof.Machine

/-! srValid -/

theorem signedValue_srMin : signedValue Config.srMin = 2 ^ 149 := by decide +kernel

theorem signedValue_srMax : signedValue Config.srMax = 262144 * 2 ^ 149 := by decide +kernel

/-- R243 in exact units: against the bounds 1 and 262144 only a positive finite word passes. -/
theorem srValid_iff (x : Word) :
    srValid x = true ↔
      isFinite x = true ∧ signBit x = false ∧ 2 ^ 149 ≤ magnitude x ∧ magnitude x ≤ 262144 * 2 ^ 149 := by
  by_cases hx : isFinite x = true
  · have hmin : isFinite Config.srMin = true := by decide
    have hmax : isFinite Config.srMax = true := by decide
    simp only [srValid, ge32_eq_le32, le32_of_finite hmin hx, le32_of_finite hx hmax, signedValue_srMin,
      signedValue_srMax, hx, Bool.true_and, Bool.and_eq_true, decide_eq_true_eq, true_and]
    cases hs : signBit x with
    | true =>
      rw [signedValue_of_signBit hs]
      simp only [Bool.true_eq_false, false_and, iff_false]
      omega
    | false =>
      rw [signedValue_of_not_signBit hs]
      norm_cast
      simp
  · simp [srValid, hx]

/-- Settles O26: the check's formula is R243's, and `srValid_iff` is the range. -/
theorem sampleRateCheckIsTheRange : Obligations.SampleRateCheckIsTheRange :=
  fun x => ⟨rfl, srValid_iff x⟩

/-! LENGTH -/

/-- Raising the exponent field of a normal word by one doubles the magnitude it encodes. -/
theorem magnitudeOfBits_double {b : Nat} (h : 2 ^ 23 ≤ b) :
    magnitudeOfBits (b + 2 ^ 23) = 2 * magnitudeOfBits b := by
  obtain ⟨k, n, rfl, hn, hn'⟩ : ∃ k n, b = k * 2 ^ 23 + n ∧ 2 ^ 23 ≤ n ∧ n ≤ 2 ^ 24 :=
    ⟨b / 2 ^ 23 - 1, b % 2 ^ 23 + 2 ^ 23, by omega, by omega, by omega⟩
  have hk : k * 2 ^ 23 + n + 2 ^ 23 = (k + 1) * 2 ^ 23 + n := by omega
  rw [hk, magnitudeOfBits_add _ n (.inr hn) hn', magnitudeOfBits_add _ n (.inr hn) hn', pow_succ]
  ring

/-- mul32(x, 2) is exact for a normal x whose double does not overflow: only the exponent rises (45_commands R248). -/
theorem mul32_twoSeconds {x : Word} (hx : isFinite x = true) (hlo : 2 ^ 23 ≤ bitsOf x)
    (hhi : bitsOf x + 2 ^ 23 < 0x7F800000) :
    mul32 x Config.twoSeconds = packWord (signBit x) (bitsOf x + 2 ^ 23) := by
  have htwo : magnitude Config.twoSeconds = 2 * 2 ^ 149 := by decide +kernel
  have hsign : signBit Config.twoSeconds = false := by decide
  have hexact : magnitude x * magnitude Config.twoSeconds = magnitudeOfBits (bitsOf x + 2 ^ 23) * 2 ^ 149 := by
    rw [magnitudeOfBits_double hlo, ← magnitude_eq, htwo]
    ring
  rw [mul32_of_finite hx (by decide), hsign, Bool.bne_false, roundRational, hexact,
    roundMagnitude_exact (by positivity) hhi.le]

/-- A valid sample rate is a normal word, far below the largest. -/
theorem bitsOf_of_srValid {x : Word} (h : srValid x = true) : 0x3F800000 ≤ bitsOf x ∧ bitsOf x ≤ 0x48800000 := by
  obtain ⟨-, -, hmin, hmax⟩ := (srValid_iff x).1 h
  have hone : magnitudeOfBits 0x3F800000 = 2 ^ 149 := by decide +kernel
  have htop : magnitudeOfBits 0x48800000 = 262144 * 2 ^ 149 := by decide +kernel
  rw [magnitude_eq] at hmin hmax
  exact ⟨magnitudeOfBits_le_iff.1 (by rwa [hone]), magnitudeOfBits_le_iff.1 (by rwa [htop])⟩

/-- ⌊2s⌋ of a valid sample rate s lies between L_MIN and DL_DEPTH (45_commands R248). -/
theorem twice_rate_bounds {x : Word} (h : srValid x = true) :
    2 ≤ 2 * magnitude x / 2 ^ 149 ∧ 2 * magnitude x / 2 ^ 149 ≤ 524288 := by
  obtain ⟨-, -, hmin, hmax⟩ := (srValid_iff x).1 h
  omega

/-- LENGTH of a valid sample rate s is ⌊2s⌋: the clamp to L_MIN is never taken (45_commands R248). -/
theorem delayLength_of_srValid {x : Word} (h : srValid x = true) :
    delayLength x = .ok (2 * magnitude x / 2 ^ 149) := by
  obtain ⟨hfin, hsign, -, -⟩ := (srValid_iff x).1 h
  obtain ⟨hlo, hhi⟩ := bitsOf_of_srValid h
  have hbits : bitsOf (mul32 x Config.twoSeconds) = bitsOf x + 2 ^ 23 := by
    rw [mul32_twoSeconds hfin (by omega) (by omega), bitsOf_packWord (by omega)]
  have hpos : signBit (mul32 x Config.twoSeconds) = false := by
    rw [mul32_twoSeconds hfin (by omega) (by omega), signBit_packWord (by omega), hsign]
  have hdouble : magnitude (mul32 x Config.twoSeconds) = 2 * magnitude x := by
    rw [magnitude_eq, hbits, magnitudeOfBits_double (by omega), ← magnitude_eq]
  refine delayLength_ok.2 ⟨2 * magnitude x / 2 ^ 149, floorOf_ok.2 ⟨?_, ?_, by rw [hdouble]⟩,
    (max_eq_right (twice_rate_bounds h).1).symm⟩
  · rw [isFinite_iff, hbits]
    omega
  · rw [signedValue_of_not_signBit hpos]
    omega

/-! CONFIG_EXEC -/

/-- With a valid SR_IN the configuration step completes (45_commands R247). -/
theorem engineStep_config {sn : Word → Word} {s : State} (hp : s.pend = .config) (h : srValid s.srIn = true) :
    engineStep sn s = .next { s with
      cfgSr := s.srIn, cfgLen := 2 * magnitude s.srIn / 2 ^ 149, cfgMaxblk := min s.maxblkIn.toNat 4096,
      blkClamped := decide (4096 < s.maxblkIn.toNat),
      left := s.left.configure (2 * magnitude s.srIn / 2 ^ 149),
      right := s.right.configure (2 * magnitude s.srIn / 2 ^ 149),
      phase := 0x00000000#32, framesDone := 0, configured := true, pend := .none } := by
  have hclamp : min s.maxblkIn.toNat 4096 =
      if Config.blockCap < s.maxblkIn.toNat then Config.blockCap else s.maxblkIn.toNat := by
    rw [min_comm, min_def_lt, Config.blockCap]
  rw [hclamp]
  exact engineStep_next.2 (.inr (.inl ⟨hp, configResult_ok.2 ⟨_, delayLength_of_srValid h, rfl⟩⟩))

/-- Settles O38: the lanes' delay lines are zero fills, every other clause is a field of `engineStep_config`. -/
theorem configurationStepEffect : Obligations.ConfigurationStepEffect := by
  intro s hp h
  obtain ⟨hlow, hhigh⟩ := twice_rate_bounds h
  refine ⟨_, engineStep_config hp h, (max_eq_right hlow).symm, rfl, hlow, hhigh, rfl, fun c i => ?_⟩
  cases c with
  | left => exact readOrDraw_zeroFill _ _ _ _ i
  | right => exact readOrDraw_zeroFill _ _ _ _ i

end Sys2Proof.Machine
end

section
/-! The command words: each command's outcome check by check, and the same words written to CMD (45_commands R240 to
R246). -/

namespace Sys2Proof

/-! Decoding -/

/-- No word with RSVD ≠ 0 or OP above PROCESS's is one of the three legal words (30_encoding R91, R92). -/
theorem decodeCommand_illegal {v : Word} (h : v.extractLsb' 4 28 ≠ 0#28 ∨ 3#4 ≤ v.extractLsb' 0 4) :
    decodeCommand v = .cmdIllegal v := by
  have hne (w : Word) (hw : ¬ (w.extractLsb' 4 28 ≠ 0#28 ∨ 3#4 ≤ w.extractLsb' 0 4)) : v &&& 0xFFFFFFFF#32 ≠ w := by
    have hmask : v &&& 0xFFFFFFFF#32 = v := BitVec.and_allOnes
    rw [hmask]
    rintro rfl
    exact hw h
  rw [decodeCommand, if_neg (hne 0#32 (by decide)), if_neg (hne 1#32 (by decide)), if_neg (hne 2#32 (by decide))]

end Sys2Proof

namespace Sys2Proof.Machine

section
variable {s : State}

/-! While a command is pending -/

/-- While PEND ≠ NONE every command word is refused with ERR_BUSY (45_commands R240). -/
theorem exec_command_busy {i : Instr} (hi : i.isCommand = true) (h : s.pend ≠ .none) :
    exec i s = .next ((s.raise .busy).answer none) := by
  have hb := (busy_eq_true_iff s).2 h
  cases i with
  | nop | configure | process | cmdIllegal _ => exact if_pos hb
  | _ => cases hi

theorem exec_wrCmd_busy (v : Word) (h : s.pend ≠ .none) :
    exec (.wrCmd v) s = .next ((s.raise .busy).answer none) :=
  if_pos ((busy_eq_true_iff s).2 h)

/-! While the core is idle, one equation per check -/

/-- The busy check, which comes first in every command, passes. -/
theorem ite_busy_of_idle {α : Type} (h : s.pend = .none) (a b : α) : (if busy s = true then a else b) = b :=
  if_neg (by simp [(busy_eq_false_iff s).2 h])

theorem exec_nop_idle (h : s.pend = .none) : exec .nop s = .next (s.answer none) :=
  ite_busy_of_idle h _ _

theorem exec_cmdIllegal_idle (v : Word) (h : s.pend = .none) :
    exec (.cmdIllegal v) s = .next ((s.raise .cmd).answer none) :=
  ite_busy_of_idle h _ _

theorem exec_configure_valid (h : s.pend = .none) (hsr : srValid s.srIn = true) :
    exec .configure s = .next (s.pendConfig.answer none) :=
  (ite_busy_of_idle h _ _).trans (if_pos hsr)

theorem exec_configure_invalid (h : s.pend = .none) (hsr : srValid s.srIn = false) :
    exec .configure s = .next ((s.raise .cfg).answer none) :=
  (ite_busy_of_idle h _ _).trans (if_neg (by simp [hsr]))

theorem exec_process_unconfigured (h : s.pend = .none) (hc : s.configured = false) :
    exec .process s = .next ((s.raise .unconf).answer none) :=
  (ite_busy_of_idle h _ _).trans (if_pos hc)

theorem exec_process_above (h : s.pend = .none) (hc : s.configured = true) (hn : s.cfgMaxblk < s.frameCount.toNat) :
    exec .process s = .next ((s.raise .count).answer none) :=
  (ite_busy_of_idle h _ _).trans ((if_neg (by simp [hc])).trans (if_pos hn))

theorem exec_process_within (h : s.pend = .none) (hc : s.configured = true) (hn : s.frameCount.toNat ≤ s.cfgMaxblk) :
    exec .process s = .next (s.pendProcess.answer none) :=
  (ite_busy_of_idle h _ _).trans ((if_neg (by simp [hc])).trans (if_neg (Nat.not_lt.2 hn)))

/-! The block that an accepted PROCESS latches -/

theorem State.pendProcess_of_zero (h : s.frameCount = 0x00000000#32) : s.pendProcess = { s with framesDone := 0 } :=
  if_pos h

theorem State.pendProcess_of_ne_zero (h : s.frameCount ≠ 0x00000000#32) :
    s.pendProcess = { s with framesDone := 0, fcl := s.frameCount.toNat, pend := .process } :=
  if_neg h

end

/-! The same words through WR_CMD -/

theorem exec_wrCmd_nop (s : State) : exec (.wrCmd 0x00000000#32) s = exec .nop s := rfl

theorem exec_wrCmd_configure (s : State) : exec (.wrCmd 0x00000001#32) s = exec .configure s := rfl

theorem exec_wrCmd_process (s : State) : exec (.wrCmd 0x00000002#32) s = exec .process s := rfl

theorem exec_wrCmd_illegal {v : Word} (h : v.extractLsb' 4 28 ≠ 0#28 ∨ 3#4 ≤ v.extractLsb' 0 4) (s : State) :
    exec (.wrCmd v) s = exec (.cmdIllegal v) s :=
  congrArg (ite (busy s = true) (refuseWrite s .busy)) (if_pos h)

/-- Settles O22: each clause is the command's own equation, through WR_CMD too. -/
theorem nopAndIllegalCommandWords : Obligations.NopAndIllegalCommandWords := by
  refine ⟨rfl, fun v => decodeCommand_illegal, fun s v => ⟨fun hp => ?_, fun hp => ?_⟩⟩
  · exact ⟨exec_nop_idle hp, (exec_wrCmd_nop s).trans (exec_nop_idle hp), exec_cmdIllegal_idle v hp,
      fun hv => (exec_wrCmd_illegal hv s).trans (exec_cmdIllegal_idle v hp)⟩
  · exact ⟨exec_command_busy rfl hp, exec_command_busy rfl hp, exec_wrCmd_busy v hp⟩

/-- Settles O23: the operands are kept by the busy lockout. -/
theorem configureAcceptance : Obligations.ConfigureAcceptance := by
  refine ⟨rfl, fun s => ⟨fun hp hsr => ?_, exec_configure_invalid, exec_command_busy rfl, fun hp wd => ?_⟩⟩
  · exact ⟨exec_configure_valid hp hsr, (exec_wrCmd_configure s).trans (exec_configure_valid hp hsr)⟩
  · have hbusy : s.pend ≠ .none := by simp [hp]
    exact ⟨lockedWrite_busy hbusy, lockedWrite_busy hbusy⟩

/-- Settles O24: an accepted PROCESS latches the block, and the empty block is within every CFG_MAXBLK. -/
theorem processAcceptance : Obligations.ProcessAcceptance := by
  refine ⟨rfl, fun s => ⟨fun hp hc hle hne => ?_, fun hp hc hz => ?_, fun hne => ?_, Inv.maxblk, exec_process_above,
    exec_process_unconfigured, exec_command_busy rfl⟩⟩
  · have hexec := exec_process_within hp hc hle
    rw [State.pendProcess_of_ne_zero hne] at hexec
    exact ⟨hexec, (exec_wrCmd_process s).trans hexec⟩
  · have hexec := exec_process_within hp hc (by simp [hz])
    rw [State.pendProcess_of_zero hz] at hexec
    exact ⟨hexec, (exec_wrCmd_process s).trans hexec⟩
  · bv_omega

/-- Settles O25: ACCEPT makes the same checks in the same order; in each branch it answers what the chain names. -/
theorem commandAcceptanceOrder : Obligations.CommandAcceptanceOrder := by
  intro s v
  change accept v s = _
  simp only [accept, busy_eq_true_iff, completeWrite_eq, refuseWrite_eq, State.pendProcess]
  split_ifs <;> rfl

end Sys2Proof.Machine
end

section
/-! The host bus (46_host_bus R270 to R331): which descriptors reach the reserved words and the bus errors, and what the
register reads, the ignored writes, the operand writes and the bus errors answer. -/

namespace Sys2Proof

/-! The fields of a descriptor that matches a row -/

/-- Where a mask tests a whole field, the descriptors it accepts have that field of the value (30_encoding R95). -/
theorem extractLsb'_of_match {ht m v : Descriptor} {start len : Nat} (h : ht &&& m = v)
    (hm : m.extractLsb' start len = BitVec.allOnes len) :
    ht.extractLsb' start len = v.extractLsb' start len := by
  rw [← h, BitVec.extractLsb'_and, hm, BitVec.and_allOnes]

/-- Bit 19 of a descriptor, W, is what the two bus-error rows test (30_encoding R93, R95). -/
theorem and_writeBit_iff (ht : Descriptor) : ht &&& 0x80000#20 = 0x80000#20 ↔ ht.getLsbD 19 = true := by
  have hbit : (0x80000#20 : Descriptor) = BitVec.twoPow 20 19 := by decide
  rw [hbit, BitVec.and_twoPow]
  cases ht.getLsbD 19 <;> decide

/-! The page words -/

/-- The word number A[6:2] is all that the page mask does not test. -/
theorem eq_of_page_match {ht ht' v : Descriptor} (h : ht &&& 0xFFF83#20 = v) (h' : ht' &&& 0xFFF83#20 = v)
    (hword : ht.extractLsb' 2 5 = ht'.extractLsb' 2 5) : ht = ht' := by
  have hlow : ht.extractLsb' 0 2 = ht'.extractLsb' 0 2 :=
    (extractLsb'_of_match h (by decide)).trans (extractLsb'_of_match h' (by decide)).symm
  have hhigh : ht.extractLsb' 7 13 = ht'.extractLsb' 7 13 :=
    (extractLsb'_of_match h (by decide)).trans (extractLsb'_of_match h' (by decide)).symm
  apply BitVec.eq_of_toNat_eq
  have hlow := congrArg BitVec.toNat hlow
  have hword := congrArg BitVec.toNat hword
  have hhigh := congrArg BitVec.toNat hhigh
  simp only [BitVec.extractLsb'_toNat, Nat.shiftRight_eq_div_pow] at hlow hword hhigh
  omega

theorem pageDescriptor_and_mask : ∀ (w : BitVec 1) (word : BitVec 5),
    pageDescriptor w word &&& 0xFFF83#20 = pageDescriptor w 0#5 := by decide

theorem pageDescriptor_word : ∀ (w : BitVec 1) (word : BitVec 5), (pageDescriptor w word).extractLsb' 2 5 = word := by
  decide

/-- A descriptor that the page mask accepts is the access to its own word of the page (30_encoding R95, item 3). -/
theorem eq_pageDescriptor {ht : Descriptor} {w : BitVec 1} (h : ht &&& 0xFFF83#20 = pageDescriptor w 0#5) :
    ht = pageDescriptor w (ht.extractLsb' 2 5) :=
  eq_of_page_match h (pageDescriptor_and_mask w _) (pageDescriptor_word w _).symm

/-- Row `n` is selected by a descriptor that it matches and no earlier row does, also where `decodeHT_row` does not apply:
the page rows agree with the register rows on every bit they test. -/
theorem decodeHT_of_first_index {ht : Descriptor} {v : Word} (n : Nat) {r : HtRow} (hn : htRows[n]? = some r)
    (hpre : ∀ r' ∈ htRows.take n, (ht &&& r'.mask == r'.value) = false) (h : ht &&& r.mask = r.value) :
    decodeHT ht v = r.build ht v := by
  obtain ⟨hlt, rfl⟩ := List.getElem?_eq_some_iff.1 hn
  refine decodeHT_of_first (pre := htRows.take n) (post := htRows.drop (n + 1)) ?_ hpre h
  rw [← List.drop_eq_getElem_cons hlt, List.take_append_drop]

/-! Reserved words -/

/-- No register's row matches a read of a reserved word (46_host_bus R310). -/
theorem reservedForRead_no_earlier_row : ∀ word : BitVec 5, reservedForRead word = true →
    ∀ r ∈ htRows.take 32, (pageDescriptor 0#1 word &&& r.mask == r.value) = false := by decide +kernel

/-- Neither a register's row nor WR_OBS matches a write of a reserved word (46_host_bus R311). -/
theorem reservedForWrite_no_earlier_row : ∀ word : BitVec 5, reservedForWrite word = true →
    ∀ r ∈ htRows.take 33, (pageDescriptor 1#1 word &&& r.mask == r.value) = false := by decide +kernel

/-- Every other word of the page has a register read row of its own (46_host_bus R310). -/
theorem readRow_of_not_reserved : ∀ word : BitVec 5, reservedForRead word = false →
    ∃ r ∈ readRows, pageDescriptor 0#1 word &&& r.mask = r.value := by decide +kernel

theorem decodeHT_reservedRead {ht : Descriptor} (v : Word) (h : ht &&& 0xFFF83#20 = 0x40000#20)
    (hr : reservedForRead (ht.extractLsb' 2 5) = true) : decodeHT ht v = .rdRsvd (ht.extractLsb' 2 5) := by
  have hpre := reservedForRead_no_earlier_row _ hr
  rw [← eq_pageDescriptor (w := 0#1) h] at hpre
  exact decodeHT_of_first_index 32 rfl hpre h

theorem decodeHT_reservedWrite {ht : Descriptor} (v : Word) (h : ht &&& 0xFFF83#20 = 0xC0000#20)
    (hr : reservedForWrite (ht.extractLsb' 2 5) = true) : decodeHT ht v = .wrRsvd (ht.extractLsb' 2 5) v := by
  have hpre := reservedForWrite_no_earlier_row _ hr
  rw [← eq_pageDescriptor (w := 1#1) h] at hpre
  exact decodeHT_of_first_index 33 rfl hpre h

/-- The register read rows come first, so a descriptor that matches one is decoded by one (30_encoding R95, item 1). -/
theorem decodeHT_of_readRow {ht : Descriptor} (v : Word) (h : ∃ r ∈ readRows, ht &&& r.mask = r.value) :
    ∃ r ∈ readRows, decodeHT ht v = r.build ht v := by
  cases hfind : readRows.find? (fun r => ht &&& r.mask == r.value) with
  | none =>
    obtain ⟨r, hr, hmatch⟩ := h
    exact absurd hmatch (by simpa using List.find?_eq_none.1 hfind r hr)
  | some r => exact ⟨r, List.mem_of_find?_eq_some hfind, by simp [decodeHT, htRows, hfind]⟩

theorem readRows_build_ne_rdRsvd (ht : Descriptor) (v : Word) (word : BitVec 5) :
    ∀ r ∈ readRows, r.build ht v ≠ .rdRsvd word := by
  simp [readRows]

/-- The row of RD_RSVD (46_host_bus R310). -/
def rdRsvdRow : HtRow := ⟨0xFFF83#20, 0x40000#20, fun ht _ => .rdRsvd (ht.extractLsb' 2 5)⟩

/-- Only RD_RSVD's row builds a reserved read. -/
theorem htRows_build_rdRsvd (ht : Descriptor) (v : Word) :
    ∀ r ∈ htRows, r = rdRsvdRow ∨ ∀ word, r.build ht v ≠ .rdRsvd word := by
  simp [htRows, readRows, writeRows, pageRows, windowRows, rdRsvdRow]

theorem decodeBusError_ne_rdRsvd (ht : Descriptor) (v : Word) (word : BitVec 5) :
    decodeBusError ht v ≠ .rdRsvd word := by
  unfold decodeBusError
  split <;> simp

/-- The page mask accepts every page read; the register rows ahead of it take all but the reserved words
(46_host_bus R310). -/
theorem decodeHT_eq_rdRsvd_iff {ht : Descriptor} {v : Word} {word : BitVec 5} :
    decodeHT ht v = .rdRsvd word ↔
      ht &&& 0xFFF83#20 = 0x40000#20 ∧ word = ht.extractLsb' 2 5 ∧ reservedForRead word = true := by
  constructor
  · intro h
    obtain ⟨r, hr, hmatch, hd⟩ | hd := decodeHT_cases ht v
    · obtain rfl | hne := htRows_build_rdRsvd ht v r hr
      · have hpage : ht &&& 0xFFF83#20 = 0x40000#20 := hmatch
        obtain rfl : ht.extractLsb' 2 5 = word := Instr.rdRsvd.inj (hd.symm.trans h)
        refine ⟨hpage, rfl, ?_⟩
        by_contra hnot
        have hrow := readRow_of_not_reserved _ (Bool.eq_false_iff.2 hnot)
        rw [← eq_pageDescriptor (w := 0#1) hpage] at hrow
        obtain ⟨r', hr', hd'⟩ := decodeHT_of_readRow v hrow
        exact readRows_build_ne_rdRsvd ht v _ r' hr' (hd'.symm.trans h)
      · exact absurd (hd.symm.trans h) (hne word)
    · exact absurd (hd.symm.trans h) (decodeBusError_ne_rdRsvd ht v word)
  · rintro ⟨hpage, rfl, hr⟩
    exact decodeHT_reservedRead v hpage hr

/-! Bus errors -/

/-- Every row tests SIZE, A[1:0] and the region A[16:14], and asks for an aligned 4-byte access to a region that exists;
a page row tests A[13:7] too, for 0 (20_memory R61, 30_encoding R95). -/
theorem htRows_fields : ∀ r ∈ htRows,
    (r.mask.extractLsb' 17 2 = BitVec.allOnes 2 ∧ r.value.extractLsb' 17 2 = 2#2) ∧
    (r.mask.extractLsb' 0 2 = BitVec.allOnes 2 ∧ r.value.extractLsb' 0 2 = 0#2) ∧
    (r.mask.extractLsb' 14 3 = BitVec.allOnes 3 ∧ ¬ 5#3 ≤ r.value.extractLsb' 14 3) ∧
    (r.value.extractLsb' 14 3 = 0#3 →
      r.mask.extractLsb' 7 7 = BitVec.allOnes 7 ∧ r.value.extractLsb' 7 7 = 0#7) := by
  decide

/-- The model's test for an access that reaches no word, on the fields of a descriptor (46_host_bus R330). -/
theorem unmappedAccess_iff (ht : Descriptor) :
    unmappedAccess (ht.extractLsb' 17 2) (ht.extractLsb' 0 17) = true ↔
      ht.extractLsb' 17 2 ≠ 2#2 ∨ ht.extractLsb' 0 2 ≠ 0#2 ∨ 5#3 ≤ ht.extractLsb' 14 3 ∨
        (ht.extractLsb' 14 3 = 0#3 ∧ ht.extractLsb' 7 7 ≠ 0#7) := by
  simp [unmappedAccess, BitVec.extractLsb'_extractLsb'_of_le, or_assoc]

/-- What a row matches reaches a word (46_host_bus R330). -/
theorem mapped_of_match {ht : Descriptor} {r : HtRow} (hr : r ∈ htRows) (hmatch : ht &&& r.mask = r.value) :
    unmappedAccess (ht.extractLsb' 17 2) (ht.extractLsb' 0 17) = false := by
  obtain ⟨⟨msize, hsize⟩, ⟨malign, halign⟩, ⟨mregion, hregion⟩, hpage⟩ := htRows_fields r hr
  rw [← Bool.not_eq_true, unmappedAccess_iff, extractLsb'_of_match hmatch msize, extractLsb'_of_match hmatch malign,
    extractLsb'_of_match hmatch mregion]
  rintro (h | h | h | ⟨h0, h⟩)
  · exact h hsize
  · exact h halign
  · exact hregion h
  · obtain ⟨moffset, hoffset⟩ := hpage h0
    exact h ((extractLsb'_of_match hmatch moffset).trans hoffset)

/-- An access that reaches no word is a bus error in its own direction (46_host_bus R330, R331). -/
theorem decodeHT_unmapped {ht : Descriptor} (v : Word)
    (h : unmappedAccess (ht.extractLsb' 17 2) (ht.extractLsb' 0 17) = true) :
    decodeHT ht v = if ht.getLsbD 19 then .wrBuserr (ht.extractLsb' 17 2) (ht.extractLsb' 0 17) v
      else .rdBuserr (ht.extractLsb' 17 2) (ht.extractLsb' 0 17) := by
  have hnone (r : HtRow) (hr : r ∈ htRows) : (ht &&& r.mask == r.value) = false := by
    rw [beq_eq_false_iff_ne]
    intro hmatch
    rw [mapped_of_match hr hmatch] at h
    cases h
  simp only [decodeHT_of_none hnone, decodeBusError, and_writeBit_iff]

end Sys2Proof

namespace Sys2Proof.Machine

/-! What the registers hold -/

/-- RD_TYPE's word is the effect bit (30_encoding R97). -/
theorem wordOfEffect_eq_ite (e : EffectType) : wordOfEffect e = if e = .flanger then 1#32 else 0#32 := by
  cases e <;> rfl

/-- A count below 2^32 is read as it stands (30_encoding R97). -/
theorem toNat_wordOfCount {n : Nat} (h : n < 2 ^ 32) : (wordOfCount n).toNat = n := by
  rw [wordOfCount, BitVec.toNat_ofNat, Nat.mod_eq_of_lt h]

section
variable {s : State}

/-- Configured or not, CFG_LEN is at most DL_DEPTH (45_commands R248). -/
theorem Inv.cfgLen_le (h : Inv s) : s.cfgLen ≤ Config.dlDepth := by
  cases hc : s.configured with
  | false => exact (h.whenUnconfigured hc).cfgLen.trans_le (Nat.zero_le _)
  | true => exact (h.whenConfigured hc).lengthHigh

/-- The two write heads are equal, also while both are 0 (10_state R48). -/
theorem Inv.headsEqual (h : Inv s) : s.left.wh = s.right.wh := by
  cases hc : s.configured with
  | false => rw [(h.whenUnconfigured hc).leftHead, (h.whenUnconfigured hc).rightHead]
  | true => exact (h.whenConfigured hc).headsEqual

/-- The write head is an index of the delay RAM (40_delay_line R122). -/
theorem Inv.head_lt (h : Inv s) : s.left.wh < Config.dlDepth := by
  cases hc : s.configured with
  | false => rw [(h.whenUnconfigured hc).leftHead]; decide
  | true => exact (h.whenConfigured hc).headLow.trans_le h.cfgLen_le

end

theorem phaseInTurn_iff {p : Word} :
    phaseInTurn p = true ↔ isFinite p = true ∧ signBit p = false ∧ lt32 p Config.one = true := by
  simp [phaseInTurn, and_assoc]

/-- A word with sign bit 0 that is no NaN is at least 0. -/
theorem zero_le32_of_not_signBit {p : Word} (hn : isNaN p = false) (hs : signBit p = false) :
    le32 0x00000000#32 p = true := by
  have hzero : signedValue 0x00000000#32 = 0 := by decide
  exact le32_iff.2 ⟨by decide, hn, by rw [hzero, signedValue_of_not_signBit hs]; omega⟩

theorem ne_negZero_of_not_signBit {p : Word} (hs : signBit p = false) : p ≠ 0x80000000#32 := by
  rintro rfl
  exact absurd hs (by decide)

/-! STATUS, bit by bit -/

theorem statusWord_getLsbD_0 (s : State) : (statusWord s).getLsbD 0 = s.configured := by
  simp only [statusWord, BitVec.getLsbD_append]
  simp

theorem statusWord_getLsbD_2 (s : State) : (statusWord s).getLsbD 2 = s.blkClamped := by
  simp only [statusWord, BitVec.getLsbD_append]
  simp

/-- An error's cause code is its bit number in STATUS (10_state R26, 60_exceptions R351). -/
theorem statusWord_getLsbD_code (s : State) (e : ErrorBit) : (statusWord s).getLsbD e.code = s.errors.get e := by
  cases e <;> simp only [statusWord, ErrorBit.code, BitVec.getLsbD_append] <;> simp [Errors.get]

/-- Bits 7:3 of STATUS and bits 31:14 are 0 (46_host_bus R276). -/
theorem statusWord_getLsbD_zero (s : State) {j : Nat} (h : (3 ≤ j ∧ j ≤ 7) ∨ 14 ≤ j) :
    (statusWord s).getLsbD j = false := by
  simp only [statusWord, BitVec.getLsbD_append]
  obtain ⟨hlo, hhi⟩ | hhi := h
  · interval_cases j <;> simp
  · obtain ⟨k, rfl⟩ := Nat.exists_eq_add_of_le' hhi
    simp

/-! Reads -/

/-- Settles O7: the read answers 0. -/
theorem commandRegisterReadsZero : Obligations.CommandRegisterReadsZero :=
  ⟨fun _ => rfl, fun s => completeRead_eq s 0x00000000#32⟩

/-- Settles O8: the word is `statusWord`, whose bits are the lemmas above. -/
theorem statusReadReturnsItsFields : Obligations.StatusReadReturnsItsFields :=
  ⟨fun _ => rfl, fun s => ⟨statusWord s, completeRead_eq s _, statusWord_getLsbD_0 s, statusWord_getLsbD_1 s,
    statusWord_getLsbD_2 s, statusWord_getLsbD_code s .unconf, statusWord_getLsbD_code s .cfg,
    statusWord_getLsbD_code s .cmd, statusWord_getLsbD_code s .busy, statusWord_getLsbD_code s .count,
    statusWord_getLsbD_code s .bus, fun _ => statusWord_getLsbD_zero s⟩⟩

/-- Settles O9: each read answers with its own register. -/
theorem operandRegisterReads : Obligations.OperandRegisterReads :=
  ⟨fun _ => rfl, fun _ => rfl, fun _ => rfl,
    fun s => ⟨completeRead_eq s s.srIn, completeRead_eq s s.maxblkIn, completeRead_eq s s.frameCount⟩⟩

/-- Settles O10: each read answers with its own register, and TYPE's word is the effect bit. -/
theorem parameterRegisterReads : Obligations.ParameterRegisterReads := by
  refine ⟨fun _ => rfl, fun _ => rfl, fun _ => rfl, fun _ => rfl, fun _ => rfl, fun _ => rfl, fun s =>
    ⟨completeRead_eq s s.params.drywet, completeRead_eq s s.params.depth, completeRead_eq s s.params.rate,
      completeRead_eq s s.params.phaseOffset, completeRead_eq s s.params.feedback, ?_⟩⟩
  rw [← wordOfEffect_eq_ite]
  exact completeRead_eq s (wordOfEffect s.params.effect)

/-- Settles O11: the counts are read as they stand because the invariant bounds them. -/
theorem configurationRegisterReads : Obligations.ConfigurationRegisterReads := by
  refine ⟨fun _ => rfl, fun _ => rfl, fun _ => rfl, fun s => ⟨completeRead_eq s s.cfgSr,
    completeRead_eq s (wordOfCount s.cfgLen), completeRead_eq s (wordOfCount s.cfgMaxblk), fun h => ?_⟩⟩
  refine ⟨toNat_wordOfCount (h.cfgLen_le.trans_lt (by decide)), toNat_wordOfCount (h.maxblk.trans_lt (by decide)),
    h.maxblk, fun hc => ?_, fun hc => ?_⟩
  · have hu := h.whenUnconfigured hc
    exact ⟨hu.cfgSr, hu.cfgLen, hu.cfgMaxblk⟩
  · have hconf := h.whenConfigured hc
    exact ⟨hconf.lengthLow, hconf.lengthHigh⟩

/-- Settles O12: the counts are read as they stand, and the phase is in [0, 1), because the invariant says so. -/
theorem engineRegisterReads : Obligations.EngineRegisterReads := by
  refine ⟨fun _ => rfl, fun _ => rfl, fun _ => rfl, fun _ => rfl, fun _ => rfl, fun _ => rfl, fun s =>
    ⟨completeRead_eq s (wordOfCount s.framesDone), completeRead_eq s (wordOfCount s.left.wh),
      completeRead_eq s (wordOfCount s.right.wh), completeRead_eq s s.phase, completeRead_eq s s.left.fb,
      completeRead_eq s s.right.fb, fun h => ?_⟩⟩
  obtain ⟨hfin, hsign, hlt⟩ := phaseInTurn_iff.1 h.phase
  exact ⟨toNat_wordOfCount (h.framesDone.trans_lt (by decide)), toNat_wordOfCount (h.head_lt.trans (by decide)),
    h.headsEqual, fun hc => (h.whenConfigured hc).headLow, hfin,
    zero_le32_of_not_signBit (isNaN_of_isFinite hfin) hsign, hlt, ne_negZero_of_not_signBit hsign⟩

/-- Settles O13: the decoder's part is `decodeHT_eq_rdRsvd_iff`. -/
theorem reservedWordsReadZero : Obligations.ReservedWordsReadZero := by
  refine ⟨fun ht wd word => ?_, fun _ s => completeRead_eq s 0x00000000#32⟩
  rw [decodeHT_eq_rdRsvd_iff, reservedForRead, List.contains_iff_mem]

/-! Writes -/

/-- Settles O17: an ignored write answers and does nothing else. -/
theorem ignoredWritesChangeNothing : Obligations.IgnoredWritesChangeNothing := by
  refine ⟨fun _ => rfl, fun ht wd h => decodeHT_row 31 rfl (by decide) h, fun ht wd h hw => ?_,
    fun ht wd h => decodeHT_row 39 rfl (by decide) h, fun ht wd h => decodeHT_row 41 rfl (by decide) h,
    fun s _ => ⟨ignoreWrite_eq s, fun _ => ignoreWrite_eq s, fun _ => ignoreWrite_eq s, fun _ => ignoreWrite_eq s,
      fun _ => ignoreWrite_eq s⟩⟩
  exact decodeHT_reservedWrite wd h (List.contains_iff_mem.2 hw)

/-- Settles O18: the three writes are under the busy lockout. -/
theorem operandWritesUnderBusyLockout : Obligations.OperandWritesUnderBusyLockout :=
  ⟨fun _ => rfl, fun _ => rfl, fun _ => rfl, fun _ _ =>
    ⟨fun hidle => ⟨lockedWrite_idle hidle, lockedWrite_idle hidle, lockedWrite_idle hidle⟩,
      fun hbusy => ⟨lockedWrite_busy hbusy, lockedWrite_busy hbusy, lockedWrite_busy hbusy⟩⟩⟩

/-- Settles O21: no row matches such an access, and a refusal only sets its error bit. -/
theorem busErrorsSetOnlyErrBus : Obligations.BusErrorsSetOnlyErrBus :=
  ⟨fun ht wd h => decodeHT_unmapped wd ((unmappedAccess_iff ht).2 h),
    fun s _ _ _ => ⟨refuseRead_eq s .bus, refuseWrite_eq s .bus⟩⟩

end Sys2Proof.Machine
end

section
/-! The busy lockout: the writes it refuses while a command is pending, and the transactions that PEND does not touch
(70_reset_and_hazards R400). -/

namespace Sys2Proof.Machine

section
variable {i : Instr} {s : State}

/-- While PEND ≠ NONE the six writes under the lockout are refused with ERR_BUSY (46_host_bus R271). -/
theorem exec_lockedOut_busy (hlock : i.underBusyLockout = true) (h : s.pend ≠ .none) :
    exec i s = .next ((s.raise .busy).answer none) := by
  cases i with
  | wrCmd v => exact exec_wrCmd_busy v h
  | wrSrIn _ | wrMaxblkIn _ | wrFrameCount _ | wrIbufL _ _ | wrIbufR _ _ => exact lockedWrite_busy h
  | _ => cases hlock

/-- A transaction outside the lockout, but for the read of STATUS, neither looks at PEND nor changes it: with any other
PEND in its place, it does the same to the rest of the state. -/
theorem exec_independent_of_pend (hcmd : i.isCommand = false) (hlock : i.underBusyLockout = false)
    (hstatus : i ≠ .rdStatus) :
    ∃ t, exec i s = .next t ∧ t.pend = s.pend ∧
      ∀ p, exec i { s with pend := p } = .next { t with pend := p } := by
  cases i with
  | nop | configure | process | cmdIllegal _ => cases hcmd
  | wrCmd _ | wrSrIn _ | wrMaxblkIn _ | wrFrameCount _ | wrIbufL _ _ | wrIbufR _ _ => cases hlock
  | rdStatus => exact absurd rfl hstatus
  | rdBuserr _ _ => exact ⟨_, refuseRead_eq s .bus, rfl, fun _ => refuseRead_eq _ .bus⟩
  | wrBuserr _ _ _ => exact ⟨_, refuseWrite_eq s .bus, rfl, fun _ => refuseWrite_eq _ .bus⟩
  | wrStatus _ | wrObs _ _ | wrRsvd _ _ | wrObufL _ _ | wrObufR _ _ =>
    exact ⟨_, ignoreWrite_eq s, rfl, fun _ => ignoreWrite_eq _⟩
  | wrDrywet _ | wrDepth _ | wrRate _ | wrPhaseOffset _ | wrFeedback _ | wrType _ =>
    exact ⟨_, completeWrite_eq _, rfl, fun _ => completeWrite_eq _⟩
  | _ => exact ⟨_, completeRead_eq s _, rfl, fun _ => completeRead_eq _ _⟩

end

/-- Settles O27: the idle run is the run of `exec_independent_of_pend` with PEND = NONE. -/
theorem busyLockoutSparesTheOtherTransactions : Obligations.BusyLockoutSparesTheOtherTransactions := by
  intro i s hbusy hcmd
  refine ⟨fun hlock => exec_lockedOut_busy hlock hbusy, fun hlock hstatus => ?_⟩
  obtain ⟨t, hexec, hpend, hany⟩ := exec_independent_of_pend (s := s) hcmd hlock hstatus
  exact ⟨t, hexec, hpend, hany .none⟩

end Sys2Proof.Machine
end

section
/-! The encoder and the decoder undo each other (30_encoding R90 to R95), the raw records, and the two ways in for a command
word (45_commands R240, 46_host_bus R274). -/

namespace Sys2Proof

/-! The fields of a descriptor -/

/-- A descriptor is its fields W, SIZE and A (30_encoding R93). -/
theorem eq_descriptor_of_fields {ht : Descriptor} {size : BitVec 2} {a : BitVec 17} (hsize : ht.extractLsb' 17 2 = size)
    (ha : ht.extractLsb' 0 17 = a) : ht = descriptor (ht.extractLsb' 19 1) size a := by
  subst hsize ha
  unfold descriptor
  rw [BitVec.extractLsb'_append_extractLsb'_eq_extractLsb' (rfl : 19 = 17 + 2),
    BitVec.extractLsb'_append_extractLsb'_eq_extractLsb' (rfl : 17 = 0 + 17)]
  exact BitVec.extractLsb'_eq_self.symm

theorem descriptor_size (w : BitVec 1) (size : BitVec 2) (a : BitVec 17) :
    (descriptor w size a).extractLsb' 17 2 = size := by
  rw [descriptor, BitVec.extractLsb'_append_eq_of_le (by decide)]
  exact BitVec.extractLsb'_append_eq_right

theorem descriptor_address (w : BitVec 1) (size : BitVec 2) (a : BitVec 17) :
    (descriptor w size a).extractLsb' 0 17 = a := BitVec.extractLsb'_append_eq_right

/-- The address fields region, word index and byte offset (20_memory R61). -/
theorem extractLsb'_address {ht : Descriptor} :
    ht.extractLsb' 0 17 = ht.extractLsb' 14 3 ++ ht.extractLsb' 2 12 ++ ht.extractLsb' 0 2 := by
  rw [BitVec.extractLsb'_append_extractLsb'_eq_extractLsb' (rfl : 14 = 2 + 12),
    BitVec.extractLsb'_append_extractLsb'_eq_extractLsb' (rfl : 2 = 0 + 2)]

/-- The address fields page offset above the word number, word number and byte offset (30_encoding R98). -/
theorem extractLsb'_pageAddress {ht : Descriptor} :
    ht.extractLsb' 0 17 = ht.extractLsb' 14 3 ++ ht.extractLsb' 7 7 ++ ht.extractLsb' 2 5 ++ ht.extractLsb' 0 2 := by
  rw [BitVec.extractLsb'_append_extractLsb'_eq_extractLsb' (rfl : 14 = 7 + 7),
    BitVec.extractLsb'_append_extractLsb'_eq_extractLsb' (rfl : 7 = 2 + 5),
    BitVec.extractLsb'_append_extractLsb'_eq_extractLsb' (rfl : 2 = 0 + 2)]

/-- The window mask tests all but the word index. -/
theorem windowDescriptor_and_mask (w : BitVec 1) (region : BitVec 3) (k : WindowIndex) :
    windowDescriptor w region k &&& 0xFC003#20 = windowDescriptor w region 0#12 := by
  have hmask : 0xFC003#20 = BitVec.allOnes 1 ++ BitVec.allOnes 2 ++ (BitVec.allOnes 3 ++ 0#12 ++ BitVec.allOnes 2) := by
    decide
  rw [hmask, windowDescriptor, descriptor, BitVec.and_append, BitVec.and_append, BitVec.and_append, BitVec.and_append]
  simp only [BitVec.and_allOnes, BitVec.and_zero]
  rfl

theorem windowIndex_windowDescriptor (w : BitVec 1) (region : BitVec 3) (k : WindowIndex) :
    windowIndex (windowDescriptor w region k) = k := by
  have haddr : (windowDescriptor w region k).extractLsb' 0 17 = region ++ k ++ 0#2 := descriptor_address _ _ _
  have hk : (windowDescriptor w region k).extractLsb' 2 12 =
      ((windowDescriptor w region k).extractLsb' 0 17).extractLsb' 2 12 := by
    rw [BitVec.extractLsb'_extractLsb'_of_le (by decide)]
  rw [windowIndex, hk, haddr, BitVec.extractLsb'_append_eq_of_le (by decide)]
  exact BitVec.extractLsb'_append_eq_right

/-! Every operation's encoding decodes to it -/

/-- Row `n`, a window row, is selected by its own window's descriptors. -/
theorem decodeHT_windowDescriptor {w : BitVec 1} {region : BitVec 3} {k : WindowIndex} {v : Word} (n : Nat) {r : HtRow}
    (hn : htRows[n]? = some r)
    (hd : (htRows.take n).all (fun r' => (r.value ^^^ r'.value) &&& (r.mask &&& r'.mask) != 0#20) = true)
    (hm : r.mask = 0xFC003#20) (hv : r.value = windowDescriptor w region 0#12) {f : WindowIndex → Word → Instr}
    (hf : r.build = fun ht v => f (windowIndex ht) v) : decodeHT (windowDescriptor w region k) v = f k v := by
  rw [decodeHT_row n hn hd (by rw [hm, hv, windowDescriptor_and_mask]), hf]
  exact congrArg (f · v) (windowIndex_windowDescriptor w region k)

/-- An access that reaches no word is a bus error with its own fields (46_host_bus R330, R331). -/
theorem decodeHT_descriptor_unmapped {w : BitVec 1} {size : BitVec 2} {a : BitVec 17} (v : Word)
    (h : unmappedAccess size a = true) :
    decodeHT (descriptor w size a) v = if w.getLsbD 0 then .wrBuserr size a v else .rdBuserr size a := by
  have hu := decodeHT_unmapped (ht := descriptor w size a) v (by rwa [descriptor_size, descriptor_address])
  rwa [descriptor_size, descriptor_address, Laws.descriptor_getLsbD_19] at hu

theorem decodeHT_wrObs (word : BitVec 4) (v : Word) :
    decodeHT (pageDescriptor 1#1 (1#1 ++ word)) v = .wrObs word v := by
  have hrow : ∀ word : BitVec 4, pageDescriptor 1#1 (1#1 ++ word) &&& 0xFFFC3#20 = 0xC0040#20 := by decide
  have hword : ∀ word : BitVec 4, (pageDescriptor 1#1 (1#1 ++ word)).extractLsb' 2 4 = word := by decide
  exact (decodeHT_row 31 rfl (by decide) (hrow word)).trans (congrArg (Instr.wrObs · v) (hword word))

/-- Settles O1: a register's own row is found by evaluation, every other row by its mask. -/
theorem decodeInvertsEncode : Obligations.DecodeInvertsEncode := by
  intro i hwf
  cases i with
  | wrObs word v => exact decodeHT_wrObs word v
  | rdRsvd word =>
    have hword := pageDescriptor_word 0#1 word
    exact (decodeHT_reservedRead _ (pageDescriptor_and_mask 0#1 word) (hword.symm ▸ hwf)).trans
      (congrArg Instr.rdRsvd hword)
  | wrRsvd word v =>
    have hword := pageDescriptor_word 1#1 word
    exact (decodeHT_reservedWrite v (pageDescriptor_and_mask 1#1 word) (hword.symm ▸ hwf)).trans
      (congrArg (Instr.wrRsvd · v) hword)
  | rdIbufL k => exact decodeHT_windowDescriptor 34 (f := fun k _ => .rdIbufL k) rfl (by decide) rfl rfl rfl
  | wrIbufL k v => exact decodeHT_windowDescriptor 35 (f := Instr.wrIbufL) rfl (by decide) rfl rfl rfl
  | rdIbufR k => exact decodeHT_windowDescriptor 36 (f := fun k _ => .rdIbufR k) rfl (by decide) rfl rfl rfl
  | wrIbufR k v => exact decodeHT_windowDescriptor 37 (f := Instr.wrIbufR) rfl (by decide) rfl rfl rfl
  | rdObufL k => exact decodeHT_windowDescriptor 38 (f := fun k _ => .rdObufL k) rfl (by decide) rfl rfl rfl
  | wrObufL k v => exact decodeHT_windowDescriptor 39 (f := Instr.wrObufL) rfl (by decide) rfl rfl rfl
  | rdObufR k => exact decodeHT_windowDescriptor 40 (f := fun k _ => .rdObufR k) rfl (by decide) rfl rfl rfl
  | wrObufR k v => exact decodeHT_windowDescriptor 41 (f := Instr.wrObufR) rfl (by decide) rfl rfl rfl
  | rdBuserr size a => exact decodeHT_descriptor_unmapped 0#32 hwf
  | wrBuserr size a v => exact decodeHT_descriptor_unmapped v hwf
  | cmdIllegal v =>
    refine decodeCommand_illegal ?_
    simpa [Instr.wellFormed, illegalCommand] using hwf
  | _ => rfl

/-! Every word is an encoding -/

/-- The operations that read a register of the page (30_encoding R98). -/
def registerReads : List Instr := [.rdCmd, .rdStatus, .rdSrIn, .rdMaxblkIn, .rdFrameCount, .rdDrywet, .rdDepth, .rdRate,
  .rdPhaseOffset, .rdFeedback, .rdType, .rdCfgSr, .rdCfgLen, .rdCfgMaxblk, .rdFramesDone, .rdWheadL, .rdWheadR,
  .rdLfoPhase, .rdFbL, .rdFbR]

/-- The operations that write a register of the page's lower half, with its word number (30_encoding R98). -/
def registerWrites : List (BitVec 5 × (Word → Instr)) := [(0#5, .wrCmd), (1#5, .wrStatus), (2#5, .wrSrIn),
  (3#5, .wrMaxblkIn), (4#5, .wrFrameCount), (8#5, .wrDrywet), (9#5, .wrDepth), (10#5, .wrRate),
  (11#5, .wrPhaseOffset), (12#5, .wrFeedback), (13#5, .wrType)]

/-- The two lists miss no word that is not reserved; the upper half of the page is WR_OBS's. -/
theorem exists_registerRead : ∀ word : BitVec 5, reservedForRead word = false →
    ∃ i ∈ registerReads, i.wellFormed = true ∧ encode i = readWord word := by decide

theorem exists_registerWrite : ∀ word : BitVec 5, reservedForWrite word = false →
    (∃ p ∈ registerWrites, p.1 = word) ∨ word = 1#1 ++ word.extractLsb' 0 4 := by decide

theorem encode_registerWrites (v : Word) :
    ∀ p ∈ registerWrites, (p.2 v).wellFormed = true ∧ encode (p.2 v) = writeWord p.1 v := by
  simp [registerWrites, Instr.wellFormed, encode]

/-- The encoding `e` is that of a well-formed operation. -/
def Encodes (e : Encoding) : Prop := ∃ i : Instr, i.wellFormed = true ∧ encode i = e

theorem encodes_readWord (word : BitVec 5) : Encodes (readWord word) := by
  cases h : reservedForRead word with
  | true => exact ⟨.rdRsvd word, h, rfl⟩
  | false =>
    obtain ⟨i, -, hi⟩ := exists_registerRead word h
    exact ⟨i, hi⟩

theorem encodes_writeWord (word : BitVec 5) (v : Word) : Encodes (writeWord word v) := by
  cases h : reservedForWrite word with
  | true => exact ⟨.wrRsvd word v, h, rfl⟩
  | false =>
    obtain ⟨p, hp, rfl⟩ | hword := exists_registerWrite word h
    · exact ⟨p.2 v, encode_registerWrites v p hp⟩
    · rw [hword]
      exact ⟨.wrObs (word.extractLsb' 0 4) v, rfl, rfl⟩

/-- Regions 1 to 4 are the four windows (20_memory R61). -/
theorem region_cases {region : BitVec 3} (hlt : ¬ 5#3 ≤ region) (h0 : region ≠ 0#3) :
    region = 1#3 ∨ region = 2#3 ∨ region = 3#3 ∨ region = 4#3 := by
  bv_omega

theorem encodes_windowRead {region : BitVec 3} (hlt : ¬ 5#3 ≤ region) (h0 : region ≠ 0#3) (k : WindowIndex) :
    Encodes (.transaction (windowDescriptor 0#1 region k) 0#32) := by
  obtain rfl | rfl | rfl | rfl := region_cases hlt h0
  · exact ⟨.rdIbufL k, rfl, rfl⟩
  · exact ⟨.rdIbufR k, rfl, rfl⟩
  · exact ⟨.rdObufL k, rfl, rfl⟩
  · exact ⟨.rdObufR k, rfl, rfl⟩

theorem encodes_windowWrite {region : BitVec 3} (hlt : ¬ 5#3 ≤ region) (h0 : region ≠ 0#3) (k : WindowIndex) (v : Word) :
    Encodes (.transaction (windowDescriptor 1#1 region k) v) := by
  obtain rfl | rfl | rfl | rfl := region_cases hlt h0
  · exact ⟨.wrIbufL k v, rfl, rfl⟩
  · exact ⟨.wrIbufR k v, rfl, rfl⟩
  · exact ⟨.wrObufL k v, rfl, rfl⟩
  · exact ⟨.wrObufR k v, rfl, rfl⟩

/-- A descriptor reaches no word, a word of the register page, or a word of a window (20_memory R61, 46_host_bus R330). -/
theorem descriptor_cases (ht : Descriptor) :
    (∃ size a, unmappedAccess size a = true ∧ ht = descriptor (ht.extractLsb' 19 1) size a) ∨
    (∃ word, ht = pageDescriptor (ht.extractLsb' 19 1) word) ∨
    (∃ region k, ¬ 5#3 ≤ region ∧ region ≠ 0#3 ∧ ht = windowDescriptor (ht.extractLsb' 19 1) region k) := by
  by_cases hu : unmappedAccess (ht.extractLsb' 17 2) (ht.extractLsb' 0 17) = true
  · exact .inl ⟨_, _, hu, eq_descriptor_of_fields rfl rfl⟩
  · rw [unmappedAccess_iff] at hu
    simp only [not_or, not_not] at hu
    obtain ⟨hsize, halign, hregion, hpage⟩ := hu
    by_cases h0 : ht.extractLsb' 14 3 = 0#3
    · have hoffset : ht.extractLsb' 7 7 = 0#7 := by simpa [h0] using hpage
      refine .inr (.inl ⟨ht.extractLsb' 2 5, eq_descriptor_of_fields hsize ?_⟩)
      rw [extractLsb'_pageAddress, h0, hoffset, halign]
      rfl
    · refine .inr (.inr ⟨ht.extractLsb' 14 3, ht.extractLsb' 2 12, hregion, h0, eq_descriptor_of_fields hsize ?_⟩)
      rw [extractLsb'_address, halign]

/-- Every descriptor, with the WDATA of a write and none of a read, is an operation's encoding (30_encoding R93, R95). -/
theorem encodes_transaction (ht : Descriptor) (v : Word) :
    Encodes (.transaction ht (if ht.getLsbD 19 then v else 0#32)) := by
  have hw : ht.getLsbD 19 = (ht.extractLsb' 19 1).getLsbD 0 := by simp
  have hcases := descriptor_cases ht
  rw [hw]
  generalize ht.extractLsb' 19 1 = w at *
  obtain rfl | rfl : w = 0#1 ∨ w = 1#1 := by bv_omega
  · obtain ⟨size, a, hu, rfl⟩ | ⟨word, rfl⟩ | ⟨region, k, hlt, h0, rfl⟩ := hcases
    · exact ⟨.rdBuserr size a, hu, rfl⟩
    · exact encodes_readWord word
    · exact encodes_windowRead hlt h0 k
  · obtain ⟨size, a, hu, rfl⟩ | ⟨word, rfl⟩ | ⟨region, k, hlt, h0, rfl⟩ := hcases
    · exact ⟨.wrBuserr size a v, hu, rfl⟩
    · exact encodes_writeWord word v
    · exact encodes_windowWrite hlt h0 k v

/-- A row for reads builds the same operation from any WDATA. -/
theorem htRows_read : ∀ r ∈ htRows, r.value.getLsbD 19 = false → ∀ ht v v', r.build ht v = r.build ht v' := by
  simp [htRows, readRows, writeRows, pageRows, windowRows]

/-- A read carries no WDATA (30_encoding R93). -/
theorem decodeHT_read_wdata {ht : Descriptor} (h : ht.getLsbD 19 = false) (v v' : Word) :
    decodeHT ht v = decodeHT ht v' := by
  unfold decodeHT
  cases hfind : htRows.find? (fun r => ht &&& r.mask == r.value) with
  | none =>
    have hread : ¬ ht &&& 0x80000#20 = 0x80000#20 := by
      rw [and_writeBit_iff, h]
      exact Bool.false_ne_true
    simp [decodeBusError, hread]
  | some r =>
    have hmatch : ht &&& r.mask = r.value := by simpa using List.find?_some hfind
    have hread : r.value.getLsbD 19 = false := by rw [← hmatch, BitVec.getLsbD_and, h, Bool.false_and]
    exact htRows_read r (List.mem_of_find?_eq_some hfind) hread ht v v'

/-- A legal command word is NOP's, CONFIGURE's or PROCESS's (30_encoding R91). -/
theorem legalCommand_cases {v : Word} (h : ¬ (v.extractLsb' 4 28 ≠ 0#28 ∨ 3#4 ≤ v.extractLsb' 0 4)) :
    v = 0#32 ∨ v = 1#32 ∨ v = 2#32 := by
  obtain ⟨hrsvd, hop⟩ := not_or.1 h
  have hv := word_eq_of_op (not_not.1 hrsvd) rfl
  by_cases h0 : v.extractLsb' 0 4 = 0#4
  · rw [h0] at hv
    exact .inl hv
  · by_cases h1 : v.extractLsb' 0 4 = 1#4
    · rw [h1] at hv
      exact .inr (.inl hv)
    · rw [op_eq_two hop h0 h1] at hv
      exact .inr (.inr hv)

/-- Settles O2: a descriptor is some operation's encoding, and O1 decodes it to that one; so is a command word. -/
theorem everyWordIsOneWellFormedOperation : Obligations.EveryWordIsOneWellFormedOperation := by
  refine ⟨fun ht wd => ?_, fun v => ?_⟩
  · obtain ⟨i, hwf, hi⟩ := encodes_transaction ht wd
    have hdecode : decodeHT ht (if ht.getLsbD 19 then wd else 0#32) = i := by
      have := decodeInvertsEncode i hwf
      rwa [hi] at this
    have hwd : decodeHT ht wd = i := by
      rw [← hdecode]
      split
      next => rfl
      next hread => exact decodeHT_read_wdata (by simpa using hread) _ _
    rw [hwd]
    exact ⟨hwf, hi⟩
  · by_cases hv : v.extractLsb' 4 28 ≠ 0#28 ∨ 3#4 ≤ v.extractLsb' 0 4
    · rw [decodeCommand_illegal hv]
      exact ⟨by simpa [Instr.wellFormed, illegalCommand] using hv, rfl⟩
    · obtain rfl | rfl | rfl := legalCommand_cases hv <;> exact ⟨rfl, rfl⟩

/-- Settles O3: each word is decoded. -/
theorem specVectorWordsDecode : Obligations.SpecVectorWordsDecode := by
  unfold Obligations.SpecVectorWordsDecode
  decide

end Sys2Proof

namespace Sys2Proof.Machine

/-- Settles O6: an illegal word is refused either way, and the three legal words run the same command. -/
theorem commandWriteRunsItsCommandWord : Obligations.CommandWriteRunsItsCommandWord := by
  intro s v
  by_cases hv : v.extractLsb' 4 28 ≠ 0#28 ∨ 3#4 ≤ v.extractLsb' 0 4
  · rw [decodeCommand_illegal hv, exec_wrCmd_illegal hv]
  · obtain rfl | rfl | rfl := legalCommand_cases hv
    · exact exec_wrCmd_nop s
    · exact exec_wrCmd_configure s
    · exact exec_wrCmd_process s

/-- A transaction put first on the agenda is what the next step runs (20_memory R68). -/
theorem step_pushEvent_host (s : State) (ht : Descriptor) (v : Word) :
    step (s.pushEvent (.host ht v)) = exec (decodeHT ht v) s := rfl

/-- A placed encoding runs as the operation it decodes to, a command word through CMD (45_commands R240). -/
theorem step_pushEvent_eventOf (s : State) (e : Encoding) : step (s.pushEvent (eventOf e)) = exec (decode e) s := by
  cases e with
  | transaction ht v => exact step_pushEvent_host s ht v
  | command v => exact (step_pushEvent_host s _ v).trans (commandWriteRunsItsCommandWord s v)

/-- Settles O5: the record's encoding is what is placed, and its decoding is what runs. -/
theorem stepRunsThePlacedRecord : Obligations.StepRunsThePlacedRecord := by
  intro s nbits w i h
  unfold decodeTableWord decodeRecord at h
  unfold State.withFetchWord
  cases he : encodingOfRecord nbits w with
  | error e =>
    rw [he] at h
    cases h
  | ok e =>
    rw [he] at h
    obtain rfl : decode e = i := Option.some.inj h
    exact step_pushEvent_eventOf s e

end Sys2Proof.Machine
end

section
/-! The total order's steps, RESET, and what the window and parameter transactions do (20_memory R68, 46_host_bus R285 to
R326, 70_reset_and_hazards R390). -/

namespace Sys2Proof.Machine

/-! One step for each kind of agenda entry -/

section
variable {s : State}

theorem step_of_host {ht : Descriptor} {v : Word} {rest : List Event} (h : s.agenda = .host ht v :: rest) :
    step s = exec (decodeHT ht v) { s with agenda := rest } := by
  simp only [step, stepWith, h, State.popAgenda, List.tail_cons]

theorem step_of_engine {rest : List Event} (h : s.agenda = .engine :: rest) :
    step s = engineStep sine { s with agenda := rest } := by
  simp only [step, stepWith, h, State.popAgenda, List.tail_cons]

theorem step_of_empty (h : s.agenda = []) : step s = engineStep sine s := by
  simp only [step, stepWith, h]

theorem step_of_reset {rest : List Event} (h : s.agenda = .reset :: rest) :
    step s = .next { State.reset with epoch := s.epoch + 1, agenda := rest } := by
  simp only [step, stepWith, h, State.popAgenda, List.tail_cons, resetEvent]

theorem engineStep_of_idle {sn : Word → Word} (h : s.pend = .none) : engineStep sn s = .next s :=
  engineStep_next.2 (.inl ⟨h, rfl⟩)

end

/-- Settles O4: one equation for each kind of entry. -/
theorem stepPerformsTheNextAgendaEntry : Obligations.StepPerformsTheNextAgendaEntry := by
  refine fun s => ⟨fun ht wd rest i h hi => ?_, fun rest => step_of_engine, step_of_empty, fun rest => step_of_reset,
    engineStep_of_idle⟩
  rw [step_of_host h, hi]

/-! The words of a lane -/

theorem inputWord_of_read {s : State} {c : Channel} {k : Nat} {v : Word} (h : (s.lane c).ibuf.read k = some v) :
    inputWord s c k = v := by
  simp [inputWord, readOrDraw, h]

theorem inputWord_of_unwritten {s : State} {c : Channel} {k : Nat} (h : (s.lane c).ibuf.read k = none) :
    inputWord s c k = Config.draw s.epoch (.inputWindow c) k := by
  simp [inputWord, readOrDraw, h]

theorem outputWord_of_read {s : State} {c : Channel} {k : Nat} {v : Word} (h : (s.lane c).obuf.read k = some v) :
    outputWord s c k = v := by
  simp [outputWord, readOrDraw, h]

theorem outputWord_of_unwritten {s : State} {c : Channel} {k : Nat} (h : (s.lane c).obuf.read k = none) :
    outputWord s c k = Config.draw s.epoch (.outputWindow c) k := by
  simp [outputWord, readOrDraw, h]

theorem delayWord_of_unwritten {s : State} {c : Channel} {k : Nat} (h : (s.lane c).dl.read k = none) :
    delayWord s c k = Config.draw s.epoch (.delayRam c) k := by
  simp [delayWord, readOrDraw, h]

/-- Settles O37: every word of a reset lane is unwritten. -/
theorem resetEventRestoresTheResetState : Obligations.ResetEventRestoresTheResetState := by
  refine fun s rest h => ⟨_, step_of_reset h, rfl, rfl, rfl, fun c i => ?_⟩
  cases c <;>
    exact ⟨delayWord_of_unwritten (Memory.read_unspecified i), inputWord_of_unwritten (Memory.read_unspecified i),
      outputWord_of_unwritten (Memory.read_unspecified i)⟩

/-- Settles O14: the rows of the two reads, and the word a read finds in the window. -/
theorem inputWindowReads : Obligations.InputWindowReads :=
  ⟨fun _ _ h => decodeHT_row 34 rfl (by decide) h, fun _ _ h => decodeHT_row 36 rfl (by decide) h,
    fun s _ => ⟨completeRead_eq s _, completeRead_eq s _, fun _ _ => inputWord_of_read,
      fun _ => inputWord_of_unwritten⟩⟩

/-- Settles O15: the rows of the two reads, and the word a read finds in the window. -/
theorem outputWindowReads : Obligations.OutputWindowReads :=
  ⟨fun _ _ h => decodeHT_row 38 rfl (by decide) h, fun _ _ h => decodeHT_row 40 rfl (by decide) h,
    fun s _ => ⟨completeRead_eq s _, completeRead_eq s _, fun _ _ => outputWord_of_read,
      fun _ => outputWord_of_unwritten⟩⟩

/-! Writes -/

/-- Settles O19: a parameter write answers with its own field replaced, and the snapshot clamps field by field. -/
theorem parameterWritesAlwaysAccepted : Obligations.ParameterWritesAlwaysAccepted :=
  ⟨fun _ => rfl, fun _ => rfl, fun _ => rfl, fun _ => rfl, fun _ => rfl, fun _ => rfl,
    fun _ _ => ⟨completeWrite_eq _, completeWrite_eq _, completeWrite_eq _, completeWrite_eq _, completeWrite_eq _,
      completeWrite_eq _⟩,
    fun _ _ => ⟨rfl, rfl, rfl, rfl, rfl, fun _ => rfl⟩⟩

section
variable (s : State) (c c' : Channel) (k j : Nat) (v : Word)

/-- A stored input word is read back, and every other input word reads as before (20_memory R68). -/
theorem inputWord_storeInput :
    inputWord (s.storeInput c k v) c' j = if c' = c ∧ j = k then v else inputWord s c' j := by
  unfold inputWord State.storeInput
  rw [State.setLane_epoch]
  by_cases hc : c' = c
  · subst hc
    rw [State.lane_setLane_same]
    by_cases hj : j = k
    · subst hj
      simp
    · simp [hj, readOrDraw_write_other]
  · simp [hc, State.lane_setLane_other]

theorem outputWord_storeInput : outputWord (s.storeInput c k v) c' j = outputWord s c' j := by
  cases c <;> cases c' <;> rfl

theorem delayWord_storeInput : delayWord (s.storeInput c k v) c' j = delayWord s c' j := by
  cases c <;> cases c' <;> rfl

end

/-- An answer changes no memory word. -/
@[simp] theorem inputWord_answer (s : State) (r : Option Word) (c : Channel) (j : Nat) :
    inputWord (s.answer r) c j = inputWord s c j := by
  cases c <;> rfl

/-- While idle, a write of input word `k` stores it and changes no other word (46_host_bus R321, R323). -/
theorem storeInput_words (s : State) (c : Channel) (k : Nat) (v : Word) (c' : Channel) (j : Nat) :
    inputWord ((s.storeInput c k v).answer none) c' j = (if c' = c ∧ j = k then v else inputWord s c' j) ∧
      outputWord ((s.storeInput c k v).answer none) c' j = outputWord s c' j ∧
      delayWord ((s.storeInput c k v).answer none) c' j = delayWord s c' j := by
  refine ⟨by rw [inputWord_answer, inputWord_storeInput], ?_, ?_⟩
  · rw [← outputWord_storeInput s c c' k j v]
    cases c' <;> rfl
  · rw [← delayWord_storeInput s c c' k j v]
    cases c' <;> rfl

/-- Settles O20: the two writes are under the busy lockout, and while idle store one word. -/
theorem inputWindowWritesUnderBusyLockout : Obligations.InputWindowWritesUnderBusyLockout := by
  refine ⟨fun _ _ h => decodeHT_row 35 rfl (by decide) h, fun _ _ h => decodeHT_row 37 rfl (by decide) h,
    fun s k wd => ⟨fun hidle => ?_, fun hidle => ?_, fun hbusy => ⟨lockedWrite_busy hbusy, lockedWrite_busy hbusy⟩⟩⟩
  · exact ⟨_, lockedWrite_idle hidle, rfl, storeInput_words s .left k.toNat wd⟩
  · exact ⟨_, lockedWrite_idle hidle, rfl, storeInput_words s .right k.toNat wd⟩

end Sys2Proof.Machine
end

section
/-! Every operation completes: it is accepted or refused whatever the error bits hold, leaves the engine alone, and a read or
a store may be repeated (20_memory R65, 46_host_bus R270 to R273). -/

namespace Sys2Proof.Machine

/-! Accepted or refused (46_host_bus R272) -/

/-- The operation `f`, whose refusal answers `r`, completes from `s` in the same way whatever the error bits hold: it is
accepted and leaves them, or is refused and sets one. -/
def AcceptsOrRefuses (r : Option Word) (f : State → HostResult) (s : State) : Prop :=
  (∀ errs, ∃ t, f { s with errors := errs } = .next t ∧ t.errors = errs) ∨
    ∃ e, ∀ errs, f { s with errors := errs } = .next { s with errors := errs.set e, rdata := r }

section
variable {r : Option Word} {s : State}

theorem acceptsOrRefuses_of_refuses (e : ErrorBit) : AcceptsOrRefuses r (fun s => .next ((s.raise e).answer r)) s :=
  .inr ⟨e, fun _ => rfl⟩

/-- A check that does not look at the error bits decides in the same way whatever they hold. -/
theorem acceptsOrRefuses_ite {p : State → Prop} [DecidablePred p] {f g : State → HostResult}
    (hp : ∀ errs, p { s with errors := errs } ↔ p s) (hf : AcceptsOrRefuses r f s) (hg : AcceptsOrRefuses r g s) :
    AcceptsOrRefuses r (fun s => if p s then f s else g s) s := by
  by_cases h : p s
  · simpa only [AcceptsOrRefuses, hp, if_pos h] using hf
  · simpa only [AcceptsOrRefuses, hp, if_neg h] using hg

/-- A locked write is accepted or refused by PEND alone. -/
theorem acceptsOrRefuses_lockedWrite {f : State → State} (hf : ∀ errs, (f { s with errors := errs }).errors = errs) :
    AcceptsOrRefuses none (fun s => lockedWrite s (f s)) s :=
  acceptsOrRefuses_ite (fun _ => Iff.rfl) (acceptsOrRefuses_of_refuses .busy) (.inl fun errs => ⟨_, rfl, hf errs⟩)

/-- So is every command word, by PEND, SR_IN, CONFIGURED, FRAME_COUNT and CFG_MAXBLK (45_commands R240). -/
theorem acceptsOrRefuses_command {i : Instr} (hi : i.isCommand = true) : AcceptsOrRefuses none (exec i) s := by
  cases i with
  | nop => exact acceptsOrRefuses_ite (fun _ => Iff.rfl) (acceptsOrRefuses_of_refuses .busy) (.inl fun _ => ⟨_, rfl, rfl⟩)
  | configure =>
    exact acceptsOrRefuses_ite (fun _ => Iff.rfl) (acceptsOrRefuses_of_refuses .busy)
      (acceptsOrRefuses_ite (fun _ => Iff.rfl) (.inl fun _ => ⟨_, rfl, rfl⟩) (acceptsOrRefuses_of_refuses .cfg))
  | process =>
    exact acceptsOrRefuses_ite (fun _ => Iff.rfl) (acceptsOrRefuses_of_refuses .busy)
      (acceptsOrRefuses_ite (fun _ => Iff.rfl) (acceptsOrRefuses_of_refuses .unconf)
        (acceptsOrRefuses_ite (fun _ => Iff.rfl) (acceptsOrRefuses_of_refuses .count)
          (.inl fun _ => ⟨_, rfl, State.pendProcess_errors _⟩)))
  | cmdIllegal _ =>
    exact acceptsOrRefuses_ite (fun _ => Iff.rfl) (acceptsOrRefuses_of_refuses .busy) (acceptsOrRefuses_of_refuses .cmd)
  | _ => cases hi

/-- The legal command words and the illegal ones are command words, never a read. -/
theorem decodeCommand_isCommand (v : Word) : (decodeCommand v).isCommand = true := by
  unfold decodeCommand
  split_ifs <;> rfl

theorem exec_acceptsOrRefuses (i : Instr) (s : State) :
    AcceptsOrRefuses (if i.isRead then some 0x00000000#32 else none) (exec i) s := by
  cases i with
  | nop | configure | process | cmdIllegal _ => exact acceptsOrRefuses_command rfl
  | wrCmd v =>
    rw [show exec (.wrCmd v) = exec (decodeCommand v) from funext fun s => commandWriteRunsItsCommandWord s v]
    exact acceptsOrRefuses_command (decodeCommand_isCommand v)
  | wrSrIn _ | wrMaxblkIn _ | wrFrameCount _ | wrIbufL _ _ | wrIbufR _ _ =>
    exact acceptsOrRefuses_lockedWrite fun _ => rfl
  | rdBuserr _ _ | wrBuserr _ _ _ => exact acceptsOrRefuses_of_refuses .bus
  | _ => exact .inl fun _ => ⟨_, rfl, rfl⟩

end

/-- Settles O28: each operation is a chain of checks that do not look at the error bits. -/
theorem refusalSetsOneErrorBitOnly : Obligations.RefusalSetsOneErrorBitOnly := exec_acceptsOrRefuses

/-- No operation waits or stops (46_host_bus R270). -/
theorem exec_completes (i : Instr) (s : State) : ∃ t, exec i s = .next t := by
  obtain h | ⟨e, h⟩ := exec_acceptsOrRefuses i s
  · obtain ⟨t, ht, -⟩ := h s.errors
    exact ⟨t, ht⟩
  · exact ⟨_, h s.errors⟩

/-! The engine's state (46_host_bus R273) -/

/-- The step from `s` to `t` leaves the delay lines, write heads, feedback and output windows of both lanes, the phase, the
configuration and the coming steps alone. -/
structure LeavesEngine (s t : State) : Prop where
  left : t.left = { s.left with ibuf := t.left.ibuf }
  right : t.right = { s.right with ibuf := t.right.ibuf }
  phase : t.phase = s.phase
  configured : t.configured = s.configured
  blkClamped : t.blkClamped = s.blkClamped
  cfgSr : t.cfgSr = s.cfgSr
  cfgLen : t.cfgLen = s.cfgLen
  cfgMaxblk : t.cfgMaxblk = s.cfgMaxblk
  epoch : t.epoch = s.epoch
  agenda : t.agenda = s.agenda

section
variable {s t : State}

theorem leavesEngine_pendProcess (s : State) (r : Option Word) : LeavesEngine s (s.pendProcess.answer r) := by
  unfold State.pendProcess
  split <;> constructor <;> rfl

theorem leavesEngine_storeInput (s : State) (c : Channel) (k : Nat) (v : Word) (r : Option Word) :
    LeavesEngine s ((s.storeInput c k v).answer r) := by
  cases c <;> constructor <;> rfl

theorem leavesEngine_of_accept {v : Word} (h : accept v s = .next t) : LeavesEngine s t := by
  obtain ⟨e, h'⟩ | ⟨-, h'⟩ | ⟨-, -, h'⟩ | ⟨-, -, -, h'⟩ := accept_cases v s <;> cases h.symm.trans h'
  · constructor <;> rfl
  · constructor <;> rfl
  · constructor <;> rfl
  · exact leavesEngine_pendProcess s none

theorem HostEffect.leavesEngine {i : Instr} (h : HostEffect i s t) : LeavesEngine s t := by
  cases h with
  | storesInput _ c k v => exact leavesEngine_storeInput s c k v none
  | writesCommand _ _ h => exact leavesEngine_of_accept h
  | _ => constructor <;> rfl

end

/-- A command word does what some transaction does: the write of it to CMD, or for CMD_ILLEGAL of any illegal word. -/
theorem exec_eq_transaction (i : Instr) : ∃ i' : Instr, i'.isCommand = false ∧ ∀ s, exec i s = exec i' s := by
  cases i with
  | nop => exact ⟨.wrCmd 0#32, rfl, fun s => (exec_wrCmd_nop s).symm⟩
  | configure => exact ⟨.wrCmd 1#32, rfl, fun s => (exec_wrCmd_configure s).symm⟩
  | process => exact ⟨.wrCmd 2#32, rfl, fun s => (exec_wrCmd_process s).symm⟩
  | cmdIllegal _ => exact ⟨.wrCmd 3#32, rfl, fun s => (exec_wrCmd_illegal (v := 3#32) (by decide) s).symm⟩
  | _ => exact ⟨_, rfl, fun _ => rfl⟩

/-- Settles O29: an operation completes, and each of its possible effects leaves the engine alone. -/
theorem transactionsLeaveTheEngineState : Obligations.TransactionsLeaveTheEngineState := by
  intro i s
  obtain ⟨t, ht⟩ := exec_completes i s
  obtain ⟨i', hi', heq⟩ := exec_eq_transaction i
  obtain ⟨h1, h2, h3, h4, h5, h6, h7, h8, h9, h10⟩ := (exec_hostEffect hi' (heq s ▸ ht)).leavesEngine
  exact ⟨t, ht, h1, h2, h3, h4, h5, h6, h7, h8, h9, h10⟩

/-! Repeating a read or a store (20_memory R65) -/

/-- A read of a mapped word answers and does nothing else, and the word it returns does not depend on the last answer. -/
theorem exec_mappedRead {i : Instr} (hi : i.isMappedRead = true) (s : State) :
    ∃ t w, exec i s = .next t ∧ t = { s with rdata := some w } ∧ exec i t = .next t := by
  cases i with
  | wrCmd _ | wrStatus _ | wrSrIn _ | wrMaxblkIn _ | wrFrameCount _ | wrDrywet _ | wrDepth _ | wrRate _
  | wrPhaseOffset _ | wrFeedback _ | wrType _ | wrObs _ _ | wrRsvd _ _ | wrIbufL _ _ | wrIbufR _ _ | wrObufL _ _
  | wrObufR _ _ | rdBuserr _ _ | wrBuserr _ _ _ | nop | configure | process | cmdIllegal _ => cases hi
  | _ => exact ⟨_, _, rfl, rfl, rfl⟩

theorem insertCell_idem (cells : List (Nat × Word)) (i : Nat) (v : Word) :
    insertCell (insertCell cells i v) i v = insertCell cells i v := by
  induction cells with
  | nil => simp [insertCell]
  | cons c rest ih =>
    obtain ⟨j, w⟩ := c
    by_cases hlt : i < j
    · simp [insertCell, hlt]
    · by_cases heq : i = j
      · simp [insertCell, heq]
      · simp [insertCell, hlt, heq, ih]

theorem eraseCell_idem (cells : List (Nat × Word)) (i : Nat) :
    eraseCell (eraseCell cells i) i = eraseCell cells i := by
  simp [eraseCell_eq_filter]

/-- Storing a word twice is storing it once. -/
theorem Memory.write_idem (m : Memory) (i : Nat) (v : Word) : (m.write i v).write i v = m.write i v := by
  by_cases h : m.unlisted i = some v
  · have h' : (m.write i v).unlisted i = some v := by rw [Memory.unlisted_write, h]
    rw [Memory.write, if_pos h']
    simp [Memory.write, h, eraseCell_idem]
  · have h' : (m.write i v).unlisted i ≠ some v := by rwa [Memory.unlisted_write]
    rw [Memory.write, if_neg h']
    simp [Memory.write, h, insertCell_idem]

theorem storeInput_answer_idem (s : State) (c : Channel) (k : Nat) (v : Word) (r : Option Word) :
    (((s.storeInput c k v).answer r).storeInput c k v).answer r = (s.storeInput c k v).answer r := by
  cases c <;> simp [State.storeInput, State.setLane, State.answer, State.lane, Memory.write_idem]

/-- A locked write whose effect, repeated, is itself may be repeated: a refusal sets a bit that stays set, and a store
leaves PEND alone. -/
theorem lockedWrite_repeats {f : State → State} {s : State} (hpend : (f s).pend = s.pend)
    (hf : (f ((f s).answer none)).answer none = (f s).answer none) :
    ∃ t, lockedWrite s (f s) = .next t ∧ lockedWrite t (f t) = .next t := by
  by_cases hp : s.pend = .none
  · have hp' : ((f s).answer none).pend = .none := hpend.trans hp
    exact ⟨_, lockedWrite_idle hp, (lockedWrite_idle hp').trans (congrArg Host.Outcome.next hf)⟩
  · exact ⟨_, lockedWrite_busy hp, lockedWrite_busy (s := (s.raise .busy).answer none) hp⟩

theorem exec_store_repeats {i : Instr} (hi : i.storesAWord = true) (s : State) :
    ∃ t, exec i s = .next t ∧ exec i t = .next t := by
  cases i with
  | wrDrywet _ | wrDepth _ | wrRate _ | wrPhaseOffset _ | wrFeedback _ | wrType _ => exact ⟨_, rfl, rfl⟩
  | wrSrIn v => exact lockedWrite_repeats (f := fun s => { s with srIn := v }) rfl rfl
  | wrMaxblkIn v => exact lockedWrite_repeats (f := fun s => { s with maxblkIn := v }) rfl rfl
  | wrFrameCount v => exact lockedWrite_repeats (f := fun s => { s with frameCount := v }) rfl rfl
  | wrIbufL k v =>
    exact lockedWrite_repeats (f := (·.storeInput .left k.toNat v)) rfl (storeInput_answer_idem s .left k.toNat v none)
  | wrIbufR k v =>
    exact lockedWrite_repeats (f := (·.storeInput .right k.toNat v)) rfl (storeInput_answer_idem s .right k.toNat v none)
  | _ => cases hi

/-- The reset state with SR_IN = 1, in which CONFIGURE is accepted and a second CONFIGURE finds the core busy. -/
def readyToConfigure : State := { State.reset with srIn := 0x3F800000#32 }

/-- Settles O16: CONFIGURE twice sets ERR_BUSY, which once it does not. -/
theorem readsHaveNoSideEffect : Obligations.ReadsHaveNoSideEffect := by
  refine ⟨fun i s hi => exec_mappedRead hi s, fun i s hi => exec_store_repeats hi s,
    0x00000001#32, readyToConfigure, readyToConfigure.pendConfig.answer none,
    (readyToConfigure.pendConfig.raise .busy).answer none, ?_, exec_wrCmd_busy _ (by decide), fun h => ?_⟩
  · exact (exec_wrCmd_configure _).trans (exec_configure_valid rfl (by decide +kernel))
  · have herr : (readyToConfigure.pendConfig.raise .busy).errors = readyToConfigure.pendConfig.errors :=
      congrArg State.errors h
    exact absurd herr (by decide)

end Sys2Proof.Machine
end

section
/-! What the engine's turn leaves alone, and what follows for every step: the error bits, CONFIGURED, FRAMES_DONE, the operands
of a pending command, and a second CONFIGURE (10_state R22, R23; 20_memory R72; 45_commands R249; 60_exceptions R352). -/

namespace Sys2Proof.Machine

/-! The engine's turn -/

/-- The step from `s` to `t` leaves the host's registers, the parameters, the input windows and the model's own fields
alone. -/
structure LeavesHost (s t : State) : Prop where
  errors : t.errors = s.errors
  params : t.params = s.params
  srIn : t.srIn = s.srIn
  maxblkIn : t.maxblkIn = s.maxblkIn
  frameCount : t.frameCount = s.frameCount
  epoch : t.epoch = s.epoch
  rdata : t.rdata = s.rdata
  agenda : t.agenda = s.agenda
  ibuf : ∀ c, (t.lane c).ibuf = (s.lane c).ibuf

section
variable {sn : Word → Word} {s t : State}

theorem leavesHost_configResult (h : configResult s = .ok t) : LeavesHost s t := by
  obtain ⟨len, -, rfl⟩ := configResult_ok.1 h
  exact ⟨rfl, rfl, rfl, rfl, rfl, rfl, rfl, rfl, fun c => by cases c <;> rfl⟩

/-- Neither part of a lane's frame writes the input window (44_engine_frame R203 to R215). -/
theorem frameResult_ibuf (h : frameResult sn s = .ok t) (c : Channel) : (t.lane c).ibuf = (s.lane c).ibuf := by
  obtain ⟨inp, m, hin, hout⟩ := frameResult_lane h c
  obtain ⟨-, -, -, hlane⟩ := laneInput_ok.1 hin
  obtain ⟨-, read, -, hlane'⟩ := laneOutput_ok.1 hout
  rw [hlane', hlane]

theorem leavesHost_frameResult (h : frameResult sn s = .ok t) : LeavesHost s t := by
  have hibuf := frameResult_ibuf h
  obtain ⟨_, _, _, _, _, -, -, -, -, -, rfl⟩ := frameResult_ok.1 h
  exact ⟨rfl, rfl, rfl, rfl, rfl, rfl, rfl, rfl, hibuf⟩

theorem leavesHost_engineStep (h : engineStep sn s = .next t) : LeavesHost s t := by
  obtain ⟨-, rfl⟩ | ⟨-, hc⟩ | ⟨-, hf⟩ := engineStep_next.1 h
  · exact ⟨rfl, rfl, rfl, rfl, rfl, rfl, rfl, rfl, fun _ => rfl⟩
  · exact leavesHost_configResult hc
  · exact leavesHost_frameResult hf

theorem LeavesHost.inputWord (h : LeavesHost s t) (c : Channel) (j : Nat) : inputWord t c j = inputWord s c j := by
  rw [Machine.inputWord, Machine.inputWord, h.epoch, h.ibuf]

/-- Settles O35: neither the configuration nor a frame writes what the host owns. -/
theorem engineRaisesNoError : Obligations.EngineRaisesNoError := by
  intro s t h
  have hl := leavesHost_engineStep h
  refine ⟨hl.errors, hl.params, hl.srIn, hl.maxblkIn, hl.frameCount, hl.epoch, hl.rdata, hl.agenda, hl.inputWord,
    fun hidle => ?_⟩
  rw [engineStep_of_idle hidle] at h
  cases h
  rfl

/-- What the engine's turn does to CONFIGURED and FRAMES_DONE (10_state R22, R23). -/
theorem engineStep_progress (h : engineStep sn s = .next t) :
    (s.pend = .none ∧ t.configured = s.configured ∧ t.framesDone = s.framesDone) ∨
    (s.pend = .config ∧ t.configured = true ∧ t.framesDone = 0) ∨
    (s.pend = .process ∧ t.configured = s.configured ∧ t.framesDone = s.framesDone + 1) := by
  obtain ⟨hp, rfl⟩ | ⟨hp, hc⟩ | ⟨hp, hf⟩ := engineStep_next.1 h
  · exact .inl ⟨hp, rfl, rfl⟩
  · obtain ⟨len, -, rfl⟩ := configResult_ok.1 hc
    exact .inr (.inl ⟨hp, rfl, rfl⟩)
  · obtain ⟨_, _, _, _, _, -, -, -, -, -, rfl⟩ := frameResult_ok.1 hf
    exact .inr (.inr ⟨hp, rfl, rfl⟩)

/-! Transactions -/

/-- A transaction leaves the error bits or sets one (60_exceptions R352). -/
theorem exec_errors {i : Instr} (h : exec i s = .next t) : t.errors = s.errors ∨ ∃ e, t.errors = s.errors.set e := by
  obtain hacc | ⟨e, href⟩ := exec_acceptsOrRefuses i s
  · obtain ⟨u, hu, herr⟩ := hacc s.errors
    cases h.symm.trans hu
    exact .inl herr
  · cases h.symm.trans (href s.errors)
    exact .inr ⟨e, rfl⟩

theorem accept_framesDone {v : Word} (h : accept v s = .next t) : t.framesDone = s.framesDone ∨ t.framesDone = 0 := by
  obtain ⟨e, h'⟩ | ⟨-, h'⟩ | ⟨-, -, h'⟩ | ⟨-, -, -, h'⟩ := accept_cases v s <;> cases h.symm.trans h'
  · exact .inl rfl
  · exact .inl rfl
  · exact .inl rfl
  · exact .inr (by simp)

theorem HostEffect.framesDone {i : Instr} (h : HostEffect i s t) : t.framesDone = s.framesDone ∨ t.framesDone = 0 := by
  cases h with
  | writesCommand _ _ h => exact accept_framesDone h
  | storesInput => exact .inl (by simp)
  | _ => exact .inl rfl

/-- The operands of a command: SR_IN, MAXBLK_IN, FRAME_COUNT and the input words (20_memory R72). -/
structure KeepsOperands (s t : State) : Prop where
  srIn : t.srIn = s.srIn
  maxblkIn : t.maxblkIn = s.maxblkIn
  frameCount : t.frameCount = s.frameCount
  inputWord : ∀ c j, inputWord t c j = inputWord s c j

theorem LeavesHost.keepsOperands (h : LeavesHost s t) : KeepsOperands s t :=
  ⟨h.srIn, h.maxblkIn, h.frameCount, h.inputWord⟩

/-- While a command is pending, ACCEPT refuses every word and a locked write is refused (46_host_bus R271). -/
theorem HostEffect.keepsOperands {i : Instr} (h : HostEffect i s t) (hbusy : s.pend ≠ .none) : KeepsOperands s t := by
  cases h with
  | setsOperands idle => exact absurd idle hbusy
  | storesInput idle => exact absurd idle hbusy
  | writesCommand v _ h =>
    cases h.symm.trans (exec_wrCmd_busy v hbusy)
    exact ⟨rfl, rfl, rfl, fun c _ => by cases c <;> rfl⟩
  | _ => exact ⟨rfl, rfl, rfl, fun c _ => by cases c <;> rfl⟩

/-! Every step -/

/-- Everything a step but RESET can do: the engine's turn, or a transaction, from the state without the agenda's entry. -/
theorem step_not_reset (h : step s = .next t) (hr : ¬ ResetTurn s) :
    (EngineTurn s ∧ ∃ rest, engineStep sine { s with agenda := rest } = .next t) ∨
    (¬ EngineTurn s ∧ ∃ i rest, i.isCommand = false ∧ exec i { s with agenda := rest } = .next t) := by
  rcases ha : s.agenda with _ | ⟨ht | _ | _, rest⟩
  · rw [step_of_empty ha] at h
    exact .inl ⟨.inl ha, s.agenda, h⟩
  · rw [step_of_host ha] at h
    exact .inr ⟨by simp [EngineTurn, ha], _, rest, decodeHT_isCommand _ _, h⟩
  · rw [step_of_engine ha] at h
    exact .inl ⟨.inr ⟨rest, ha⟩, rest, h⟩
  · exact absurd ⟨rest, ha⟩ hr

theorem step_reset (h : step s = .next t) (hr : ResetTurn s) :
    ∃ rest, t = { State.reset with epoch := s.epoch + 1, agenda := rest } := by
  obtain ⟨rest, ha⟩ := hr
  rw [step_of_reset ha] at h
  cases h
  exact ⟨rest, rfl⟩

theorem not_resetTurn_of_engineTurn (h : EngineTurn s) : ¬ ResetTurn s := by
  rintro ⟨rest, hr⟩
  obtain ha | ⟨rest', ha⟩ := h <;> rw [hr] at ha <;> cases ha

end

/-- Settles O30: an engine turn leaves the error bits, a transaction at most sets one, and RESET clears them. -/
theorem errorBitsStayUntilReset : Obligations.ErrorBitsStayUntilReset := by
  refine fun s t h => ⟨fun hr e he => ?_, fun hr e => ?_⟩
  · obtain ⟨-, rest, hstep⟩ | ⟨-, i, rest, -, hexec⟩ := step_not_reset h hr
    · rw [(leavesHost_engineStep hstep).errors]
      exact he
    · obtain heq | ⟨b, heq⟩ := exec_errors hexec <;> rw [heq]
      · exact he
      · rw [Errors.get_set]
        split
        · rfl
        · exact he
  · obtain ⟨rest, rfl⟩ := step_reset h hr
    exact Errors.get_reset e

/-- Settles O31: a transaction leaves CONFIGURED, a frame leaves it, the configuration sets it, and RESET clears it. -/
theorem onlyResetUnconfigures : Obligations.OnlyResetUnconfigures := by
  refine fun s t h => ⟨fun hr hc => ?_, fun hc ht => ?_, fun hr => ?_⟩
  · obtain ⟨-, rest, hstep⟩ | ⟨-, i, rest, hi, hexec⟩ := step_not_reset h hr
    · obtain ⟨-, heq, -⟩ | ⟨-, heq, -⟩ | ⟨-, heq, -⟩ := engineStep_progress hstep
      · exact heq.trans hc
      · exact heq
      · exact heq.trans hc
    · exact (exec_hostEffect hi hexec).leavesEngine.configured.trans hc
  · by_cases hr : ResetTurn s
    · obtain ⟨rest, rfl⟩ := step_reset h hr
      cases ht
    · obtain ⟨hturn, rest, hstep⟩ | ⟨-, i, rest, hi, hexec⟩ := step_not_reset h hr
      · obtain ⟨-, heq, -⟩ | ⟨hp, -, -⟩ | ⟨-, heq, -⟩ := engineStep_progress hstep
        · simp_all
        · exact ⟨hturn, hp⟩
        · simp_all
      · have heq : t.configured = s.configured := (exec_hostEffect hi hexec).leavesEngine.configured
        simp_all
  · obtain ⟨rest, rfl⟩ := step_reset h hr
    rfl

/-- Settles O33: a frame adds 1; the configuration, an accepted PROCESS and RESET clear it; nothing else touches it. -/
theorem framesDoneAdvancesByFrameStepsOnly : Obligations.FramesDoneAdvancesByFrameStepsOnly := by
  refine fun s t h => ⟨fun hturn hp => ?_, fun hnot => ?_⟩
  · obtain ⟨-, rest, hstep⟩ | ⟨hno, -⟩ := step_not_reset h (not_resetTurn_of_engineTurn hturn)
    · obtain ⟨hp', -⟩ | ⟨hp', -⟩ | ⟨-, -, heq⟩ := engineStep_progress hstep
      · exact absurd (hp.symm.trans hp') (by decide)
      · exact absurd (hp.symm.trans hp') (by decide)
      · exact heq
    · exact absurd hturn hno
  · by_cases hr : ResetTurn s
    · obtain ⟨rest, rfl⟩ := step_reset h hr
      exact .inr rfl
    · obtain ⟨hturn, rest, hstep⟩ | ⟨-, i, rest, hi, hexec⟩ := step_not_reset h hr
      · obtain ⟨-, -, heq⟩ | ⟨-, -, heq⟩ | ⟨hp, -, -⟩ := engineStep_progress hstep
        · exact .inl heq
        · exact .inr heq
        · exact absurd ⟨hturn, hp⟩ hnot
      · exact (exec_hostEffect hi hexec).framesDone

/-- Settles O34: the engine never writes an operand, and while it is busy no transaction does. -/
theorem pendingCommandKeepsItsOperands : Obligations.PendingCommandKeepsItsOperands := by
  intro s t h hr hbusy
  obtain ⟨hsr, hmb, hfc, hin⟩ : KeepsOperands s t := by
    obtain ⟨-, rest, hstep⟩ | ⟨-, i, rest, hi, hexec⟩ := step_not_reset h hr
    · obtain ⟨hsr, hmb, hfc, hin⟩ := (leavesHost_engineStep hstep).keepsOperands
      exact ⟨hsr, hmb, hfc, fun c j => (hin c j).trans (by cases c <;> rfl)⟩
    · obtain ⟨hsr, hmb, hfc, hin⟩ := (exec_hostEffect hi hexec).keepsOperands hbusy
      exact ⟨hsr, hmb, hfc, fun c j => (hin c j).trans (by cases c <;> rfl)⟩
  exact ⟨hsr, hmb, hfc, hin⟩

/-! A second CONFIGURE -/

theorem Memory.zeroFill_idem (m : Memory) (n : Nat) : (m.zeroFill n).zeroFill n = m.zeroFill n := by
  simp [Memory.zeroFill]

theorem Lane.configure_idem (l : Lane) (n : Nat) : (l.configure n).configure n = l.configure n := by
  simp [Lane.configure, Memory.zeroFill_idem]

/-- The state after a configuration step with a valid SR_IN (45_commands R247). -/
def State.reconfigured (s : State) : State :=
  { s with
    cfgSr := s.srIn, cfgLen := 2 * magnitude s.srIn / 2 ^ 149, cfgMaxblk := min s.maxblkIn.toNat 4096,
    blkClamped := decide (4096 < s.maxblkIn.toNat),
    left := s.left.configure (2 * magnitude s.srIn / 2 ^ 149),
    right := s.right.configure (2 * magnitude s.srIn / 2 ^ 149),
    phase := 0x00000000#32, framesDone := 0, configured := true, pend := .none }

theorem engineStep_reconfigured {sn : Word → Word} {s : State} (hp : s.pend = .config) (h : srValid s.srIn = true) :
    engineStep sn s = .next s.reconfigured := engineStep_config hp h

/-- CONFIG_EXEC writes what it wrote, because SR_IN and MAXBLK_IN are what they were. -/
theorem State.reconfigured_idem (s : State) (r : Option Word) :
    (s.reconfigured.pendConfig.answer r).reconfigured = { s.reconfigured with rdata := r } := by
  have hl := s.left.configure_idem (2 * magnitude s.srIn / 2 ^ 149)
  have hr := s.right.configure_idem (2 * magnitude s.srIn / 2 ^ 149)
  exact congrArg₂ (fun l r' => { s.reconfigured with rdata := r, left := l, right := r' }) hl hr

/-- Settles O39: the second CONFIGURE is accepted, and its step writes what the first wrote. -/
theorem reconfigurationIsIdempotent : Obligations.ReconfigurationIsIdempotent := by
  intro s t hp hsr h
  obtain rfl : s.reconfigured = t := Host.Outcome.next.inj ((engineStep_reconfigured hp hsr).symm.trans h)
  have hu := engineStep_reconfigured (sn := sine) (s := s.reconfigured.pendConfig.answer none) rfl hsr
  rw [State.reconfigured_idem] at hu
  exact ⟨_, exec_configure_valid rfl hsr, hu⟩

end Sys2Proof.Machine
end

section
/-! What a frame reads: each lane its own words only, and no input word but its own frame's (44_engine_frame R216,
70_reset_and_hazards R411). Then the poisoned channel (44_engine_frame R210). -/

namespace Sys2Proof.Machine

/-- The oscillator value of a channel (44_engine_frame R205). -/
def Modulation.of (m : Modulation) : Channel → Word
  | .left => m.left
  | .right => m.right

section
variable {sn : Word → Word} {s s' t t' : State}

/-- Everything a frame step does to one lane, with what the lanes share: one oscillator step. -/
theorem frameResult_shared (h : frameResult sn s = .ok t) : ∃ mod,
    lfoStep sn s.phase (snapshot s.params) s.cfgSr = .ok mod ∧ t.phase = mod.phase ∧
    t.framesDone = s.framesDone + 1 ∧ (t.pend = if s.framesDone + 1 = s.fcl then .none else s.pend) ∧
    ∀ c, ∃ inp, laneInput s.epoch c s.cfgLen s.framesDone (s.lane c) = .ok inp ∧
      laneOutput s.epoch c s.cfgLen s.framesDone s.cfgSr (snapshot s.params) (mod.of c) inp.1 inp.2 = .ok (t.lane c) := by
  obtain ⟨inL, inR, mod, left, right, hinL, hinR, hmod, houtL, houtR, rfl⟩ := frameResult_ok.1 h
  refine ⟨mod, hmod, rfl, rfl, rfl, fun c => ?_⟩
  cases c with
  | left => exact ⟨inL, hinL, houtL⟩
  | right => exact ⟨inR, hinR, houtR⟩

/-! One lane does not read the other -/

/-- `s'` has the channel's lane and all that the lanes share from `s`; the other lane may be any. -/
structure SharesLane (c : Channel) (s s' : State) : Prop where
  lane : s'.lane c = s.lane c
  epoch : s'.epoch = s.epoch
  cfgLen : s'.cfgLen = s.cfgLen
  cfgSr : s'.cfgSr = s.cfgSr
  framesDone : s'.framesDone = s.framesDone
  fcl : s'.fcl = s.fcl
  params : s'.params = s.params
  phase : s'.phase = s.phase
  pend : s'.pend = s.pend

/-- The parts of a frame are functions of one lane and of what the lanes share (44_engine_frame R216). -/
theorem frameResult_lane_eq {c : Channel} (hs : SharesLane c s s') (h : frameResult sn s = .ok t)
    (h' : frameResult sn s' = .ok t') :
    t'.lane c = t.lane c ∧ t'.phase = t.phase ∧ t'.framesDone = t.framesDone ∧ t'.pend = t.pend := by
  obtain ⟨mod, hmod, hphase, hdone, hpend, hlane⟩ := frameResult_shared h
  obtain ⟨mod', hmod', hphase', hdone', hpend', hlane'⟩ := frameResult_shared h'
  obtain ⟨inp, hin, hout⟩ := hlane c
  obtain ⟨inp', hin', hout'⟩ := hlane' c
  rw [hs.phase, hs.params, hs.cfgSr, hmod] at hmod'
  cases hmod'
  rw [hs.epoch, hs.cfgLen, hs.framesDone, hs.lane, hin] at hin'
  cases hin'
  rw [hs.epoch, hs.cfgLen, hs.framesDone, hs.cfgSr, hs.params, hout] at hout'
  refine ⟨(Except.ok.inj hout').symm, hphase'.trans hphase.symm, ?_, ?_⟩
  · rw [hdone', hdone, hs.framesDone]
  · rw [hpend', hpend, hs.framesDone, hs.fcl, hs.pend]

end

/-- Settles O43: replacing one lane keeps all that the other lane's frame reads. -/
theorem lanesDoNotAffectEachOther : Obligations.LanesDoNotAffectEachOther := by
  intro s other t t' hp h
  have hf := frameResult_of_engineStep hp h
  refine ⟨fun h' => ?_, fun h' => ?_⟩
  · have hs : SharesLane .left s { s with right := other } := ⟨rfl, rfl, rfl, rfl, rfl, rfl, rfl, rfl, rfl⟩
    exact frameResult_lane_eq hs hf (frameResult_of_engineStep (s := { s with right := other }) hp h')
  · have hs : SharesLane .right s { s with left := other } := ⟨rfl, rfl, rfl, rfl, rfl, rfl, rfl, rfl, rfl⟩
    exact frameResult_lane_eq hs hf (frameResult_of_engineStep (s := { s with left := other }) hp h')

/-! No look-ahead -/

section
variable {e : Nat} {c : Channel} {len k : Nat} {l l' : Lane} {m : Memory}

/-- The first part of a lane's frame reads its own input word only. -/
theorem laneInput_of_same_input {r : Word × Lane}
    (hm : readOrDraw e (.inputWindow c) m k = readOrDraw e (.inputWindow c) l.ibuf k) (h : laneInput e c len k l = .ok r) :
    laneInput e c len k { l with ibuf := m } = .ok (r.1, { r.2 with ibuf := m }) := by
  obtain ⟨hk, hw, hx, hl⟩ := laneInput_ok.1 h
  exact laneInput_ok.2 ⟨hk, hw, hx.trans hm.symm, by rw [hl]⟩

/-- The second part reads no input word. -/
theorem laneOutput_of_any_input {sr mv x : Word} {p : Snapshot} (h : laneOutput e c len k sr p mv x l = .ok l') :
    laneOutput e c len k sr p mv x { l with ibuf := m } = .ok { l' with ibuf := m } := by
  obtain ⟨hk, read, hread, hl⟩ := laneOutput_ok.1 h
  exact laneOutput_ok.2 ⟨hk, read, hread, by rw [hl]⟩

end

/-- The state with other input windows. -/
def State.withInputs (s : State) (mL mR : Memory) : State :=
  { s with left := { s.left with ibuf := mL }, right := { s.right with ibuf := mR } }

section
variable {sn : Word → Word} {s t : State} {mL mR : Memory}

/-- A frame with other input windows that agree on its own input words is the same frame (70_reset_and_hazards R411). -/
theorem frameResult_withInputs
    (hin : ∀ c, inputWord s c s.framesDone = inputWord (s.withInputs mL mR) c s.framesDone)
    (h : frameResult sn s = .ok t) : frameResult sn (s.withInputs mL mR) = .ok (t.withInputs mL mR) := by
  obtain ⟨inL, inR, mod, left, right, hinL, hinR, hmod, houtL, houtR, rfl⟩ := frameResult_ok.1 h
  exact frameResult_ok.2 ⟨_, _, mod, { left with ibuf := mL }, { right with ibuf := mR },
    laneInput_of_same_input (hin .left).symm hinL, laneInput_of_same_input (hin .right).symm hinR, hmod,
    laneOutput_of_any_input houtL, laneOutput_of_any_input houtR, rfl⟩

theorem configResult_withInputs (h : configResult s = .ok t) :
    configResult (s.withInputs mL mR) = .ok (t.withInputs mL mR) := by
  obtain ⟨len, hlen, rfl⟩ := configResult_ok.1 h
  exact configResult_ok.2 ⟨len, hlen, rfl⟩

theorem engineStep_withInputs
    (hin : s.pend = .process → ∀ c, inputWord s c s.framesDone = inputWord (s.withInputs mL mR) c s.framesDone)
    (h : engineStep sn s = .next t) : engineStep sn (s.withInputs mL mR) = .next (t.withInputs mL mR) := by
  obtain ⟨hp, rfl⟩ | ⟨hp, hc⟩ | ⟨hp, hf⟩ := engineStep_next.1 h
  · exact engineStep_of_idle hp
  · exact engineStep_next.2 (.inr (.inl ⟨hp, configResult_withInputs hc⟩))
  · exact engineStep_next.2 (.inr (.inr ⟨hp, frameResult_withInputs (hin hp) hf⟩))

/-- A run of one more step takes that step first. -/
theorem run_succ_of_next {m : Nat} {s u : State} (h : step s = .next u) :
    Host.Core.run core (m + 1) s = Host.Core.run core m u := by
  have hcore : core.step s = .next u := h
  simp only [Host.Core.run, hcore]

/-- A run that answers takes its first step. -/
theorem exists_step_of_run {m : Nat} {s t : State} (h : Host.Core.run core (m + 1) s = .next t) :
    ∃ u, step s = .next u := by
  cases hstep : core.step s with
  | next u => exact ⟨u, hstep⟩
  | fault r => simp [Host.Core.run, hstep] at h
  | refused r => simp [Host.Core.run, hstep] at h

/-- An engine step leaves at most one frame less to do. -/
theorem engineStep_framesDone_le (h : engineStep sn s = .next t) : t.framesDone ≤ s.framesDone + 1 := by
  obtain ⟨-, -, heq⟩ | ⟨-, -, heq⟩ | ⟨-, -, heq⟩ := engineStep_progress h <;> omega

/-- While the engine runs alone, other input windows that agree on the words of all frames to come change no other state. -/
theorem run_withInputs {n : Nat} : ∀ (m : Nat) (s t : State), s.agenda = [] → s.framesDone + m ≤ n →
    (∀ c j, j < n → inputWord s c j = inputWord (s.withInputs mL mR) c j) → Host.Core.run core m s = .next t →
    Host.Core.run core m (s.withInputs mL mR) = .next (t.withInputs mL mR) ∧
      ∀ c j, j < n → inputWord t c j = inputWord (t.withInputs mL mR) c j
  | 0, s, t, _, _, hin, h => by
    cases h
    exact ⟨rfl, hin⟩
  | m + 1, s, t, ha, hn, hin, h => by
    obtain ⟨u, hstep⟩ := exists_step_of_run h
    rw [run_succ_of_next hstep] at h
    rw [step_of_empty ha] at hstep
    have hkeep := leavesHost_engineStep hstep
    have hdone := engineStep_framesDone_le hstep
    have hstep' := engineStep_withInputs (mL := mL) (mR := mR) (fun _ c => hin c _ (by omega)) hstep
    have hin' (c : Channel) (j : Nat) (hj : j < n) : inputWord u c j = inputWord (u.withInputs mL mR) c j := by
      rw [hkeep.inputWord, (leavesHost_engineStep hstep').inputWord]
      exact hin c j hj
    obtain ⟨hrun', hout⟩ := run_withInputs m u t (hkeep.agenda.trans ha) (by omega) hin' h
    exact ⟨(run_succ_of_next ((step_of_empty (s := s.withInputs mL mR) ha).trans hstep')).trans hrun', hout⟩

end

/-- Settles O44: the second run is the first with the second's input windows. -/
theorem outputDoesNotDependOnLaterInput : Obligations.OutputDoesNotDependOnLaterInput := by
  rintro n m s s' t ⟨hs', hin⟩ ha hn h
  change s' = s.withInputs s'.left.ibuf s'.right.ibuf at hs'
  rw [hs'] at hin ⊢
  obtain ⟨hrun, hout⟩ := run_withInputs m s t ha hn hin h
  exact ⟨_, hrun, rfl, hout⟩

/-! The poisoned channel -/

theorem isNaN_cnan : isNaN Config.cnan = true := by decide

/-- MIX of the canonical NaN is the canonical NaN but at the dry bypass (44_engine_frame R213, R214). -/
theorem mix_cnan (x dw : Word) :
    mix x Config.cnan dw = if eq32 dw 0x00000000#32 then x else Config.cnan := by
  cases h0 : eq32 dw 0x00000000#32 with
  | true => exact mix_of_zero h0
  | false =>
    cases h1 : eq32 dw Config.one with
    | true => exact mix_of_one h1
    | false =>
      rw [mix_of_between h0 h1, mul32_nan (.inl isNaN_cnan)]
      exact add32_nan (.inr isNaN_cnan)

/-- A frame of a channel whose feedback value is a NaN (44_engine_frame R210; 93_implementation_defined I5). -/
theorem frameResult_poisoned {sn : Word → Word} {s t : State} {c : Channel} (hnan : isNaN (s.lane c).fb = true)
    (h : frameResult sn s = .ok t) :
    (t.lane c).fb = Config.cnan ∧ delayWord t c (s.lane c).wh = Config.cnan ∧
      outputWord t c s.framesDone =
        if eq32 (snapshot s.params).dw 0x00000000#32 then inputWord s c s.framesDone else Config.cnan := by
  obtain ⟨inp, m, hin, hout⟩ := frameResult_lane h c
  obtain ⟨-, -, hx, hlane⟩ := laneInput_ok.1 hin
  obtain ⟨-, read, -, hlane'⟩ := laneOutput_ok.1 hout
  have hfb : inp.2.fb = (s.lane c).fb := by rw [hlane]
  rw [hfb, holdPoison_of_nan _ hnan, mul32_nan (.inl isNaN_cnan), mix_cnan] at hlane'
  have hdl : (t.lane c).dl = (s.lane c).dl.write (s.lane c).wh Config.cnan := by
    rw [hlane', hlane, add32_nan (.inr hnan)]
  refine ⟨by rw [hlane'], by rw [delayWord, hdl, readOrDraw_write_same], ?_⟩
  rw [outputWord, hlane', readOrDraw_write_same, hx, inputWord]

theorem reconfigured_fb {s t : State} (h : configResult s = .ok t) (c : Channel) : (t.lane c).fb = 0x00000000#32 := by
  obtain ⟨len, -, rfl⟩ := configResult_ok.1 h
  cases c <;> rfl

theorem LeavesEngine.fb {s t : State} (h : LeavesEngine s t) (c : Channel) : (t.lane c).fb = (s.lane c).fb := by
  cases c with
  | left =>
    have hfb := congrArg Lane.fb h.left
    exact hfb
  | right =>
    have hfb := congrArg Lane.fb h.right
    exact hfb

/-- What a step does to the feedback value of a poisoned channel. -/
theorem step_poisoned {s t : State} {c : Channel} (hnan : isNaN (s.lane c).fb = true) (h : step s = .next t) :
    (ResetTurn s ∨ (EngineTurn s ∧ s.pend = .config) → (t.lane c).fb = 0x00000000#32) ∧
    (¬ ResetTurn s → ¬ (EngineTurn s ∧ s.pend = .config) → isNaN (t.lane c).fb = true) := by
  by_cases hr : ResetTurn s
  · obtain ⟨rest, rfl⟩ := step_reset h hr
    exact ⟨fun _ => by cases c <;> rfl, fun hno => absurd hr hno⟩
  · obtain ⟨hturn, rest, hstep⟩ | ⟨hturn, i, rest, hi, hexec⟩ := step_not_reset h hr
    · obtain ⟨hp, rfl⟩ | ⟨hp, hc⟩ | ⟨hp, hf⟩ := engineStep_next.1 hstep
      · refine ⟨fun hclear => ?_, fun _ _ => by cases c <;> exact hnan⟩
        obtain hr' | ⟨-, hp'⟩ := hclear
        · exact absurd hr' hr
        · cases hp.symm.trans hp'
      · exact ⟨fun _ => reconfigured_fb hc c, fun _ hno => absurd ⟨hturn, hp⟩ hno⟩
      · refine ⟨fun hclear => ?_, fun _ _ => ?_⟩
        · obtain hr' | ⟨-, hp'⟩ := hclear
          · exact absurd hr' hr
          · cases hp.symm.trans hp'
        · rw [(frameResult_poisoned (c := c) (by cases c <;> exact hnan) hf).1]
          exact isNaN_cnan
    · have hfb : (t.lane c).fb = (s.lane c).fb :=
        ((exec_hostEffect hi hexec).leavesEngine.fb c).trans (by cases c <;> rfl)
      refine ⟨fun hclear => ?_, fun _ _ => by rw [hfb]; exact hnan⟩
      obtain hr' | ⟨hturn', -⟩ := hclear
      · exact absurd hr' hr
      · exact absurd hturn' hturn

theorem magnitude_eq_zero_of_eq32_zero {x : Word} (h : eq32 x 0x00000000#32 = true) : magnitude x = 0 := by
  obtain ⟨-, -, hv⟩ := eq32_iff.1 h
  rw [← natAbs_signedValue, hv]
  decide

/-- Settles O42: a frame keeps the canonical NaN, and no other step but the two clears writes FB. -/
theorem poisonedChannelStaysPoisonedUntilConfigure : Obligations.PoisonedChannelStaysPoisonedUntilConfigure := by
  refine ⟨fun s t c hnan => ⟨step_poisoned hnan, fun hp h => ?_⟩, fun wet fbc => ⟨fun hw => mul32_nan (.inl hw), ?_⟩⟩
  · obtain ⟨hfb, hdl, hout⟩ := frameResult_poisoned hnan (frameResult_of_engineStep hp h)
    exact ⟨hfb, hdl, hout, (leavesHost_engineStep h).errors⟩
  · intro hinf hz
    have hnan : isNaN wet = false ∧ isNaN fbc = false := by
      rw [← Bool.not_eq_true, isNaN_iff, (isInf_iff wet).1 hinf]
      exact ⟨by omega, (eq32_iff.1 hz).1⟩
    simp [feedbackUpdate, mul32, hnan, hinf, magnitude_eq_zero_of_eq32_zero hz, Config.cnan]

end Sys2Proof.Machine
end

section
/-! The ranges of the datapath: SINE, the delay at depth 0, the phase and the read position (41_lfo R141 to R146, 42_effect_mapper
R163, 43_fractional_reader R181 to R184). -/

namespace Sys2Proof.Machine

/-! SINE -/

theorem isFinite_one : isFinite Config.one = true := by decide

theorem isFinite_minusOne : isFinite Config.minusOne = true := by decide

theorem withinUnit_mem (v : Word) :
    le32 Config.minusOne (withinUnit v) = true ∧ le32 (withinUnit v) Config.one = true := by
  unfold withinUnit
  split
  next h => exact Bool.and_eq_true_iff.1 h
  next => decide +kernel

/-- S1: every value is in [−1, 1] (41_lfo R141). -/
theorem sine_mem (p : Word) : le32 Config.minusOne (sine p) = true ∧ le32 (sine p) Config.one = true := by
  unfold sine
  split_ifs
  · decide +kernel
  · decide +kernel
  · decide +kernel
  · decide +kernel
  · exact withinUnit_mem _

theorem isFinite_sine (p : Word) : isFinite (sine p) = true :=
  isFinite_of_le32 isFinite_minusOne isFinite_one (sine_mem p).1 (sine_mem p).2

/-- Settles O55: S1 is `sine_mem`, and S2 is SINE's own table. -/
theorem sineHasItsRequiredProperties : Obligations.SineHasItsRequiredProperties :=
  ⟨fun p => ⟨isFinite_sine p, sine_mem p⟩, by decide, by decide, by decide, by decide⟩

/-! Depth ±0 -/

theorem isFinite_of_eq32_zero {x : Word} (h : eq32 x 0x00000000#32 = true) : isFinite x = true := by
  have hm := magnitude_eq_zero_of_eq32_zero h
  rw [magnitude_eq] at hm
  have hb : magnitudeOfBits (bitsOf x) < magnitudeOfBits 1 := by
    rw [hm]
    decide
  rw [isFinite_iff]
  exact (magnitudeOfBits_lt_iff.1 hb).trans (by norm_num)

/-- A finite word times ±0 is a zero. -/
theorem mul32_zero {a z : Word} (ha : isFinite a = true) (hz : eq32 z 0x00000000#32 = true) :
    ∃ negative, mul32 a z = packWord negative 0 := by
  have hr : roundMagnitude 0 (2 ^ 149) = 0 := by decide
  refine ⟨signBit a != signBit z, ?_⟩
  rw [mul32_of_finite ha (isFinite_of_eq32_zero hz), magnitude_eq_zero_of_eq32_zero hz, Nat.mul_zero, roundRational, hr]

/-- MAP at either zero is the middle of the range (42_effect_mapper R163). -/
theorem effectMap_zero (ty : EffectType) (negative : Bool) :
    effectMap ty (packWord negative 0) = if ty = .chorus then 0x3C8F5C28#32 else 0x3B449BA6#32 := by
  cases ty <;> cases negative <;> decide +kernel

/-- Settles O53: SINE is finite, so depth ±0 scales it to a zero. -/
theorem depthZeroGivesTheMidRangeDelay : Obligations.DepthZeroGivesTheMidRangeDelay := by
  intro ty p dp hz
  obtain ⟨negative, hm⟩ := mul32_zero (isFinite_sine p) hz
  rw [lfoScale, hm, effectMap_zero]

/-! What binary32 represents -/

/-- A significand of 24 bits times a power of two that is not too large is represented. -/
theorem exists_bits_scaled {n k : Nat} (hn : n ≤ 2 ^ 24) (hk : k ≤ 252) :
    ∃ b, b < 0x7F800000 ∧ magnitudeOfBits b = n * 2 ^ k := by
  rcases Nat.eq_zero_or_pos n with rfl | hp
  · exact ⟨0, by norm_num, by simp [magnitudeOfBits]⟩
  · obtain ⟨j, hj, hlo, hhi⟩ := exists_scale hp hn
    rcases Nat.lt_or_ge k j with hjk | hjk
    · have hle : n * 2 ^ k ≤ 2 ^ 24 := (Nat.mul_le_mul_left n (Nat.pow_le_pow_right (by norm_num) hjk.le)).trans hhi
      refine ⟨n * 2 ^ k, by omega, ?_⟩
      simpa using magnitudeOfBits_add 0 (n * 2 ^ k) (.inl rfl) hle
    · have hb : (k - j) * 2 ^ 23 ≤ 252 * 2 ^ 23 := Nat.mul_le_mul_right _ (by omega)
      refine ⟨(k - j) * 2 ^ 23 + n * 2 ^ j, by omega, ?_⟩
      rw [magnitudeOfBits_add _ _ (.inr hlo) hhi, mul_assoc, ← pow_add, Nat.add_sub_cancel' hjk]

/-- Every magnitude is a significand of 24 bits times a power of two. -/
theorem exists_significand (b : Nat) : ∃ n k, magnitudeOfBits b = n * 2 ^ k ∧ n < 2 ^ 24 := by
  rcases Nat.lt_or_ge b (2 ^ 23) with h | h
  · exact ⟨b, 0, by rw [magnitudeOfBits, if_pos h, pow_zero, mul_one], by omega⟩
  · refine ⟨b % 2 ^ 23 + 2 ^ 23, b / 2 ^ 23 - 1, ?_, by omega⟩
    have hb : b = (b / 2 ^ 23 - 1) * 2 ^ 23 + (b % 2 ^ 23 + 2 ^ 23) := by omega
    conv_lhs => rw [hb]
    exact magnitudeOfBits_add _ _ (.inr (by omega)) (by omega)

/-- The fractional part of a word's magnitude is represented. -/
theorem exists_fraction (x : Word) :
    ∃ y, isFinite y = true ∧ signBit y = false ∧ magnitude y = magnitude x % 2 ^ 149 := by
  obtain ⟨n, k, hm, hn⟩ := exists_significand (bitsOf x)
  obtain ⟨b, hb, hbm⟩ : ∃ b, b < 0x7F800000 ∧ magnitudeOfBits b = magnitude x % 2 ^ 149 := by
    rw [magnitude_eq, hm]
    rcases Nat.lt_or_ge k 149 with hk | hk
    · have hp : 2 ^ 149 = 2 ^ (149 - k) * 2 ^ k := by rw [← pow_add, Nat.sub_add_cancel hk.le]
      obtain ⟨b, hb, hbm⟩ := exists_bits_scaled (n := n % 2 ^ (149 - k)) (k := k)
        ((Nat.mod_le _ _).trans hn.le) (by omega)
      exact ⟨b, hb, by rw [hbm, hp, Nat.mul_mod_mul_right]⟩
    · have hdvd : 2 ^ 149 ∣ n * 2 ^ k := (Nat.pow_dvd_pow 2 hk).mul_left n
      exact ⟨0, by norm_num, by rw [Nat.mod_eq_zero_of_dvd hdvd]; simp [magnitudeOfBits]⟩
  have hlt : b < 2 ^ 31 := by omega
  exact ⟨packWord false b, by rw [isFinite_iff, bitsOf_packWord hlt]; exact hb, signBit_packWord hlt,
    by rw [magnitude_eq, bitsOf_packWord hlt, hbm]⟩

/-! Sums and the fraction -/

/-- A sum that is not negative has sign 0, unless both addends have sign 1. -/
theorem signBit_add32_nonneg {a b : Word} (ha : isFinite a = true) (hb : isFinite b = true)
    (hs : signBit a = false ∨ signBit b = false) (h : 0 ≤ signedValue a + signedValue b) :
    signBit (add32 a b) = false := by
  rw [add32_of_finite ha hb]
  split
  · rw [signBit_packWord (by norm_num)]
    obtain hs | hs := hs <;> simp [hs]
  · rw [signBit_roundRational, decide_eq_false (by omega)]

/-- A difference that is represented is exact. -/
theorem signedValue_sub32_exact {a b x : Word} (ha : isFinite a = true) (hb : isFinite b = true)
    (hx : isFinite x = true) (h : (signedValue a - signedValue b).natAbs = magnitude x) :
    signedValue (sub32 a b) = signedValue a - signedValue b := by
  have hv := signedValue_add32_exact ha ((isFinite_negate b).trans hb) hx
    (by rw [signedValue_negate, ← sub_eq_add_neg, h])
  rw [sub32, hv, signedValue_negate, sub_eq_add_neg]

theorem signedValue_nonneg_of_not_signBit {x : Word} (h : signBit x = false) : 0 ≤ signedValue x := by
  rw [signedValue_of_not_signBit h]
  omega

theorem magnitude_of_nonneg {x : Word} (h : 0 ≤ signedValue x) : (magnitude x : Int) = signedValue x := by
  rw [← natAbs_signedValue]
  omega

/-- The integer part of a word up to 2^24 that is not negative is subtracted exactly (00_scope R12). -/
theorem sub32_floor_exact {x : Word} (hx : isFinite x = true) (h0 : 0 ≤ signedValue x)
    (hle : magnitude x ≤ 2 ^ 24 * 2 ^ 149) :
    isFinite (sub32 x (u2f32 (magnitude x / 2 ^ 149))) = true ∧
      signedValue (sub32 x (u2f32 (magnitude x / 2 ^ 149))) = (magnitude x % 2 ^ 149 : Nat) := by
  have hn : magnitude x / 2 ^ 149 ≤ 2 ^ 24 := by omega
  obtain ⟨hufin, -, -⟩ := u2f32_exact hn
  obtain ⟨y, hyfin, hysign, hymag⟩ := exists_fraction x
  have hdiff : signedValue x - signedValue (u2f32 (magnitude x / 2 ^ 149)) = (magnitude x % 2 ^ 149 : Nat) := by
    rw [signedValue_u2f32 hn, ← magnitude_of_nonneg h0]
    omega
  have hyv : signedValue y = (magnitude x % 2 ^ 149 : Nat) := by rw [signedValue_of_not_signBit hysign, hymag]
  refine ⟨isFinite_sub32 hx hufin hyfin hyfin (by rw [hdiff, hyv]) (by rw [hdiff, hyv]), ?_⟩
  rw [signedValue_sub32_exact hx hufin hyfin (by rw [hdiff, hymag, Int.natAbs_natCast]), hdiff]

/-! The phase -/

theorem signedValue_one : signedValue Config.one = 2 ^ 149 := by decide +kernel

theorem phaseInTurn_iff_magnitude {p : Word} :
    phaseInTurn p = true ↔ isFinite p = true ∧ signBit p = false ∧ magnitude p < 2 ^ 149 := by
  rw [phaseInTurn_iff]
  refine and_congr_right fun hfin => and_congr_right fun hsign => ?_
  rw [lt32_of_finite hfin isFinite_one, signedValue_of_not_signBit hsign, signedValue_one, decide_eq_true_eq]
  omega

/-- frac32 of a word up to 2^24 with sign 0 is in [0, 1) and has sign 0 (00_scope R12). -/
theorem frac32_phaseInTurn {x : Word} (hx : isFinite x = true) (hs : signBit x = false)
    (hle : magnitude x ≤ 2 ^ 24 * 2 ^ 149) : ∃ f, frac32 x = some f ∧ phaseInTurn f = true := by
  have h0 := signedValue_nonneg_of_not_signBit hs
  obtain ⟨hfin, hval⟩ := sub32_floor_exact hx h0 hle
  obtain ⟨hufin, -, -⟩ := u2f32_exact (show magnitude x / 2 ^ 149 ≤ 2 ^ 24 by omega)
  refine ⟨sub32 x (u2f32 (magnitude x / 2 ^ 149)), ?_, phaseInTurn_iff_magnitude.2 ⟨hfin, ?_, ?_⟩⟩
  · rw [frac32, floorU, if_pos ⟨hx, h0⟩]
    rfl
  · refine signBit_add32_nonneg hx ((isFinite_negate _).trans hufin) (.inl hs) ?_
    rw [signedValue_negate, signedValue_u2f32 (by omega), ← magnitude_of_nonneg h0]
    omega
  · rw [← natAbs_signedValue, hval]
    have := Nat.mod_lt (magnitude x) (show 0 < 2 ^ 149 by positivity)
    omega

/-- A phase plus a word from 0 to 20 leaves a fraction in [0, 1). -/
theorem frac32_phase_add {phase d : Word} (hp : phaseInTurn phase = true) (hd : isFinite d = true)
    (h0 : 0 ≤ signedValue d) (hle : signedValue d ≤ 20 * 2 ^ 149) :
    ∃ q, frac32 (add32 phase d) = some q ∧ phaseInTurn q = true := by
  obtain ⟨hfin, hsign, hlt⟩ := phaseInTurn_iff_magnitude.1 hp
  have hphase := signedValue_of_not_signBit hsign
  obtain ⟨hzfin, -, -⟩ := u2f32_exact (show 0 ≤ 2 ^ 24 by norm_num)
  obtain ⟨hufin, -, -⟩ := u2f32_exact (show 21 ≤ 2 ^ 24 by norm_num)
  have hz := signedValue_u2f32 (show 0 ≤ 2 ^ 24 by norm_num)
  have hu := signedValue_u2f32 (show 21 ≤ 2 ^ 24 by norm_num)
  have hsfin := isFinite_add32 hfin hd hzfin hufin (by rw [hz]; omega) (by rw [hu]; omega)
  have hssign := signBit_add32_nonneg hfin hd (.inl hsign) (by omega)
  have hsle := add32_le hfin hd hufin (by rw [hu]; omega)
  refine frac32_phaseInTurn hsfin hssign ?_
  rw [signedValue_of_not_signBit hssign, hu] at hsle
  omega

/-- A clamped rate, at most 20, over a valid sample rate, at least 1, is from 0 to 20. -/
theorem div32_rate {rt sr : Word} (hlo : le32 Config.rateMin rt = true) (hhi : le32 rt Config.rateMax = true)
    (hsr : srValid sr = true) :
    isFinite (div32 rt sr) = true ∧ 0 ≤ signedValue (div32 rt sr) ∧ signedValue (div32 rt sr) ≤ 20 * 2 ^ 149 := by
  have hmin : 0 < signedValue Config.rateMin := by decide +kernel
  have hmax : magnitude Config.rateMax = 20 * 2 ^ 149 := by decide +kernel
  have hmaxv : signedValue Config.rateMax = 20 * 2 ^ 149 := by decide +kernel
  have hrt : isFinite rt = true := isFinite_of_le32 (by decide) (by decide) hlo hhi
  obtain ⟨-, -, h1⟩ := le32_iff.1 hlo
  obtain ⟨-, -, h2⟩ := le32_iff.1 hhi
  obtain ⟨hsrfin, hsrsign, hsrlo, -⟩ := (srValid_iff sr).1 hsr
  have hrtsign : signBit rt = false := by
    rw [← Bool.not_eq_true, signBit_iff_signedValue_neg (by omega)]
    omega
  have hrtmag : magnitude rt ≤ 20 * 2 ^ 149 := by
    rw [signedValue_of_not_signBit hrtsign, hmaxv] at h2
    omega
  obtain ⟨hfin, hsign, hle⟩ := div32_nonneg_le (x := Config.rateMax) hrt hsrfin (by decide) hrtsign hsrsign (by omega)
    (by rw [hmax]; exact Nat.mul_le_mul hrtmag hsrlo)
  refine ⟨hfin, signedValue_nonneg_of_not_signBit hsign, ?_⟩
  rw [signedValue_of_not_signBit hsign]
  omega

theorem lfoAdvance_ok {phase rt sr q : Word} : lfoAdvance phase rt sr = .ok q ↔ frac32 (add32 phase (div32 rt sr)) = some q := by
  unfold lfoAdvance fractionOf
  cases frac32 (add32 phase (div32 rt sr)) <;> simp

/-- Settles O51: both sums are a phase plus a word from 0 to 20, and frac32 of such a sum is exact. -/
theorem phaseStaysInOneTurn : Obligations.PhaseStaysInOneTurn := by
  refine fun phase rt po sr hp => ⟨fun hlo hhi hsr => ?_, fun hlo hhi => ?_⟩
  · obtain ⟨hfin, h0, hle⟩ := div32_rate hlo hhi hsr
    obtain ⟨q, hq, hturn⟩ := frac32_phase_add hp hfin h0 hle
    exact ⟨q, lfoAdvance_ok.2 hq, hturn⟩
  · have hzero : signedValue 0x00000000#32 = 0 := by decide
    obtain ⟨-, -, h1⟩ := le32_iff.1 hlo
    obtain ⟨-, -, h2⟩ := le32_iff.1 hhi
    rw [signedValue_one] at h2
    exact frac32_phase_add hp (isFinite_of_le32 (by decide) isFinite_one hlo hhi) (by omega) (by omega)

/-! The read position -/

/-- The delay time is at least 0 and at most 1 second, for every oscillator value in [−1, 1] (42_effect_mapper R163). -/
theorem effectMap_bounds (ty : EffectType) {m : Word} (hlo : le32 Config.minusOne m = true)
    (hhi : le32 m Config.one = true) :
    isFinite (effectMap ty m) = true ∧ 0 ≤ signedValue (effectMap ty m) ∧ signedValue (effectMap ty m) ≤ 2 ^ 149 := by
  obtain ⟨hle, hge⟩ := (effectMapTableRangeAndOrder.2 ty m m).2.1 hlo hhi
  have hlowEdge : isFinite (lowEdge ty) = true ∧ 0 ≤ signedValue (lowEdge ty) := by cases ty <;> decide +kernel
  have hhighEdge : isFinite (highEdge ty) = true ∧ signedValue (highEdge ty) ≤ 2 ^ 149 := by cases ty <;> decide +kernel
  obtain ⟨-, -, h1⟩ := le32_iff.1 hle
  obtain ⟨-, -, h2⟩ := le32_iff.1 hge
  exact ⟨isFinite_of_le32 hlowEdge.1 hhighEdge.1 hle hge, hlowEdge.2.trans h1, h2.trans hhighEdge.2⟩

/-- DELAY_SAMPLES is from 0 to the sample rate itself (44_engine_frame R207). -/
theorem delaySamples_bounds (ty : EffectType) {sr m : Word} (hsr : srValid sr = true)
    (hlo : le32 Config.minusOne m = true) (hhi : le32 m Config.one = true) :
    isFinite (delaySamples sr ty m) = true ∧ 0 ≤ signedValue (delaySamples sr ty m) ∧
      signedValue (delaySamples sr ty m) ≤ signedValue sr := by
  obtain ⟨hsrfin, hsrsign, -, -⟩ := (srValid_iff sr).1 hsr
  obtain ⟨hefin, he0, he1⟩ := effectMap_bounds ty hlo hhi
  have hsr0 := signedValue_nonneg_of_not_signBit hsrsign
  have hzero : signedValue 0x00000000#32 = 0 := by decide
  have hzfin : isFinite 0x00000000#32 = true := by decide
  have hpos : signedValue 0x00000000#32 * 2 ^ 149 ≤ signedValue sr * signedValue (effectMap ty m) := by
    rw [hzero, zero_mul]
    exact mul_nonneg hsr0 he0
  have htop : signedValue sr * signedValue (effectMap ty m) ≤ signedValue sr * 2 ^ 149 :=
    mul_le_mul_of_nonneg_left he1 hsr0
  refine ⟨isFinite_mul32 hsrfin hefin hzfin hsrfin hpos htop, ?_, mul32_le hsrfin hefin hsrfin htop⟩
  rw [← hzero]
  exact le_mul32 hsrfin hefin hzfin hpos

/-- The position before and after the wrap, for a delay of at most the line: from 0 to L (43_fractional_reader R181, R182). -/
theorem readWrap_bounds {wh len : Nat} {dn : Word} (hlen : len ≤ 2 ^ 24) (hwh : wh < len) (hdn : isFinite dn = true)
    (h0 : 0 ≤ signedValue dn) (hle : signedValue dn ≤ len * 2 ^ 149) :
    isFinite (readWrap (readSub wh dn) len) = true ∧ 0 ≤ signedValue (readWrap (readSub wh dn) len) ∧
      signedValue (readWrap (readSub wh dn) len) ≤ len * 2 ^ 149 := by
  have hzero : signedValue 0x00000000#32 = 0 := by decide
  have hzfin : isFinite 0x00000000#32 = true := by decide
  obtain ⟨hwfin, -, -⟩ := u2f32_exact (show wh ≤ 2 ^ 24 by omega)
  obtain ⟨hlfin, -, -⟩ := u2f32_exact hlen
  have hwv := signedValue_u2f32 (show wh ≤ 2 ^ 24 by omega)
  have hlv := signedValue_u2f32 hlen
  have hnfin : isFinite (negate dn) = true := (isFinite_negate dn).trans hdn
  have hnv := signedValue_negate dn
  have hsub : signedValue (negate dn) ≤ signedValue (u2f32 wh) - signedValue dn := by omega
  have hsub' : signedValue (u2f32 wh) - signedValue dn ≤ signedValue (u2f32 wh) := by omega
  have hp0fin : isFinite (readSub wh dn) = true := isFinite_sub32 hwfin hdn hnfin hwfin hsub hsub'
  have hp0lo : signedValue (negate dn) ≤ signedValue (readSub wh dn) := le_sub32 hwfin hdn hnfin hsub
  have hp0hi : signedValue (readSub wh dn) ≤ signedValue (u2f32 wh) := sub32_le hwfin hdn hwfin hsub'
  unfold readWrap
  rw [lt32_of_finite hp0fin hzfin, hzero]
  split
  next hneg =>
    have hneg := of_decide_eq_true hneg
    have hlo : signedValue 0x00000000#32 ≤ signedValue (readSub wh dn) + signedValue (u2f32 len) := by omega
    have hhi : signedValue (readSub wh dn) + signedValue (u2f32 len) ≤ signedValue (u2f32 len) := by omega
    refine ⟨isFinite_add32 hp0fin hlfin hzfin hlfin hlo hhi, ?_, ?_⟩
    · rw [← hzero]
      exact le_add32 hp0fin hlfin hzfin hlo
    · rw [← hlv]
      exact add32_le hp0fin hlfin hlfin hhi
  next hpos =>
    have hpos : ¬ signedValue (readSub wh dn) < 0 := by simpa using hpos
    exact ⟨hp0fin, by omega, by omega⟩

/-- RDPOS_INDEX of an integer part up to L, for a line of at least two words (43_fractional_reader R184). -/
theorem readIndex_bounds {n len : Nat} (hlen : 2 ≤ len) (hn : n ≤ len) :
    (readIndex n len).1 < len ∧ (readIndex n len).2 < len ∧ (readIndex n len).1 ≠ (readIndex n len).2 := by
  unfold readIndex
  dsimp only
  split <;> split <;> omega

/-- A delay of at most the line has a read position with two different indices of the line. -/
theorem readPosition_bounds {wh len : Nat} {dn : Word} (hlen : len ≤ 2 ^ 24) (hlen2 : 2 ≤ len) (hwh : wh < len)
    (hdn : isFinite dn = true) (h0 : 0 ≤ signedValue dn) (hle : signedValue dn ≤ len * 2 ^ 149) :
    ∃ p, readPosition wh dn len = .ok p ∧ p.cur < len ∧ p.nxt < len ∧ p.cur ≠ p.nxt := by
  obtain ⟨hfin, hlo, hhi⟩ := readWrap_bounds hlen hwh hdn h0 hle
  have hmag := magnitude_of_nonneg hlo
  refine ⟨_, readPosition_ok.2 ⟨_, floorOf_ok.2 ⟨hfin, hlo, rfl⟩, rfl⟩, readIndex_bounds hlen2 ?_⟩
  omega

/-- A valid sample rate is at most its delay length: s ≤ ⌊2s⌋, because s is at least 1 (45_commands R248). -/
theorem signedValue_le_length {sr : Word} {len : Nat} (hsr : srValid sr = true) (hlen : delayLength sr = .ok len) :
    signedValue sr ≤ len * 2 ^ 149 ∧ 2 ≤ len ∧ len ≤ 524288 := by
  rw [delayLength_of_srValid hsr] at hlen
  cases hlen
  obtain ⟨-, hsign, hlo, -⟩ := (srValid_iff sr).1 hsr
  rw [signedValue_of_not_signBit hsign]
  obtain ⟨h2, hmax⟩ := twice_rate_bounds hsr
  exact ⟨by omega, h2, hmax⟩

/-- Settles O54: the delay is at most the sample rate, which is at most the line. -/
theorem readPositionIsInRange : Obligations.ReadPositionIsInRange := by
  intro sr m ty wh len hsr hlen hwh hlo hhi
  obtain ⟨hdfin, hd0, hdle⟩ := delaySamples_bounds ty hsr hlo hhi
  obtain ⟨hle, h2, hmax⟩ := signedValue_le_length hsr hlen
  exact readPosition_bounds (by omega) h2 hwh hdfin hd0 (hdle.trans hle)

end Sys2Proof.Machine
end

section
/-! The invariant (10_state R48, 44_engine_frame R200, 70_reset_and_hazards R393): it holds after reset, every step keeps it, and
from it every step completes (44_engine_frame R234). -/

namespace Sys2Proof.Machine

/-! Lanes in canonical form -/

theorem Lane.wf_iff {l : Lane} : l.wf = true ↔
    (l.dl.wf = true ∧ l.dl.within Config.dlDepth = true) ∧
    (l.ibuf.wf = true ∧ l.ibuf.within Config.blockCap = true ∧ l.ibuf.zeroed = 0) ∧
    (l.obuf.wf = true ∧ l.obuf.within Config.blockCap = true ∧ l.obuf.zeroed = 0) := by
  simp [Lane.wf, and_assoc]

section
variable {l : Lane}

theorem Lane.wf_reset : Lane.reset.wf = true :=
  Lane.wf_iff.2 ⟨⟨Memory.wf_unspecified, Memory.within_unspecified _⟩,
    ⟨Memory.wf_unspecified, Memory.within_unspecified _, rfl⟩, Memory.wf_unspecified, Memory.within_unspecified _, rfl⟩

theorem Lane.wf_storeInput {k : Nat} (v : Word) (hk : k < Config.blockCap) (h : l.wf = true) :
    ({ l with ibuf := l.ibuf.write k v } : Lane).wf = true := by
  obtain ⟨hdl, ⟨hwf, hin, hz⟩, hobuf⟩ := Lane.wf_iff.1 h
  exact Lane.wf_iff.2 ⟨hdl, ⟨Memory.wf_write k v hwf, Memory.within_write v hk hin, by simpa using hz⟩, hobuf⟩

theorem Lane.wf_configure {n : Nat} (hn : n ≤ Config.dlDepth) (h : l.wf = true) : (l.configure n).wf = true := by
  obtain ⟨⟨hwf, hin⟩, hrest⟩ := Lane.wf_iff.1 h
  exact Lane.wf_iff.2 ⟨⟨Memory.wf_zeroFill n hwf, Memory.within_zeroFill hn hin⟩, hrest⟩

/-- A frame's two writes, at the write head and at the frame's index, keep the canonical form. -/
theorem Lane.wf_frame {i k wh : Nat} {ws out fb : Word} (hi : i < Config.dlDepth) (hk : k < Config.blockCap)
    (h : l.wf = true) :
    ({ l with dl := l.dl.write i ws, wh := wh, fb := fb, obuf := l.obuf.write k out } : Lane).wf = true := by
  obtain ⟨⟨hdlwf, hdlin⟩, hibuf, howf, hoin, hoz⟩ := Lane.wf_iff.1 h
  exact Lane.wf_iff.2 ⟨⟨Memory.wf_write i ws hdlwf, Memory.within_write ws hi hdlin⟩, hibuf,
    Memory.wf_write k out howf, Memory.within_write out hk hoin, by simpa using hoz⟩

end

/-! RESET -/

theorem phaseInTurn_zero : phaseInTurn 0x00000000#32 = true := by decide +kernel

/-- The reset state with any reset count and coming steps, so RESET's as well as the first. -/
theorem inv_reset (epoch : Nat) (agenda : List Event) : Inv { State.reset with epoch := epoch, agenda := agenda } where
  leftWf := Lane.wf_reset
  rightWf := Lane.wf_reset
  phase := phaseInTurn_zero
  maxblk := Nat.zero_le _
  framesDone := Nat.zero_le _
  whenConfigured := nofun
  whenUnconfigured := fun _ => ⟨nofun, rfl, rfl, rfl, rfl, rfl, rfl, rfl, rfl, rfl, rfl, rfl⟩
  whenProcessing := nofun
  whenConfiguring := nofun

/-- Settles O58. -/
theorem invariantAfterReset : Obligations.InvariantAfterReset := inv_reset 0 []

/-! Transactions -/

section
variable {s t : State}

/-- A step that leaves the engine's state alone keeps the invariant, when the windows stay canonical and PEND, FCL and
FRAMES_DONE fit together. -/
theorem LeavesEngine.keepsInv (h : LeavesEngine s t) (hinv : Inv s) (hl : t.left.wf = true) (hr : t.right.wf = true)
    (hdone : t.framesDone = s.framesDone ∨ t.framesDone = 0) (hproc : t.pend = .process → ProcessingInv t)
    (hconf : t.pend = .config → srValid t.srIn = true) : Inv t where
  leftWf := hl
  rightWf := hr
  phase := by rw [h.phase]; exact hinv.phase
  maxblk := by rw [h.cfgMaxblk]; exact hinv.maxblk
  framesDone := by have := hinv.framesDone; omega
  whenConfigured hc := by
    have hs := hinv.whenConfigured (h.configured.symm.trans hc)
    have hleft := h.left
    have hright := h.right
    constructor
    · rw [h.cfgSr]; exact hs.rateValid
    · rw [h.cfgSr, h.cfgLen]; exact hs.lengthOfRate
    · rw [h.cfgLen]; exact hs.lengthLow
    · rw [h.cfgLen]; exact hs.lengthHigh
    · rw [hleft, hright]; exact hs.headsEqual
    · rw [hleft, h.cfgLen]; exact hs.headLow
    · rw [hleft, h.cfgLen]; exact hs.leftZeroed
    · rw [hright, h.cfgLen]; exact hs.rightZeroed
  whenUnconfigured hc := by
    have hs := hinv.whenUnconfigured (h.configured.symm.trans hc)
    have hleft := h.left
    have hright := h.right
    constructor
    · exact fun hp => absurd (hc.symm.trans (hproc hp).configured) (by decide)
    · have := hs.framesDone; omega
    · rw [h.cfgSr]; exact hs.cfgSr
    · rw [h.cfgLen]; exact hs.cfgLen
    · rw [h.cfgMaxblk]; exact hs.cfgMaxblk
    · rw [h.phase]; exact hs.phase
    · rw [hleft]; exact hs.leftHead
    · rw [hright]; exact hs.rightHead
    · rw [hleft]; exact hs.leftFeedback
    · rw [hright]; exact hs.rightFeedback
    · rw [hleft]; exact hs.leftDelay
    · rw [hright]; exact hs.rightDelay
  whenProcessing := hproc
  whenConfiguring := hconf

/-- A transaction leaves both lanes alone, or stores one word of an input window. -/
theorem exec_lanes {i : Instr} (hi : i.isCommand = false) (h : exec i s = .next t) :
    (t.left = s.left ∧ t.right = s.right) ∨ ∃ c, ∃ k : WindowIndex, ∃ v, t = (s.storeInput c k.toNat v).answer none := by
  cases i with
  | nop | configure | process | cmdIllegal _ => cases hi
  | wrCmd v =>
    obtain ⟨e, h'⟩ | ⟨-, h'⟩ | ⟨-, -, h'⟩ | ⟨-, -, -, h'⟩ := accept_cases v s <;> cases h.symm.trans h' <;> simp
  | wrSrIn _ | wrMaxblkIn _ | wrFrameCount _ => obtain ⟨-, rfl⟩ | ⟨-, rfl⟩ := lockedWrite_cases h <;> exact .inl ⟨rfl, rfl⟩
  | wrIbufL k v =>
    obtain ⟨-, rfl⟩ | ⟨-, rfl⟩ := lockedWrite_cases h
    · exact .inl ⟨rfl, rfl⟩
    · exact .inr ⟨.left, k, v, rfl⟩
  | wrIbufR k v =>
    obtain ⟨-, rfl⟩ | ⟨-, rfl⟩ := lockedWrite_cases h
    · exact .inl ⟨rfl, rfl⟩
    · exact .inr ⟨.right, k, v, rfl⟩
  | _ => cases h; exact .inl ⟨rfl, rfl⟩

theorem exec_lanes_wf {i : Instr} (hi : i.isCommand = false) (h : exec i s = .next t) (hinv : Inv s) :
    t.left.wf = true ∧ t.right.wf = true := by
  obtain ⟨hl, hr⟩ | ⟨c, k, v, rfl⟩ := exec_lanes hi h
  · rw [hl, hr]
    exact ⟨hinv.leftWf, hinv.rightWf⟩
  · cases c with
    | left => exact ⟨Lane.wf_storeInput v k.isLt hinv.leftWf, hinv.rightWf⟩
    | right => exact ⟨hinv.leftWf, Lane.wf_storeInput v k.isLt hinv.rightWf⟩

/-- PEND, with what the invariant says of a pending command (45_commands R244, R245). -/
structure PendInv (s : State) : Prop where
  whenProcessing : s.pend = .process → ProcessingInv s
  whenConfiguring : s.pend = .config → srValid s.srIn = true

theorem pendInv_of_idle (h : s.pend = .none) : PendInv s :=
  ⟨fun hp => absurd (h.symm.trans hp) (by decide), fun hp => absurd (h.symm.trans hp) (by decide)⟩

theorem Inv.pendInv (h : Inv s) : PendInv s := ⟨h.whenProcessing, h.whenConfiguring⟩

/-- What PEND's invariant does not mention may change. -/
theorem PendInv.of_same (h : PendInv s) (hpend : t.pend = s.pend) (hc : t.configured = s.configured)
    (hdone : t.framesDone = s.framesDone) (hfcl : t.fcl = s.fcl) (hmax : t.cfgMaxblk = s.cfgMaxblk)
    (hsr : t.srIn = s.srIn) : PendInv t where
  whenProcessing hp := by
    obtain ⟨hconf, hleft, hwithin⟩ := h.whenProcessing (hpend.symm.trans hp)
    exact ⟨hc.trans hconf, by omega, by omega⟩
  whenConfiguring hp := by
    rw [hsr]
    exact h.whenConfiguring (hpend.symm.trans hp)

theorem pendInv_pendProcess (hidle : s.pend = .none) (hc : s.configured = true)
    (hle : s.frameCount.toNat ≤ s.cfgMaxblk) (r : Option Word) : PendInv (s.pendProcess.answer r) := by
  by_cases hz : s.frameCount = 0x00000000#32
  · exact pendInv_of_idle (by simp [hz, hidle])
  · have hpos : 0 < s.frameCount.toNat := by bv_omega
    exact ⟨fun _ => ⟨by simpa using hc, by simpa [hz] using hpos, by simpa [hz] using hle⟩, fun hp => by simp [hz] at hp⟩

theorem pendInv_of_accept {v : Word} (h : accept v s = .next t) (hs : PendInv s) : PendInv t := by
  obtain ⟨e, h'⟩ | ⟨-, h'⟩ | ⟨-, hsr, h'⟩ | ⟨hidle, hc, hle, h'⟩ := accept_cases v s <;> cases h.symm.trans h'
  · exact hs.of_same rfl rfl rfl rfl rfl rfl
  · exact hs.of_same rfl rfl rfl rfl rfl rfl
  · exact ⟨nofun, fun _ => hsr⟩
  · exact pendInv_pendProcess hidle hc hle none

theorem HostEffect.pendInv {i : Instr} (h : HostEffect i s t) (hs : PendInv s) : PendInv t := by
  cases h with
  | setsOperands idle => exact pendInv_of_idle idle
  | storesInput idle => exact pendInv_of_idle (by simpa using idle)
  | writesCommand _ _ h => exact pendInv_of_accept h hs
  | _ => exact hs.of_same rfl rfl rfl rfl rfl rfl

/-- A transaction keeps the invariant. -/
theorem exec_keepsInv {i : Instr} (hi : i.isCommand = false) (h : exec i s = .next t) (hinv : Inv s) : Inv t := by
  have heff := exec_hostEffect hi h
  obtain ⟨hl, hr⟩ := exec_lanes_wf hi h hinv
  have hp := heff.pendInv hinv.pendInv
  exact heff.leavesEngine.keepsInv hinv hl hr heff.framesDone hp.whenProcessing hp.whenConfiguring

/-! The configuration -/

/-- CONFIG_EXEC with a valid SR_IN establishes what holds while Configured (45_commands R247, R248). -/
theorem inv_reconfigured (hinv : Inv s) (hsr : srValid s.srIn = true) : Inv s.reconfigured := by
  obtain ⟨hlow, hhigh⟩ := twice_rate_bounds hsr
  exact {
    leftWf := Lane.wf_configure hhigh hinv.leftWf
    rightWf := Lane.wf_configure hhigh hinv.rightWf
    phase := phaseInTurn_zero
    maxblk := min_le_right _ _
    framesDone := Nat.zero_le _
    whenConfigured := fun _ => ⟨hsr, delayLength_of_srValid hsr, hlow, hhigh, rfl, Nat.lt_of_lt_of_le Nat.zero_lt_two hlow,
      le_max_right _ _, le_max_right _ _⟩
    whenUnconfigured := nofun
    whenProcessing := nofun
    whenConfiguring := nofun }

/-! A frame -/

/-- LFO_SCALE keeps an oscillator value in [−1, 1] there, for every depth in [0, 1] (41_lfo R145). -/
theorem lfoScale_mem {l dp : Word} (hl : le32 Config.minusOne l = true ∧ le32 l Config.one = true)
    (hd : le32 0x00000000#32 dp = true ∧ le32 dp Config.one = true) :
    le32 Config.minusOne (lfoScale l dp) = true ∧ le32 (lfoScale l dp) Config.one = true := by
  have hlfin := isFinite_of_le32 isFinite_minusOne isFinite_one hl.1 hl.2
  have hdfin := isFinite_of_le32 (by decide) isFinite_one hd.1 hd.2
  obtain ⟨-, -, hl1⟩ := le32_iff.1 hl.1
  obtain ⟨-, -, hl2⟩ := le32_iff.1 hl.2
  obtain ⟨-, -, hd1⟩ := le32_iff.1 hd.1
  obtain ⟨-, -, hd2⟩ := le32_iff.1 hd.2
  have hone := signedValue_one
  have hmone : signedValue Config.minusOne = -2 ^ 149 := by decide +kernel
  have hzero : signedValue 0x00000000#32 = 0 := by decide
  rw [hone] at hl2 hd2
  rw [hmone] at hl1
  rw [hzero] at hd1
  have hlo : signedValue Config.minusOne * 2 ^ 149 ≤ signedValue l * signedValue dp := by
    rw [hmone]
    nlinarith
  have hhi : signedValue l * signedValue dp ≤ signedValue Config.one * 2 ^ 149 := by
    rw [hone]
    nlinarith
  have hnan := isNaN_of_isFinite (isFinite_mul32 hlfin hdfin isFinite_minusOne isFinite_one hlo hhi)
  exact ⟨le32_iff.2 ⟨by decide, hnan, le_mul32 hlfin hdfin isFinite_minusOne hlo⟩,
    le32_iff.2 ⟨hnan, by decide, mul32_le hlfin hdfin isFinite_one hhi⟩⟩

theorem fractionOf_eq_ok {x f : Word} : fractionOf x = .ok f ↔ frac32 x = some f := by
  unfold fractionOf
  cases frac32 x <;> simp

theorem floorOf_eq_ok {x : Word} {n : Nat} : floorOf x = .ok n ↔ floorU x = some n := by
  unfold floorOf
  cases floorU x <;> simp

/-- The oscillator step of a sound state completes: both values are in [−1, 1], and the phase stays in one turn. -/
theorem lfoStep_completes {phase sr : Word} (p : Params) (hphase : phaseInTurn phase = true) (hsr : srValid sr = true) :
    ∃ mod, lfoStep sine phase (snapshot p) sr = .ok mod ∧ phaseInTurn mod.phase = true ∧
      ∀ c, le32 Config.minusOne (mod.of c) = true ∧ le32 (mod.of c) Config.one = true := by
  have hdp := clamp32_mem (x := p.depth) (show le32 0x00000000#32 Config.one = true by decide +kernel)
  have hpo := clamp32_mem (x := p.phaseOffset) (show le32 0x00000000#32 Config.one = true by decide +kernel)
  have hrt := clamp32_mem (x := p.rate) (show le32 Config.rateMin Config.rateMax = true by decide +kernel)
  obtain ⟨hadvance, hoffset⟩ := phaseStaysInOneTurn phase (snapshot p).rt (snapshot p).po sr hphase
  obtain ⟨phR, hphR, -⟩ := hoffset hpo.1 hpo.2
  obtain ⟨phase', hphase', hturn⟩ := hadvance hrt.1 hrt.2 hsr
  refine ⟨_, lfoStep_ok.2 ⟨phR, phase', fractionOf_eq_ok.2 hphR, hphase', rfl⟩, hturn, fun c => ?_⟩
  cases c with
  | left => exact lfoScale_mem (sine_mem phase) hdp
  | right => exact lfoScale_mem (sine_mem phR) hdp

/-- The head after WH_ADVANCE is in the line (40_delay_line R122). -/
theorem headAdvance_lt {wh len : Nat} (h : wh < len) : (if wh + 1 = len then 0 else wh + 1) < len := by
  split <;> omega

section
variable {e k len wh : Nat} {c : Channel} {l : Lane} {sr m : Word}

/-- The first part of a lane's frame completes at an index of the window and a head of the line. -/
theorem laneInput_completes (hk : k < Config.blockCap) (hw : l.wh < Config.dlDepth) :
    ∃ inp, laneInput e c len k l = .ok inp ∧ inp.2.wh = if l.wh + 1 = len then 0 else l.wh + 1 :=
  ⟨(readOrDraw e (.inputWindow c) l.ibuf k,
      { l with
        dl := l.dl.write l.wh (add32 (readOrDraw e (.inputWindow c) l.ibuf k) l.fb)
        wh := if l.wh + 1 = len then 0 else l.wh + 1 }),
    laneInput_ok.2 ⟨hk, hw, rfl, rfl⟩, rfl⟩

/-- The second part completes at an index of the window and any position of the line. -/
theorem laneOutput_completes {p : Snapshot} {x : Word} (hk : k < Config.blockCap) (hsr : srValid sr = true)
    (hlen : delayLength sr = .ok len) (hw : l.wh < len)
    (hm : le32 Config.minusOne m = true ∧ le32 m Config.one = true) :
    ∃ l', laneOutput e c len k sr p m x l = .ok l' := by
  obtain ⟨pos, hpos, hcur, hnxt, -⟩ := readPositionIsInRange sr m p.ty l.wh len hsr hlen hw hm.1 hm.2
  obtain ⟨-, -, hmax⟩ := signedValue_le_length hsr hlen
  have hdepth : len ≤ Config.dlDepth := hmax
  obtain ⟨w, hread⟩ : ∃ w, interpolate e c l pos = .ok w := by
    cases hz : eq32 pos.frac 0x00000000#32 with
    | true => exact ⟨_, interpolate_ok.2 ⟨hcur.trans_le hdepth, .inl ⟨hz, rfl⟩⟩⟩
    | false => exact ⟨_, interpolate_ok.2 ⟨hcur.trans_le hdepth, .inr ⟨hz, hnxt.trans_le hdepth, rfl⟩⟩⟩
  exact ⟨_, laneOutput_ok.2 ⟨hk, w, except_monad_bind_ok.2 ⟨pos, hpos, hread⟩, rfl⟩⟩

end

/-- Both write heads of a block in progress are in the line. -/
theorem Inv.head_lt_cfgLen (h : Inv s) (hc : s.configured = true) (c : Channel) : (s.lane c).wh < s.cfgLen := by
  have hconf := h.whenConfigured hc
  cases c with
  | left => exact hconf.headLow
  | right => exact hconf.headsEqual ▸ hconf.headLow

/-- The coming frame of a block is an index of the windows (44_engine_frame R200). -/
theorem Inv.frame_lt (h : Inv s) (hp : s.pend = .process) : s.framesDone < Config.blockCap := by
  obtain ⟨-, hlt, hle⟩ := h.whenProcessing hp
  exact hlt.trans_le (hle.trans h.maxblk)

/-- One lane's frame in a sound state. -/
theorem Inv.laneFrame_completes (h : Inv s) (hp : s.pend = .process) {m : Word}
    (hm : le32 Config.minusOne m = true ∧ le32 m Config.one = true) (c : Channel) :
    ∃ inp l, laneInput s.epoch c s.cfgLen s.framesDone (s.lane c) = .ok inp ∧
      laneOutput s.epoch c s.cfgLen s.framesDone s.cfgSr (snapshot s.params) m inp.1 inp.2 = .ok l := by
  have hc := (h.whenProcessing hp).configured
  have hconf := h.whenConfigured hc
  have hw := h.head_lt_cfgLen hc c
  obtain ⟨inp, hin, hinw⟩ := laneInput_completes (e := s.epoch) (c := c) (len := s.cfgLen) (h.frame_lt hp)
    (hw.trans_le hconf.lengthHigh)
  obtain ⟨l, hout⟩ := laneOutput_completes (e := s.epoch) (c := c) (l := inp.2) (p := snapshot s.params) (x := inp.1)
    (h.frame_lt hp) hconf.rateValid hconf.lengthOfRate (hinw ▸ headAdvance_lt hw) hm
  exact ⟨inp, l, hin, hout⟩

/-- A frame of a sound state completes (44_engine_frame R234). -/
theorem Inv.frame_completes (h : Inv s) (hp : s.pend = .process) : ∃ t, frameResult sine s = .ok t := by
  have hconf := h.whenConfigured (h.whenProcessing hp).configured
  obtain ⟨mod, hmod, -, hmem⟩ := lfoStep_completes s.params h.phase hconf.rateValid
  obtain ⟨inL, left, hinL, houtL⟩ := h.laneFrame_completes hp (hmem .left) .left
  obtain ⟨inR, right, hinR, houtR⟩ := h.laneFrame_completes hp (hmem .right) .right
  exact ⟨_, frameResult_ok.2 ⟨inL, inR, mod, left, right, hinL, hinR, hmod, houtL, houtR, rfl⟩⟩

/-- Everything a frame writes to a lane, at which index. -/
theorem frameResult_lane_writes {sn : Word → Word} (h : frameResult sn s = .ok t) (c : Channel) :
    s.framesDone < Config.blockCap ∧ (s.lane c).wh < Config.dlDepth ∧ ∃ ws fb out,
      t.lane c = { s.lane c with
        dl := (s.lane c).dl.write (s.lane c).wh ws, wh := if (s.lane c).wh + 1 = s.cfgLen then 0 else (s.lane c).wh + 1,
        fb := fb, obuf := (s.lane c).obuf.write s.framesDone out } := by
  obtain ⟨inp, m, hin, hout⟩ := frameResult_lane h c
  obtain ⟨hk, hw, -, hlane⟩ := laneInput_ok.1 hin
  obtain ⟨-, read, -, hlane'⟩ := laneOutput_ok.1 hout
  exact ⟨hk, hw, _, _, _, by rw [hlane', hlane]⟩

theorem frameResult_lane_wf {sn : Word → Word} (h : frameResult sn s = .ok t) (c : Channel)
    (hwf : (s.lane c).wf = true) : (t.lane c).wf = true := by
  obtain ⟨hk, hw, ws, fb, out, hlane⟩ := frameResult_lane_writes h c
  rw [hlane]
  exact Lane.wf_frame hw hk hwf

/-- What a frame leaves of the configuration and of PEND. -/
theorem frameResult_frame {sn : Word → Word} (h : frameResult sn s = .ok t) :
    t.configured = s.configured ∧ t.cfgSr = s.cfgSr ∧ t.cfgLen = s.cfgLen ∧ t.cfgMaxblk = s.cfgMaxblk ∧ t.fcl = s.fcl ∧
      t.framesDone = s.framesDone + 1 ∧ t.pend = if s.framesDone + 1 = s.fcl then .none else s.pend := by
  obtain ⟨_, _, _, _, _, -, -, -, -, -, rfl⟩ := frameResult_ok.1 h
  exact ⟨rfl, rfl, rfl, rfl, rfl, rfl, rfl⟩

theorem Inv.frame_phase (h : Inv s) (hp : s.pend = .process) (hf : frameResult sine s = .ok t) :
    phaseInTurn t.phase = true := by
  have hconf := h.whenConfigured (h.whenProcessing hp).configured
  obtain ⟨mod, hmod, hturn, -⟩ := lfoStep_completes s.params h.phase hconf.rateValid
  obtain ⟨mod', hmod', hphase, -⟩ := frameResult_shared hf
  cases hmod.symm.trans hmod'
  rw [hphase]
  exact hturn

/-- A frame keeps the invariant. -/
theorem Inv.frame (h : Inv s) (hp : s.pend = .process) (hf : frameResult sine s = .ok t) : Inv t := by
  obtain ⟨hc, hlt, hle⟩ := h.whenProcessing hp
  have hconf := h.whenConfigured hc
  have hmax := h.maxblk
  obtain ⟨hc', hsr', hlen', hmax', hfcl', hdone', hpend'⟩ := frameResult_frame hf
  obtain ⟨-, -, wsL, fbL, outL, hL⟩ := frameResult_lane_writes hf .left
  obtain ⟨-, -, wsR, fbR, outR, hR⟩ := frameResult_lane_writes hf .right
  change t.left = _ at hL
  change t.right = _ at hR
  exact {
    leftWf := frameResult_lane_wf hf .left h.leftWf
    rightWf := frameResult_lane_wf hf .right h.rightWf
    phase := h.frame_phase hp hf
    maxblk := hmax' ▸ hmax
    framesDone := by omega
    whenConfigured := fun _ => {
      rateValid := by rw [hsr']; exact hconf.rateValid
      lengthOfRate := by rw [hsr', hlen']; exact hconf.lengthOfRate
      lengthLow := by rw [hlen']; exact hconf.lengthLow
      lengthHigh := by rw [hlen']; exact hconf.lengthHigh
      headsEqual := by
        rw [hL, hR]
        exact congrArg (fun wh => if wh + 1 = s.cfgLen then 0 else wh + 1) hconf.headsEqual
      headLow := by rw [hL, hlen']; exact headAdvance_lt hconf.headLow
      leftZeroed := by rw [hL, hlen', Memory.write_zeroed]; exact hconf.leftZeroed
      rightZeroed := by rw [hR, hlen', Memory.write_zeroed]; exact hconf.rightZeroed }
    whenUnconfigured := fun hno => absurd ((hc'.trans hc).symm.trans hno) (by decide)
    whenProcessing := fun hp' => by
      rw [hpend'] at hp'
      split at hp'
      next => cases hp'
      next hne => exact ⟨hc'.trans hc, by omega, by omega⟩
    whenConfiguring := fun hp' => by
      rw [hpend', hp] at hp'
      split at hp' <;> cases hp' }

/-! Every step -/

/-- The engine's turn of a sound state completes and keeps it sound. -/
theorem Inv.engineStep_completes (h : Inv s) : ∃ t, engineStep sine s = .next t ∧ Inv t := by
  cases hp : s.pend with
  | none => exact ⟨s, engineStep_of_idle hp, h⟩
  | config =>
    have hsr := h.whenConfiguring hp
    exact ⟨_, engineStep_reconfigured hp hsr, inv_reconfigured h hsr⟩
  | process =>
    obtain ⟨t, ht⟩ := h.frame_completes hp
    exact ⟨t, engineStep_next.2 (.inr (.inr ⟨hp, ht⟩)), h.frame hp ht⟩

/-- The coming steps are no part of the invariant. -/
theorem Inv.of_agenda (h : Inv s) (rest : List Event) : Inv { s with agenda := rest } := by
  have hconf := h.whenConfigured
  have hunconf := h.whenUnconfigured
  have hproc := h.whenProcessing
  exact ⟨h.leftWf, h.rightWf, h.phase, h.maxblk, h.framesDone,
    fun hc => by obtain ⟨h1, h2, h3, h4, h5, h6, h7, h8⟩ := hconf hc; exact ⟨h1, h2, h3, h4, h5, h6, h7, h8⟩,
    fun hc => by
      obtain ⟨h1, h2, h3, h4, h5, h6, h7, h8, h9, h10, h11, h12⟩ := hunconf hc
      exact ⟨h1, h2, h3, h4, h5, h6, h7, h8, h9, h10, h11, h12⟩,
    fun hp => by obtain ⟨h1, h2, h3⟩ := hproc hp; exact ⟨h1, h2, h3⟩, h.whenConfiguring⟩

/-- A step of a sound state completes and keeps it sound. -/
theorem Inv.step_completes (h : Inv s) : ∃ t, step s = .next t ∧ Inv t := by
  rcases ha : s.agenda with _ | ⟨ht | _ | _, rest⟩
  · rw [step_of_empty ha]
    exact h.engineStep_completes
  · rw [step_of_host ha]
    obtain ⟨t, ht⟩ := exec_completes (decodeHT ht ‹Word›) { s with agenda := rest }
    exact ⟨t, ht, exec_keepsInv (decodeHT_isCommand _ _) ht (h.of_agenda rest)⟩
  · rw [step_of_engine ha]
    exact (h.of_agenda rest).engineStep_completes
  · exact ⟨_, step_of_reset ha, inv_reset _ rest⟩

end

/-- Settles O60. -/
theorem everyStepOfTheInvariantCompletes : Obligations.EveryStepOfTheInvariantCompletes := by
  intro s h
  obtain ⟨t, ht, -⟩ := h.step_completes
  exact ⟨t, ht⟩

/-- Settles O59: the step's one answer is the one that `Inv.step_completes` finds sound. -/
theorem everyStepKeepsTheInvariant : Obligations.EveryStepKeepsTheInvariant := by
  intro s t h hstep
  obtain ⟨u, hu, hinv⟩ := h.step_completes
  cases hu.symm.trans hstep
  exact hinv

end Sys2Proof.Machine
end

section
/-! A block runs to its end (70_reset_and_hazards R411, 45_commands R250), and what one frame computes (44_engine_frame R230). -/

namespace Sys2Proof.Machine

/-! Runs of the engine alone -/

section
variable {s : State}

/-- One frame of a block in progress, the engine running alone. -/
theorem Inv.frame_step (h : Inv s) (ha : s.agenda = []) (hp : s.pend = .process) :
    ∃ u, step s = .next u ∧ Inv u ∧ u.agenda = [] ∧ u.fcl = s.fcl ∧ u.framesDone = s.framesDone + 1 ∧
      u.pend = if s.framesDone + 1 = s.fcl then .none else .process := by
  obtain ⟨u, hu⟩ := h.frame_completes hp
  obtain ⟨-, -, -, -, hfcl, hdone, hpend⟩ := frameResult_frame hu
  rw [hp] at hpend
  exact ⟨u, (step_of_empty ha).trans (engineStep_next.2 (.inr (.inr ⟨hp, hu⟩))), h.frame hp hu,
    (leavesHost_frameResult hu).agenda.trans ha, hfcl, hdone, hpend⟩

end

/-- After as many frames as the block has left, or fewer, FRAMES_DONE counts them, and PEND is NONE exactly after the last. -/
theorem run_block : ∀ (m : Nat) (s : State), Inv s → s.agenda = [] → s.pend = .process → s.framesDone + m ≤ s.fcl →
    ∃ t : State, Host.Core.run core m s = .next t ∧ t.framesDone = s.framesDone + m ∧
      t.pend = if s.framesDone + m = s.fcl then .none else .process
  | 0, s, h, _, hp, _ => by
    have hlt := (h.whenProcessing hp).framesLeft
    exact ⟨s, rfl, rfl, by rw [hp, if_neg (by omega)]⟩
  | m + 1, s, h, ha, hp, hle => by
    obtain ⟨u, hstep, hinv, hagenda, hfcl, hdone, hpend⟩ := h.frame_step ha hp
    rw [run_succ_of_next hstep]
    by_cases hlast : s.framesDone + 1 = s.fcl
    · obtain rfl : m = 0 := by omega
      exact ⟨u, rfl, hdone, hpend⟩
    · rw [if_neg hlast] at hpend
      obtain ⟨t, hrun, htdone, htpend⟩ := run_block m u hinv hagenda hpend (by omega)
      refine ⟨t, hrun, by omega, ?_⟩
      rw [htpend, hdone, hfcl]
      congr 2
      omega

/-- Settles O45: the block by `run_block`, the configuration by its one step. -/
theorem blockCompletesAfterItsFrames : Obligations.BlockCompletesAfterItsFrames := by
  refine fun s h ha => ⟨fun hp => ⟨fun m hm => ?_, ?_⟩, fun hp => ?_⟩
  · obtain ⟨t, hrun, hdone, hpend⟩ := run_block m s h ha hp (by omega)
    rw [if_neg (by omega)] at hpend
    exact ⟨t, hrun, hpend, hdone⟩
  · have hlt := (h.whenProcessing hp).framesLeft
    obtain ⟨t, hrun, hdone, hpend⟩ := run_block (s.fcl - s.framesDone) s h ha hp (by omega)
    rw [if_pos (by omega)] at hpend
    exact ⟨t, hrun, hpend, by omega⟩
  · have hstep : step s = .next s.reconfigured :=
      (step_of_empty ha).trans (engineStep_reconfigured hp (h.whenConfiguring hp))
    exact ⟨s.reconfigured, run_succ_of_next hstep, rfl, rfl⟩

/-! The words of a frame -/

theorem readOrDraw_write (e : Nat) (st : Store) (m : Memory) (i j : Nat) (v : Word) :
    readOrDraw e st (m.write i v) j = if j = i then v else readOrDraw e st m j := by
  split
  next h => rw [h, readOrDraw_write_same]
  next h => exact readOrDraw_write_other e st m v h

section
variable {sn : Word → Word} {s t : State}

/-- The wet sample of channel `c` read at position `p` after the frame's write (44_engine_frame R209, R210). -/
def wetSample (s t : State) (c : Channel) (p : ReadPosition) : Word :=
  holdPoison (s.lane c).fb
    (if eq32 p.frac 0x00000000#32 then delayWord t c p.cur
     else blend p.frac (delayWord t c p.cur) (delayWord t c p.nxt))

/-- One lane's frame, word by word (44_engine_frame R203 to R215). -/
theorem frameResult_words (h : frameResult sn s = .ok t) : ∃ mod,
    lfoStep sn s.phase (snapshot s.params) s.cfgSr = .ok mod ∧ t.phase = mod.phase ∧
    ∀ c, ∃ p, readPosition (t.lane c).wh (delaySamples s.cfgSr s.params.effect (mod.of c)) s.cfgLen = .ok p ∧
      (t.lane c).wh = (if (s.lane c).wh + 1 = s.cfgLen then 0 else (s.lane c).wh + 1) ∧
      (∀ i, delayWord t c i =
        if i = (s.lane c).wh then add32 (inputWord s c s.framesDone) (s.lane c).fb else delayWord s c i) ∧
      (t.lane c).fb = mul32 (wetSample s t c p) (snapshot s.params).fbc ∧
      ∀ j, outputWord t c j =
        if j = s.framesDone then mix (inputWord s c s.framesDone) (wetSample s t c p) (snapshot s.params).dw
        else outputWord s c j := by
  have hepoch := (leavesHost_frameResult h).epoch
  obtain ⟨mod, hmod, hphase, -, -, hlane⟩ := frameResult_shared h
  refine ⟨mod, hmod, hphase, fun c => ?_⟩
  obtain ⟨⟨x, l⟩, hin, hout⟩ := hlane c
  obtain ⟨-, -, hx, hl⟩ := laneInput_ok.1 hin
  obtain ⟨-, read, hread, hl'⟩ := laneOutput_ok.1 hout
  obtain ⟨p, hpos, hinterp⟩ := except_monad_bind_ok.1 hread
  dsimp only at hx hl hpos hinterp hl'
  have hfb : l.fb = (s.lane c).fb := by rw [hl]
  have hword (i : Nat) : delayWord t c i = readOrDraw s.epoch (.delayRam c) l.dl i := by rw [delayWord, hepoch, hl']
  have hwet : wetSample s t c p = holdPoison l.fb read := by
    obtain ⟨-, ⟨hz, rfl⟩ | ⟨hz, -, rfl⟩⟩ := interpolate_ok.1 hinterp <;> simp [wetSample, hz, hword, hfb]
  refine ⟨p, by rw [hl']; exact hpos, by rw [hl', hl], fun i => ?_, by rw [hwet, hl'], fun j => ?_⟩
  · rw [hword, hl, readOrDraw_write, hx]
    rfl
  · rw [hwet, outputWord, hepoch, hl', readOrDraw_write, hx, hl]
    rfl

/-- Both positions that a frame of a sound state reads are in the line. -/
theorem Inv.frame_position_lt (h : Inv s) (hp : s.pend = .process) {wh : Nat} {m : Word} {p : ReadPosition}
    (hwh : wh < s.cfgLen) (hm : le32 Config.minusOne m = true ∧ le32 m Config.one = true)
    (hpos : readPosition wh (delaySamples s.cfgSr s.params.effect m) s.cfgLen = .ok p) :
    p.cur < s.cfgLen ∧ p.nxt < s.cfgLen := by
  have hconf := h.whenConfigured (h.whenProcessing hp).configured
  obtain ⟨p', hpos', hcur, hnxt, -⟩ :=
    readPositionIsInRange s.cfgSr m s.params.effect wh s.cfgLen hconf.rateValid hconf.lengthOfRate hwh hm.1 hm.2
  cases hpos.symm.trans hpos'
  exact ⟨hcur, hnxt⟩

end

/-- A lane with the input window it had. -/
theorem Lane.eq_of_ibuf {l l' : Lane} (h : l'.ibuf = l.ibuf) :
    l' = { l with dl := l'.dl, wh := l'.wh, fb := l'.fb, obuf := l'.obuf } := by
  rw [← h]

/-- Everything a frame changes (44_engine_frame R230). -/
theorem frameResult_changes {sn : Word → Word} {s t : State} (hp : s.pend = .process) (h : frameResult sn s = .ok t) :
    t = { s with
      left := { s.left with dl := t.left.dl, wh := t.left.wh, fb := t.left.fb, obuf := t.left.obuf }
      right := { s.right with dl := t.right.dl, wh := t.right.wh, fb := t.right.fb, obuf := t.right.obuf }
      phase := t.phase, framesDone := s.framesDone + 1
      pend := if s.framesDone + 1 = s.fcl then .none else .process } := by
  have ht : t = { s with
      left := t.left, right := t.right, phase := t.phase, framesDone := s.framesDone + 1
      pend := if s.framesDone + 1 = s.fcl then .none else .process } := by
    rw [← hp]
    obtain ⟨_, _, _, _, _, -, -, -, -, -, rfl⟩ := frameResult_ok.1 h
    rfl
  have hibuf := frameResult_ibuf h
  exact ht.trans (congrArg₂ (fun l r => { s with
      left := l, right := r, phase := t.phase, framesDone := s.framesDone + 1
      pend := if s.framesDone + 1 = s.fcl then .none else .process })
    (Lane.eq_of_ibuf (hibuf .left)) (Lane.eq_of_ibuf (hibuf .right)))

/-- The scaled oscillator values of a frame (41_lfo R142, R143, R145). -/
theorem Modulation.of_mk (m mR ph dp : Word) (c : Channel) :
    (Modulation.mk (mul32 m dp) (mul32 mR dp) ph).of c = mul32 (if c = .left then m else mR) dp := by
  cases c <;> rfl

/-- Settles O40: the frame completes, its lanes are those of `frameResult_words`, and every word of a lane is read back. -/
theorem frameStepComputesTheFrameRule : Obligations.FrameStepComputesTheFrameRule := by
  intro s h hp
  obtain ⟨t, hf⟩ := h.frame_completes hp
  have hconf := h.whenConfigured (h.whenProcessing hp).configured
  have hepoch := (leavesHost_frameResult hf).epoch
  obtain ⟨mod, hmod, hphase, hlane⟩ := frameResult_words hf
  obtain ⟨mod', hmod', -, hmem⟩ := lfoStep_completes s.params h.phase hconf.rateValid
  cases hmod.symm.trans hmod'
  obtain ⟨phR, phase', hphR, hadvance, rfl⟩ := lfoStep_ok.1 hmod
  refine ⟨t, phR, engineStep_next.2 (.inr (.inr ⟨hp, hf⟩)), fractionOf_eq_ok.1 hphR, ?_, frameResult_changes hp hf,
    fun c => ?_⟩
  · rw [hphase]
    exact fractionOf_eq_ok.1 hadvance
  · obtain ⟨p, hpos, hwh, hdl, hfb, hout⟩ := hlane c
    have hhead := headAdvance_lt (h.head_lt_cfgLen (h.whenProcessing hp).configured c)
    obtain ⟨hcur, hnxt⟩ := h.frame_position_lt hp (hwh ▸ hhead) (hmem c) hpos
    rw [Modulation.of_mk] at hpos
    obtain ⟨n, hn, rfl⟩ := readPosition_ok.1 hpos
    exact ⟨n, floorOf_eq_ok.1 hn, hcur, hnxt, hwh, hdl, hfb, hout⟩

end Sys2Proof.Machine
end

section
/-! Rounding to nearest, ties to even (00_scope R9): no representable value is nearer than the rounded one, a tie goes to the even
word, and overflow begins half a unit above the largest word. -/

namespace Sys2Proof.Machine

/-! Rounding a quotient to an integer -/

/-- No integer is nearer to a / b than the rounded one, and of two equally near ones it is the even one. -/
theorem divNearestEven_nearest {a b : Nat} (hb : 0 < b) (j : Nat) :
    ((divNearestEven a b * b : Nat) - (a : Int)).natAbs ≤ ((j * b : Nat) - (a : Int)).natAbs ∧
      (((divNearestEven a b * b : Nat) - (a : Int)).natAbs = ((j * b : Nat) - (a : Int)).natAbs →
        j ≠ divNearestEven a b → divNearestEven a b % 2 = 0) := by
  have ea := Nat.div_add_mod a b
  have hr := Nat.mod_lt a hb
  unfold divNearestEven
  generalize a / b = q at *
  generalize a % b = r at *
  dsimp only
  subst ea
  rw [Nat.mul_comm b q]
  have hq : (q + 1) * b = q * b + b := by ring
  rcases Nat.lt_trichotomy j q with hj | hj | hj
  · have hle : j * b + b ≤ q * b := by nlinarith
    split
    · rw [hq]
      constructor <;> omega
    · constructor <;> omega
  · subst hj
    split
    · rw [hq]
      constructor <;> omega
    · constructor <;> omega
  · rcases Nat.lt_or_ge j (q + 2) with hj2 | hj2
    · obtain rfl : j = q + 1 := by omega
      split
      · rw [hq]
        constructor <;> omega
      · rw [hq]
        constructor <;> omega
    · have hle : q * b + 2 * b ≤ j * b := by nlinarith
      split
      · rw [hq]
        constructor <;> omega
      · constructor <;> omega

/-! Representable magnitudes -/

/-- A representable magnitude is a multiple of the unit 2^k, or lies below the words whose unit that is. -/
theorem magnitudeOfBits_dvd_or_lt (b k : Nat) : 2 ^ k ∣ magnitudeOfBits b ∨ magnitudeOfBits b < 2 ^ (k + 23) := by
  obtain ⟨n, j, hm, hn⟩ := exists_significand b
  rw [hm]
  rcases Nat.lt_or_ge j k with hj | hj
  · right
    calc n * 2 ^ j < 2 ^ 24 * 2 ^ j := Nat.mul_lt_mul_of_pos_right hn (by positivity)
      _ = 2 ^ (24 + j) := (pow_add 2 24 j).symm
      _ ≤ 2 ^ (k + 23) := Nat.pow_le_pow_right (by norm_num) (by omega)
  · exact .inl ((Nat.pow_dvd_pow 2 hj).mul_left n)

/-- A rounded magnitude that does not overflow, in its unit. -/
theorem roundMagnitude_finite {num den : Nat} (hd : 0 < den) (h : roundMagnitude num den < 0x7F800000) :
    roundMagnitude num den = unitExponent num den * 2 ^ 23 + divNearestEven num (den * 2 ^ unitExponent num den) ∧
      magnitudeOfBits (roundMagnitude num den) =
        divNearestEven num (den * 2 ^ unitExponent num den) * 2 ^ unitExponent num den := by
  have hbits : roundMagnitude num den =
      unitExponent num den * 2 ^ 23 + divNearestEven num (den * 2 ^ unitExponent num den) := by
    rw [roundMagnitude_eq] at h ⊢
    omega
  obtain ⟨hlo, hhi⟩ := significand_bounds (num := num) hd
  exact ⟨hbits, by rw [hbits, magnitudeOfBits_add _ _ hlo hhi]⟩

/-- No representable magnitude is nearer to num / den than the rounded one; of two equally near ones it is the even one. -/
theorem roundMagnitude_nearest {num den : Nat} (hd : 0 < den) (h : roundMagnitude num den < 0x7F800000) (b : Nat) :
    ((magnitudeOfBits (roundMagnitude num den) * den : Nat) - (num : Int)).natAbs ≤
        ((magnitudeOfBits b * den : Nat) - (num : Int)).natAbs ∧
      (((magnitudeOfBits (roundMagnitude num den) * den : Nat) - (num : Int)).natAbs =
          ((magnitudeOfBits b * den : Nat) - (num : Int)).natAbs →
        magnitudeOfBits b ≠ magnitudeOfBits (roundMagnitude num den) → roundMagnitude num den % 2 = 0) := by
  obtain ⟨hbits, hmag⟩ := roundMagnitude_finite hd h
  have hspec := unitExponent_spec num den
  generalize hk : unitExponent num den = k at *
  have hp : 0 < den * 2 ^ k := by positivity
  have hnear := divNearestEven_nearest (a := num) hp
  have hpar : roundMagnitude num den % 2 = divNearestEven num (den * 2 ^ k) % 2 := by omega
  rw [hpar, hmag]
  generalize divNearestEven num (den * 2 ^ k) = r at *
  have hr : r * 2 ^ k * den = r * (den * 2 ^ k) := by ring
  rw [hr]
  obtain ⟨j, hj⟩ | hlt := magnitudeOfBits_dvd_or_lt b k
  · have hb : magnitudeOfBits b * den = j * (den * 2 ^ k) := by rw [hj]; ring
    rw [hb]
    refine ⟨(hnear j).1, fun heq hne => (hnear j).2 heq fun hjr => hne ?_⟩
    rw [hj, hjr, Nat.mul_comm]
  · obtain ⟨rfl, -⟩ | ⟨hlow, -⟩ := hspec
    · have hb : magnitudeOfBits b * den = magnitudeOfBits b * (den * 2 ^ 0) := by simp
      rw [hb]
      refine ⟨(hnear _).1, fun heq hne => (hnear _).2 heq fun hjr => hne ?_⟩
      simpa using hjr
    · have hbelow : magnitudeOfBits b * den < 2 ^ 23 * (den * 2 ^ k) := by
        calc magnitudeOfBits b * den < 2 ^ (k + 23) * den := Nat.mul_lt_mul_of_pos_right hlt hd
          _ = 2 ^ 23 * (den * 2 ^ k) := by rw [pow_add]; ring
      have habove : 2 ^ 23 * (den * 2 ^ k) ≤ num := by
        calc 2 ^ 23 * (den * 2 ^ k) = 2 ^ (k + 23) * den := by rw [pow_add]; ring
          _ ≤ num := (Nat.le_div_iff_mul_le hd).1 hlow
      have hfirst := (hnear (2 ^ 23)).1
      constructor <;> omega

/-- Overflow begins half a unit above the largest finite magnitude: a tie there goes to the even word, infinity. -/
theorem roundMagnitude_lt_iff {num den : Nat} (hd : 0 < den) :
    roundMagnitude num den < 0x7F800000 ↔ num < (2 ^ 25 - 1) * 2 ^ 252 * den := by
  constructor
  · intro h
    by_contra hge
    have htop : roundMagnitude ((2 ^ 25 - 1) * 2 ^ 252) 1 = 0x7F800000 := by decide +kernel
    have := roundMagnitude_mono (n := (2 ^ 25 - 1) * 2 ^ 252) (n' := num) Nat.one_pos hd (by omega)
    omega
  · intro h
    obtain ⟨-, hsig⟩ := significand_bounds (num := num) hd
    have hspec := unitExponent_spec num den
    have hnear := divNearestEven_near (a := num) (b := den * 2 ^ unitExponent num den) (by positivity)
    have hquot : num / den < 2 ^ 277 := by
      rw [Nat.div_lt_iff_lt_mul hd]
      exact h.trans_le (Nat.mul_le_mul_right den (by decide +kernel))
    rw [roundMagnitude_eq]
    generalize unitExponent num den = k at *
    have hk : k ≤ 253 := by
      obtain ⟨rfl, -⟩ | ⟨hlow, -⟩ := hspec
      · omega
      · have := (Nat.pow_lt_pow_iff_right (by norm_num : 1 < 2)).1 (hlow.trans_lt hquot)
        omega
    refine (min_le_left _ _).trans_lt ?_
    rcases Nat.lt_or_ge k 253 with hk' | hk'
    · have : k * 2 ^ 23 ≤ 252 * 2 ^ 23 := Nat.mul_le_mul_right _ (by omega)
      omega
    · obtain rfl : k = 253 := by omega
      have hlt : divNearestEven num (den * 2 ^ 253) < 2 ^ 24 := by
        have hhalf : 2 * (divNearestEven num (den * 2 ^ 253) * (den * 2 ^ 253)) < 2 * (2 ^ 24 * (den * 2 ^ 253)) := by
          have h1 := hnear.2
          rw [Nat.mul_assoc] at h1
          have h2 : 2 * ((2 ^ 25 - 1) * 2 ^ 252 * den) + den * 2 ^ 253 = 2 * (2 ^ 24 * (den * 2 ^ 253)) := by ring
          omega
        exact Nat.lt_of_mul_lt_mul_right (Nat.lt_of_mul_lt_mul_left hhalf)
      omega

/-! Rounded words -/

section
variable {negative : Bool} {num den : Nat}

theorem isFinite_roundRational_iff (hd : 0 < den) :
    isFinite (roundRational negative num den) = true ↔ num < (2 ^ 25 - 1) * 2 ^ 252 * den := by
  rw [isFinite_iff, bitsOf_roundRational, roundMagnitude_lt_iff hd]

/-- What is not finite after rounding is the infinity of its sign. -/
theorem roundRational_overflow (h : isFinite (roundRational negative num den) = false) :
    roundRational negative num den = packWord negative 0x7F800000 := by
  have hle := roundMagnitude_le num den
  rw [← Bool.not_eq_true, isFinite_iff, bitsOf_roundRational] at h
  rw [roundRational, show roundMagnitude num den = 0x7F800000 by omega]

theorem getLsbD_0_eq_false_of_even {x : Word} (h : bitsOf x % 2 = 0) : x.getLsbD 0 = false := by
  unfold bitsOf at h
  have hx : x.toNat % 2 = 0 := by omega
  rw [BitVec.getLsbD, Nat.testBit_zero, hx]
  rfl

/-- The nearest of signed values, from the nearest of magnitudes: `R`, of magnitude `m`, lies on the side of `e`, of magnitude
`n`, and `m` is as near to `n` as the magnitude `mx` and as 0 are. Where a value `X` of magnitude `mx` other than `R` is
equally near, so is `mx` or 0, and is not `m`. -/
theorem signed_nearest {R X e : Int} {m mx n : Nat} (hR : (R = m ∧ e = n) ∨ (R = -m ∧ e = -n)) (hX : X = mx ∨ X = -mx)
    (hnear : ((m : Int) - n).natAbs ≤ ((mx : Int) - n).natAbs) (hzero : ((m : Int) - n).natAbs ≤ n) :
    (R - e).natAbs ≤ (X - e).natAbs ∧ ((R - e).natAbs = (X - e).natAbs → X ≠ R →
      (((m : Int) - n).natAbs = ((mx : Int) - n).natAbs ∧ mx ≠ m) ∨ (((m : Int) - n).natAbs = n ∧ 0 ≠ m)) := by
  obtain ⟨rfl, rfl⟩ | ⟨rfl, rfl⟩ := hR <;> obtain rfl | rfl := hX
  · exact ⟨hnear, fun heq hne => .inl ⟨heq, by omega⟩⟩
  · exact ⟨by omega, fun heq hne => .inr ⟨by omega, by omega⟩⟩
  · exact ⟨by omega, fun heq hne => .inr ⟨by omega, by omega⟩⟩
  · exact ⟨by omega, fun heq hne => .inl ⟨by omega, by omega⟩⟩

/-- A word's value is its magnitude with its sign. -/
theorem signedValue_mul_cases (x : Word) (d : Nat) :
    signedValue x * d = (magnitude x * d : Nat) ∨ signedValue x * d = -(magnitude x * d : Nat) := by
  unfold signedValue
  split
  · right
    push_cast
    ring
  · left
    push_cast
    ring

/-- A rounded signed value e / den: no finite word is nearer to it, and a tie goes to the even word. -/
theorem roundRational_nearest {e : Int} (hd : 0 < den) (hneg : e < 0 → negative = true) (hpos : 0 < e → negative = false)
    (hfin : isFinite (roundRational negative e.natAbs den) = true) (x : Word) :
    (signedValue (roundRational negative e.natAbs den) * den - e).natAbs ≤ (signedValue x * den - e).natAbs ∧
      ((signedValue (roundRational negative e.natAbs den) * den - e).natAbs = (signedValue x * den - e).natAbs →
        signedValue x ≠ signedValue (roundRational negative e.natAbs den) →
        (roundRational negative e.natAbs den).getLsbD 0 = false) := by
  have hlt : roundMagnitude e.natAbs den < 0x7F800000 := by simpa [isFinite_iff] using hfin
  obtain ⟨hnear, htie⟩ := roundMagnitude_nearest hd hlt (bitsOf x)
  obtain ⟨hnear0, htie0⟩ := roundMagnitude_nearest hd hlt 0
  have hmag0 : magnitudeOfBits 0 = 0 := by decide
  have hzero : ((magnitudeOfBits 0 * den : Nat) - (e.natAbs : Int)).natAbs = e.natAbs := by
    rw [hmag0, Nat.zero_mul]
    omega
  rw [hzero] at hnear0 htie0
  have hside : (signedValue (roundRational negative e.natAbs den) * den =
        (magnitudeOfBits (roundMagnitude e.natAbs den) * den : Nat) ∧ e = e.natAbs) ∨
      (signedValue (roundRational negative e.natAbs den) * den =
        -(magnitudeOfBits (roundMagnitude e.natAbs den) * den : Nat) ∧ e = -e.natAbs) := by
    rw [signedValue_roundRational]
    cases negative with
    | true =>
      have he : ¬ 0 < e := fun h => Bool.noConfusion (hpos h)
      exact .inr ⟨by simp, by omega⟩
    | false =>
      have he : ¬ e < 0 := fun h => Bool.noConfusion (hneg h)
      exact .inl ⟨by simp, by omega⟩
  obtain ⟨hle, heq⟩ := signed_nearest hside (magnitude_eq x ▸ signedValue_mul_cases x den) hnear hnear0
  refine ⟨hle, fun htied hne => getLsbD_0_eq_false_of_even ?_⟩
  rw [bitsOf_roundRational]
  obtain ⟨hdist, hmag⟩ | ⟨hdist, hmag⟩ := heq htied fun h => hne (mul_right_cancel₀ (by exact_mod_cast hd.ne') h)
  · exact htie hdist fun h => hmag (by rw [h])
  · exact htie0 hdist fun h => hmag (by rw [← h, hmag0, Nat.zero_mul])

end

/-! Sums -/

/-- `r` is the exact value `e` rounded once: finite below the overflow threshold and the infinity of the sign of `e` at or above
it, a zero of the given sign for an exact 0, and otherwise the nearest finite word, ties to even. -/
def IsRoundedSum (r : Word) (e : Int) (negativeZero : Bool) : Prop :=
  (isFinite r = true ↔ e.natAbs < (2 ^ 25 - 1) * 2 ^ 252) ∧
  (isFinite r = false → r = if e < 0 then 0xFF800000#32 else 0x7F800000#32) ∧
  (e = 0 → r = if negativeZero then 0x80000000#32 else 0x00000000#32) ∧
  (isFinite r = true → ∀ x : Word, isFinite x = true →
    (signedValue r - e).natAbs ≤ (signedValue x - e).natAbs ∧
    ((signedValue r - e).natAbs = (signedValue x - e).natAbs → signedValue x ≠ signedValue r → r.getLsbD 0 = false))

theorem isRoundedSum_zero (negative : Bool) : IsRoundedSum (packWord negative 0) 0 negative := by
  refine ⟨by simp [isFinite_zero], fun h => ?_, fun _ => ?_, fun _ x _ => ?_⟩
  · rw [isFinite_zero] at h
    cases h
  · cases negative <;> decide
  · rw [signedValue_zero]
    omega

theorem isRoundedSum_roundRational {e : Int} (he : e ≠ 0) (negativeZero : Bool) :
    IsRoundedSum (roundRational (decide (e < 0)) e.natAbs 1) e negativeZero := by
  refine ⟨?_, fun h => ?_, fun h => absurd h he, fun h x _ => ?_⟩
  · rw [isFinite_roundRational_iff Nat.one_pos, Nat.mul_one]
  · rw [roundRational_overflow h]
    by_cases hneg : e < 0
    · rw [if_pos hneg, decide_eq_true hneg]
      decide
    · rw [if_neg hneg, decide_eq_false hneg]
      decide
  · have hnear := roundRational_nearest Nat.one_pos decide_eq_true (fun hpos => decide_eq_false (by omega)) h x
    simpa using hnear

theorem add32_isRoundedSum {a b : Word} (ha : isFinite a = true) (hb : isFinite b = true) :
    IsRoundedSum (add32 a b) (signedValue a + signedValue b) (signBit a && signBit b) := by
  rw [add32_of_finite ha hb]
  split
  next h =>
    rw [h]
    exact isRoundedSum_zero _
  next h => exact isRoundedSum_roundRational h _

theorem sub32_isRoundedSum {a b : Word} (ha : isFinite a = true) (hb : isFinite b = true) :
    IsRoundedSum (sub32 a b) (signedValue a - signedValue b) (signBit a && !signBit b) := by
  have h := add32_isRoundedSum ha ((isFinite_negate b).trans hb)
  rwa [signedValue_negate, ← sub_eq_add_neg, signBit_negate] at h

/-! Infinite operands -/

theorem isNaN_of_isInf {x : Word} (h : isInf x = true) : isNaN x = false := by
  rw [← Bool.not_eq_true, isNaN_iff, (isInf_iff x).1 h]
  omega

theorem isInf_negate (x : Word) : isInf (negate x) = isInf x := by
  rw [Bool.eq_iff_iff, isInf_iff, isInf_iff, bitsOf_negate]

theorem isNaN_negate (x : Word) : isNaN (negate x) = isNaN x := by
  rw [Bool.eq_iff_iff, isNaN_iff, isNaN_iff, bitsOf_negate]

/-- An infinity is not a zero. -/
theorem magnitude_ne_zero_of_isInf {x : Word} (h : isInf x = true) : magnitude x ≠ 0 := by
  rw [magnitude_eq, (isInf_iff x).1 h]
  decide +kernel

section
variable {a b : Word}

theorem add32_inf_left (ha : isInf a = true) (hb : isFinite b = true) : add32 a b = a := by
  simp [add32, isNaN_of_isInf ha, isNaN_of_isFinite hb, ha, isInf_of_isFinite hb]

theorem add32_inf_right (ha : isFinite a = true) (hb : isInf b = true) : add32 a b = b := by
  simp [add32, isNaN_of_isInf hb, isNaN_of_isFinite ha, hb, isInf_of_isFinite ha]

theorem add32_inf_inf (ha : isInf a = true) (hb : isInf b = true) :
    add32 a b = if signBit a = signBit b then a else Config.cnan := by
  by_cases h : signBit a = signBit b <;> simp [add32, isNaN_of_isInf ha, isNaN_of_isInf hb, ha, hb, h]

theorem sub32_inf_inf (ha : isInf a = true) (hb : isInf b = true) :
    sub32 a b = if signBit a = signBit b then Config.cnan else a := by
  rw [sub32, add32_inf_inf ha ((isInf_negate b).trans hb), signBit_negate]
  cases signBit a <;> cases signBit b <;> rfl

end

/-- Settles O46: a difference is the sum with the negated word. -/
theorem additionRoundsToNearestEven : Obligations.AdditionRoundsToNearestEven := by
  refine ⟨fun a b ha hb => ⟨add32_isRoundedSum ha hb, sub32_isRoundedSum ha hb⟩, fun a b ha => ⟨fun hb => ?_, fun hb =>
    ⟨fun hs => ?_, fun hs => ?_⟩⟩⟩
  · exact ⟨add32_inf_left ha hb, add32_inf_right hb ha, add32_inf_left ha ((isFinite_negate b).trans hb),
      add32_inf_right hb ((isInf_negate a).trans ha)⟩
  · rw [add32_inf_inf ha hb, if_pos hs]
  · rw [sub32_inf_inf ha hb, if_neg hs]

/-! Products and quotients -/

/-- The infinity of the sign of a product or a quotient. -/
theorem packWord_inf (sa sb : Bool) :
    packWord (sa != sb) 0x7F800000 = if sa = sb then 0x7F800000#32 else 0xFF800000#32 := by
  cases sa <;> cases sb <;> decide

theorem isInf_of_not_isFinite_roundRational {negative : Bool} {num den : Nat}
    (h : isFinite (roundRational negative num den) = false) : isInf (roundRational negative num den) = true := by
  rw [roundRational_overflow h, isInf_packWord_inf]

/-- The sign of an exact product, or quotient, that is not 0. -/
theorem signBit_bne_of_mul_neg {a b : Word} (h : signedValue a * signedValue b < 0) : (signBit a != signBit b) = true := by
  by_contra hne
  have hs : signBit a = signBit b := by simpa using hne
  have hnonneg : 0 ≤ signedValue a * signedValue b := by
    cases hb : signBit b with
    | true =>
      rw [signedValue_of_signBit hb, signedValue_of_signBit (hs.trans hb), neg_mul_neg]
      positivity
    | false =>
      rw [signedValue_of_not_signBit hb, signedValue_of_not_signBit (hs.trans hb)]
      positivity
  omega

theorem signBit_bne_of_mul_pos {a b : Word} (h : 0 < signedValue a * signedValue b) : (signBit a != signBit b) = false := by
  by_contra hne
  have hs : signBit a = !signBit b := by
    cases ha : signBit a <;> cases hb : signBit b <;> simp_all
  have hnonpos : signedValue a * signedValue b ≤ 0 := by
    cases hb : signBit b with
    | true =>
      rw [hb] at hs
      rw [signedValue_of_signBit hb, signedValue_of_not_signBit hs, mul_neg]
      exact Int.neg_nonpos_of_nonneg (by positivity)
    | false =>
      rw [hb] at hs
      rw [signedValue_of_not_signBit hb, signedValue_of_signBit hs, neg_mul]
      exact Int.neg_nonpos_of_nonneg (by positivity)
  omega

theorem natAbs_mul_signedValue (a b : Word) :
    (signedValue a * signedValue b).natAbs = magnitude a * magnitude b := by
  rw [Int.natAbs_mul, natAbs_signedValue, natAbs_signedValue]

/-- An infinity times what is no NaN and no zero. -/
theorem mul32_inf {a b : Word} (ha : isInf a = true) (hb : isNaN b = false) (h0 : magnitude b ≠ 0) :
    mul32 a b = packWord (signBit a != signBit b) 0x7F800000 ∧ mul32 b a = packWord (signBit a != signBit b) 0x7F800000 := by
  have ha0 := magnitude_ne_zero_of_isInf ha
  have hswap : (signBit b != signBit a) = (signBit a != signBit b) := bne_comm
  constructor <;> simp [mul32, isNaN_of_isInf ha, hb, ha, ha0, h0, hswap]

/-- Settles O47. -/
theorem multiplicationRoundsToNearestEven : Obligations.MultiplicationRoundsToNearestEven := by
  refine ⟨fun a b ha hb => ?_, fun a b ha hb h0 => ?_⟩
  · have he := natAbs_mul_signedValue a b
    dsimp only
    rw [mul32_of_finite ha hb, ← he]
    refine ⟨isFinite_roundRational_iff (by positivity), isInf_of_not_isFinite_roundRational, signBit_roundRational _ _ _,
      fun h x _ => ?_⟩
    have hnear := roundRational_nearest (by positivity) signBit_bne_of_mul_neg signBit_bne_of_mul_pos h x
    exact_mod_cast hnear
  · dsimp only
    rw [← packWord_inf]
    exact mul32_inf ha hb h0

/-- 1 or −1, the sign of a word. -/
def signFactor (x : Word) : Int := if signBit x then -1 else 1

theorem signFactor_natAbs (x : Word) : (signFactor x).natAbs = 1 := by
  unfold signFactor
  split <;> rfl

theorem signFactor_mul_self (x : Word) : signFactor x * signFactor x = 1 := by
  unfold signFactor
  split <;> rfl

theorem signedValue_eq_signFactor_mul (x : Word) : signedValue x = signFactor x * magnitude x := by
  unfold signedValue signFactor
  split <;> ring

/-- The quotient of finite words by one that is not 0, over the divisor's magnitude: the divisor's sign goes to the
dividend, here in units of 2^−298 (00_scope R9). -/
theorem div32_eq_signed {a b : Word} (ha : isFinite a = true) (hb : isFinite b = true) (h : magnitude b ≠ 0) :
    div32 a b = roundRational (signBit a != signBit b) (signFactor b * (signedValue a * 2 ^ 149)).natAbs (magnitude b) := by
  rw [div32_eq_round ha hb (Nat.pos_of_ne_zero h), Int.natAbs_mul, signFactor_natAbs, Int.natAbs_mul, natAbs_signedValue,
    Nat.one_mul]
  rfl

/-- The sign of that dividend is the exclusive or of the operands' signs. -/
theorem signedDividend_mul {a b : Word} :
    signFactor b * (signedValue a * 2 ^ 149) * magnitude b = signedValue a * signedValue b * 2 ^ 149 := by
  rw [signedValue_eq_signFactor_mul b]
  ring

/-- Distances to the quotient, after multiplying by the divisor or by its magnitude. -/
theorem natAbs_mul_divisor (q e : Int) (b : Word) :
    (q * signedValue b - e).natAbs = (q * magnitude b - signFactor b * e).natAbs := by
  have hfactor : q * signedValue b - e = signFactor b * (q * magnitude b - signFactor b * e) := by
    rw [signedValue_eq_signFactor_mul b, mul_sub, ← mul_assoc (signFactor b) (signFactor b), signFactor_mul_self]
    ring
  rw [hfactor, Int.natAbs_mul, signFactor_natAbs, Nat.one_mul]

/-! Quotients with an infinity or a zero -/

section
variable {a b : Word}

theorem div32_inf_finite (ha : isInf a = true) (hb : isFinite b = true) :
    div32 a b = packWord (signBit a != signBit b) 0x7F800000 := by
  simp [div32, isNaN_of_isInf ha, isNaN_of_isFinite hb, ha, isInf_of_isFinite hb]

theorem isFinite_of_magnitude_zero (h : magnitude b = 0) : isFinite b = true := by
  have hle : magnitudeOfBits (bitsOf b) ≤ magnitudeOfBits 0 := by
    rw [← magnitude_eq, h]
    omega
  rw [isFinite_iff]
  have := magnitudeOfBits_le_iff.1 hle
  omega

theorem div32_by_zero (ha : isFinite a = true) (ha0 : magnitude a ≠ 0) (hb : magnitude b = 0) :
    div32 a b = packWord (signBit a != signBit b) 0x7F800000 := by
  have hbfin := isFinite_of_magnitude_zero hb
  simp [div32, isNaN_of_isFinite ha, isNaN_of_isFinite hbfin, isInf_of_isFinite ha, isInf_of_isFinite hbfin, ha0, hb]

theorem div32_by_inf (ha : isFinite a = true) (hb : isInf b = true) :
    div32 a b = packWord (signBit a != signBit b) 0 := by
  simp [div32, isNaN_of_isFinite ha, isNaN_of_isInf hb, isInf_of_isFinite ha, hb]

theorem packWord_zero (sa sb : Bool) :
    packWord (sa != sb) 0 = if sa = sb then 0x00000000#32 else 0x80000000#32 := by
  cases sa <;> cases sb <;> decide

end

/-- Settles O48: the quotient is rounded over the divisor's magnitude. -/
theorem divisionRoundsToNearestEven : Obligations.DivisionRoundsToNearestEven := by
  refine ⟨fun a b ha hb h0 => ?_, fun a b => ?_⟩
  · have hd : 0 < magnitude b := Nat.pos_of_ne_zero h0
    have hdiv := div32_eq_signed ha hb h0
    have hnum : (signFactor b * (signedValue a * 2 ^ 149)).natAbs = magnitude a * 2 ^ 149 := by
      rw [Int.natAbs_mul, signFactor_natAbs, Int.natAbs_mul, natAbs_signedValue, Nat.one_mul]
      rfl
    have hsign := signedDividend_mul (a := a) (b := b)
    have hpos : (0 : Int) < magnitude b := by exact_mod_cast hd
    dsimp only
    rw [hdiv]
    refine ⟨?_, isInf_of_not_isFinite_roundRational, signBit_roundRational _ _ _, fun h x _ => ?_⟩
    · rw [isFinite_roundRational_iff hd, hnum]
    · simp only [natAbs_mul_divisor]
      exact roundRational_nearest hd (fun hneg => signBit_bne_of_mul_neg (by nlinarith))
        (fun hpos' => signBit_bne_of_mul_pos (by nlinarith)) h x
  · dsimp only
    rw [← packWord_inf, ← packWord_zero]
    exact ⟨div32_inf_finite, div32_by_zero, div32_by_inf⟩

/-! NaNs -/

theorem isNaN_packWord_zero (negative : Bool) : isNaN (packWord negative 0) = false :=
  isNaN_of_isFinite (isFinite_zero negative)

section
variable {a b : Word}

theorem sub32_nan (h : isNaN a = true ∨ isNaN b = true) : sub32 a b = Config.cnan :=
  add32_nan (h.imp_right fun hb => (isNaN_negate b).trans hb)

theorem div32_nan (h : isNaN a = true ∨ isNaN b = true) : div32 a b = Config.cnan := by
  unfold div32
  rw [if_pos (by simpa using h)]

/-- A sum is a NaN only as the canonical one: its other values are an operand, an infinity then, or a rounded value. -/
theorem add32_canonical (h : isNaN (add32 a b) = true) : add32 a b = Config.cnan := by
  unfold add32 at h ⊢
  dsimp only at h ⊢
  split_ifs at h ⊢
  · rfl
  · rfl
  · simp_all
  · simp_all
  · simp_all [isNaN_packWord_zero]
  · simp at h

theorem mul32_canonical (h : isNaN (mul32 a b) = true) : mul32 a b = Config.cnan := by
  unfold mul32 at h ⊢
  split_ifs at h ⊢
  · rfl
  · rfl
  · simp [isNaN_packWord_inf] at h
  · simp at h

theorem div32_canonical (h : isNaN (div32 a b) = true) : div32 a b = Config.cnan := by
  unfold div32 at h ⊢
  split_ifs at h ⊢
  · rfl
  · rfl
  · simp [isNaN_packWord_inf] at h
  · simp [isNaN_packWord_zero] at h
  · rfl
  · simp [isNaN_packWord_inf] at h
  · simp at h

theorem mul32_inf_zero (ha : isInf a = true) (hb : magnitude b = 0) :
    mul32 a b = Config.cnan ∧ mul32 b a = Config.cnan := by
  constructor <;> simp [mul32, ha, hb]

theorem div32_inf_inf (ha : isInf a = true) (hb : isInf b = true) : div32 a b = Config.cnan := by
  simp [div32, ha, hb]

theorem div32_zero_zero (ha : magnitude a = 0) (hb : magnitude b = 0) : div32 a b = Config.cnan := by
  have hafin := isFinite_of_magnitude_zero ha
  have hbfin := isFinite_of_magnitude_zero hb
  simp [div32, isNaN_of_isFinite hafin, isNaN_of_isFinite hbfin, isInf_of_isFinite hafin, isInf_of_isFinite hbfin, ha, hb]

end

/-- Settles O49: each operation by its branches. -/
theorem naNResultsAreCanonical : Obligations.NaNResultsAreCanonical := by
  refine fun a b => ⟨fun h => ⟨add32_nan h, sub32_nan h, mul32_nan h, div32_nan h⟩, fun ha hb => ⟨div32_inf_inf ha hb,
    fun hs => ?_, fun hs => ?_⟩, mul32_inf_zero, div32_zero_zero, add32_canonical, fun h => add32_canonical h,
    mul32_canonical, div32_canonical⟩
  · exact (add32_inf_inf ha hb).trans (if_neg hs)
  · exact (sub32_inf_inf ha hb).trans (if_pos hs)

end Sys2Proof.Machine
end

section
/-! Stability in silence (44_engine_frame R233). One rounding errs by at most one part in 2^24, or half a unit among the
subnormals; FB_MAX leaves a fiftieth, which pays for the roundings of the interpolation and of the feedback product in
every peak from 64 units of 2^−149 (log 19), and not in a peak of 3. -/

namespace Sys2Proof.Machine

/-! The error of one rounding -/

/-- One rounding gains at most one part in 2^24, and half a unit of 2^−149. -/
theorem roundMagnitude_error (num : Nat) {den : Nat} (hd : 0 < den) :
    2 ^ 24 * (magnitudeOfBits (roundMagnitude num den) * den) ≤ (2 ^ 24 + 1) * num + 2 ^ 23 * den := by
  obtain ⟨hnormal, hsig⟩ := significand_bounds (num := num) hd
  have hexp := unitExponent_spec num den
  have hround : magnitudeOfBits (roundMagnitude num den) ≤
      divNearestEven num (den * 2 ^ unitExponent num den) * 2 ^ unitExponent num den := by
    rw [← magnitudeOfBits_add _ _ hnormal hsig, magnitudeOfBits_le_iff, roundMagnitude_eq]
    exact min_le_left _ _
  generalize unitExponent num den = k at *
  obtain ⟨-, hnear⟩ := divNearestEven_near (a := num) (show 0 < den * 2 ^ k by positivity)
  generalize divNearestEven num (den * 2 ^ k) = q at *
  have hunit : 2 ^ 23 * (den * 2 ^ k) ≤ num + 2 ^ 23 * den := by
    rcases hexp with ⟨rfl, -⟩ | ⟨hk, -⟩
    · omega
    · rw [Nat.le_div_iff_mul_le hd] at hk
      calc 2 ^ 23 * (den * 2 ^ k) = 2 ^ (k + 23) * den := by ring
        _ ≤ num + 2 ^ 23 * den := by omega
  have hmag := Nat.mul_le_mul_right den hround
  have hcomm : q * 2 ^ k * den = q * (den * 2 ^ k) := by ring
  rw [mul_assoc] at hnear
  omega

/-- What one rounding of a product gains. -/
theorem mul32_magnitude_le {a b : Word} (ha : isFinite a = true) (hb : isFinite b = true) :
    2 ^ 24 * (magnitude (mul32 a b) * 2 ^ 149) ≤ (2 ^ 24 + 1) * (magnitude a * magnitude b) + 2 ^ 23 * 2 ^ 149 := by
  rw [mul32_of_finite ha hb, magnitude_roundRational]
  exact roundMagnitude_error _ (by positivity)

/-- What one rounding of a sum gains. -/
theorem add32_magnitude_le {a b : Word} (ha : isFinite a = true) (hb : isFinite b = true) :
    2 ^ 24 * magnitude (add32 a b) ≤ (2 ^ 24 + 1) * (signedValue a + signedValue b).natAbs + 2 ^ 23 := by
  have herr := roundMagnitude_error (signedValue a + signedValue b).natAbs one_pos
  rw [add32_of_finite ha hb]
  split
  · rw [← natAbs_signedValue, signedValue_zero]
    omega
  · rw [magnitude_roundRational]
    omega

theorem isFinite_of_magnitude_lt {x : Word} (h : magnitude x < 2 ^ 277) :
    isFinite x = true := by
  have hinf : magnitudeOfBits 0x7F800000 = 2 ^ 277 := by decide +kernel
  rw [isFinite_iff, ← magnitudeOfBits_lt_iff, hinf, ← magnitude_eq]
  exact h

/-- The sum with a zero has the other addend's value. -/
theorem add32_of_magnitude_zero {x a : Word} (hx : magnitude x = 0) (ha : isFinite a = true) :
    isFinite (add32 x a) = true ∧ magnitude (add32 x a) = magnitude a := by
  have hxfin := isFinite_of_magnitude_zero hx
  have hxv : signedValue x = 0 := by rw [← Int.natAbs_eq_zero, natAbs_signedValue, hx]
  have hle := add32_le hxfin ha ha (by omega)
  have hge := le_add32 hxfin ha ha (by omega)
  refine ⟨isFinite_add32 hxfin ha ha ha (by omega) (by omega), ?_⟩
  rw [← natAbs_signedValue, ← natAbs_signedValue, le_antisymm hle hge]

/-! The interpolation and the feedback product -/

/-- The two weights of an interpolation sum to 1, or a rounding above it. -/
theorem blend_weights_le {f : Word} (hf : isFinite f = true) (h0 : 0 ≤ signedValue f) (h1 : magnitude f < 2 ^ 149) :
    isFinite (sub32 Config.one f) = true ∧
      2 ^ 24 * (magnitude (sub32 Config.one f) + magnitude f) ≤ (2 ^ 24 + 2) * 2 ^ 149 := by
  have hfneg : isFinite (negate f) = true := by simpa using hf
  have herr := add32_magnitude_le isFinite_one hfneg
  rw [signedValue_negate, signedValue_one] at herr
  have hv := magnitude_of_nonneg h0
  have hsum : 2 ^ 24 * (magnitude (sub32 Config.one f) + magnitude f) ≤ (2 ^ 24 + 2) * 2 ^ 149 := by
    unfold sub32
    omega
  exact ⟨isFinite_of_magnitude_lt (by omega), hsum⟩

/-- `w` exceeds `bound` by no more than the roundings of one interpolation (43_fractional_reader R185) can add. -/
def WithinBlend (bound w : Nat) : Prop :=
  2 ^ 72 * w ≤ (2 ^ 24 + 1) ^ 2 * (2 ^ 24 + 2) * bound + (2 ^ 24 + 1) * 2 ^ 48 + 2 ^ 71

theorem withinBlend_of_le {bound w : Nat} (h : w ≤ bound) : WithinBlend bound w := by
  unfold WithinBlend
  omega

theorem WithinBlend.lt {bound w : Nat} (h : WithinBlend bound w) (hbound : bound ≤ 2 ^ 276) : w < 2 ^ 277 := by
  unfold WithinBlend at h
  omega

/-- The interpolation of two words within a peak stays within it, but for its own roundings. -/
theorem blend_within {f a b : Word} {bound : Nat} (hf : isFinite f = true) (h0 : 0 ≤ signedValue f)
    (h1 : magnitude f < 2 ^ 149) (ha : isFinite a = true ∧ magnitude a ≤ bound)
    (hb : isFinite b = true ∧ magnitude b ≤ bound) (hbound : bound ≤ 2 ^ 276) :
    isFinite (blend f a b) = true ∧ WithinBlend bound (magnitude (blend f a b)) := by
  obtain ⟨hafin, hale⟩ := ha
  obtain ⟨hbfin, hble⟩ := hb
  obtain ⟨hgfin, hweights⟩ := blend_weights_le hf h0 h1
  have hu := mul32_magnitude_le hgfin hafin
  have hv := mul32_magnitude_le hf hbfin
  have hterms : 2 ^ 48 * (magnitude (mul32 (sub32 Config.one f) a) + magnitude (mul32 f b)) ≤
      (2 ^ 24 + 1) * (2 ^ 24 + 2) * bound + 2 ^ 48 := by
    have hga := Nat.mul_le_mul_left (magnitude (sub32 Config.one f)) hale
    have hfb := Nat.mul_le_mul_left (magnitude f) hble
    have hall := Nat.mul_le_mul_right bound hweights
    have hsum : 2 ^ 24 * (magnitude (sub32 Config.one f) + magnitude f) * bound =
        2 ^ 24 * (magnitude (sub32 Config.one f) * bound + magnitude f * bound) := by ring
    omega
  have hufin : isFinite (mul32 (sub32 Config.one f) a) = true := isFinite_of_magnitude_lt (by omega)
  have hvfin : isFinite (mul32 f b) = true := isFinite_of_magnitude_lt (by omega)
  have hw := add32_magnitude_le hufin hvfin
  have hnu := natAbs_signedValue (mul32 (sub32 Config.one f) a)
  have hnv := natAbs_signedValue (mul32 f b)
  have hwithin : WithinBlend bound (magnitude (blend f a b)) := by
    unfold WithinBlend blend
    omega
  exact ⟨isFinite_of_magnitude_lt (hwithin.lt hbound), hwithin⟩

/-- The feedback coefficient of a frame is at most FB_MAX (44_engine_frame R201). -/
theorem snapshot_fbc_bounds (p : Params) :
    isFinite (snapshot p).fbc = true ∧ magnitude (snapshot p).fbc ≤ 0xFAE148 * 2 ^ 125 := by
  have hmem : le32 0x00000000#32 (snapshot p).fbc = true ∧ le32 (snapshot p).fbc Config.fbMax = true :=
    clamp32_mem (by decide +kernel)
  refine ⟨isFinite_of_le32 (by decide) (by decide) hmem.1 hmem.2, ?_⟩
  obtain ⟨-, -, hlow⟩ := le32_iff.1 hmem.1
  obtain ⟨-, -, hhigh⟩ := le32_iff.1 hmem.2
  have hzero : signedValue 0x00000000#32 = 0 := by decide
  have hmax : signedValue Config.fbMax = 0xFAE148 * 2 ^ 125 := by decide +kernel
  have hv := magnitude_of_nonneg (hzero ▸ hlow)
  omega

/-- FB_MAX takes back what the interpolation's roundings added, in a peak from 64 units. -/
theorem feedback_within {w k : Word} {bound : Nat} (hw : isFinite w = true) (hwithin : WithinBlend bound (magnitude w))
    (hk : isFinite k = true) (hkle : magnitude k ≤ 0xFAE148 * 2 ^ 125) (hlow : 64 ≤ bound) (hhigh : bound ≤ 2 ^ 276) :
    isFinite (mul32 w k) = true ∧ magnitude (mul32 w k) ≤ bound := by
  have herr := mul32_magnitude_le hw hk
  have hprod := Nat.mul_le_mul_left (magnitude w) hkle
  have hle : magnitude (mul32 w k) ≤ bound := by
    unfold WithinBlend at hwithin
    omega
  exact ⟨isFinite_of_magnitude_lt (by omega), hle⟩

/-! A frame in silence -/

/-- The fraction of a read position is in [0, 1). -/
theorem readPosition_frac {wh len : Nat} {dn : Word} {p : ReadPosition} (hlen : len ≤ 2 ^ 24) (hwh : wh < len)
    (hdn : isFinite dn = true) (h0 : 0 ≤ signedValue dn) (hle : signedValue dn ≤ len * 2 ^ 149)
    (h : readPosition wh dn len = .ok p) :
    isFinite p.frac = true ∧ 0 ≤ signedValue p.frac ∧ magnitude p.frac < 2 ^ 149 := by
  obtain ⟨n, hn, rfl⟩ := readPosition_ok.1 h
  obtain ⟨hfin, hnonneg, rfl⟩ := floorOf_ok.1 hn
  obtain ⟨-, -, hmax⟩ := readWrap_bounds hlen hwh hdn h0 hle
  have hv := magnitude_of_nonneg hnonneg
  obtain ⟨hffin, hfv⟩ := sub32_floor_exact hfin hnonneg (by omega)
  refine ⟨hffin, hfv ▸ Int.natCast_nonneg _, ?_⟩
  rw [← natAbs_signedValue, hfv]
  omega

section
variable {s t : State} {c : Channel} {bound : Nat} {sn : Word → Word}

theorem SilentInput.magnitude_zero (h : SilentInput s c) : magnitude (inputWord s c s.framesDone) = 0 := by
  have hbits : bitsOf (inputWord s c s.framesDone) = 0 := by
    have := congrArg BitVec.toNat h
    simpa [bitsOf, BitVec.extractLsb'_toNat] using this
  rw [magnitude_eq, hbits]
  rfl

/-- In silence the word a frame writes into the delay line has the feedback value's magnitude, so the line stays within
its peak. -/
theorem WithinPeak.line_after_frame (h : WithinPeak s c bound) (hx : SilentInput s c)
    (hwords : ∀ i, delayWord t c i =
      if i = (s.lane c).wh then add32 (inputWord s c s.framesDone) (s.lane c).fb else delayWord s c i)
    {i : Nat} (hi : i < s.cfgLen) :
    isFinite (delayWord t c i) = true ∧ magnitude (delayWord t c i) ≤ bound := by
  obtain ⟨hfbfin, hfb, hdl⟩ := h
  rw [hwords]
  split
  · obtain ⟨hfin, hmag⟩ := add32_of_magnitude_zero hx.magnitude_zero hfbfin
    exact ⟨hfin, hmag ▸ hfb⟩
  · exact hdl i hi

/-- The wet sample of a frame whose delay line is within its peak. -/
theorem wetSample_within {p : ReadPosition} (hfb : isFinite (s.lane c).fb = true) (hbound : bound ≤ 2 ^ 276)
    (hfrac : isFinite p.frac = true ∧ 0 ≤ signedValue p.frac ∧ magnitude p.frac < 2 ^ 149)
    (hcur : isFinite (delayWord t c p.cur) = true ∧ magnitude (delayWord t c p.cur) ≤ bound)
    (hnxt : isFinite (delayWord t c p.nxt) = true ∧ magnitude (delayWord t c p.nxt) ≤ bound) :
    isFinite (wetSample s t c p) = true ∧ WithinBlend bound (magnitude (wetSample s t c p)) := by
  unfold wetSample
  rw [holdPoison_of_not_nan _ (isNaN_of_isFinite hfb)]
  obtain ⟨hfin, h0, h1⟩ := hfrac
  split
  · exact ⟨hcur.1, withinBlend_of_le hcur.2⟩
  · exact blend_within hfin h0 h1 hcur hnxt hbound

/-- Every read position of a frame: two words of the line in use, and a fraction in [0, 1). -/
theorem ConfiguredInv.readPosition_bounds (h : ConfiguredInv s) {m : Word} {wh : Nat} {p : ReadPosition}
    (hm : le32 Config.minusOne m = true ∧ le32 m Config.one = true) (hwh : wh < s.cfgLen)
    (hp : readPosition wh (delaySamples s.cfgSr s.params.effect m) s.cfgLen = .ok p) :
    p.cur < s.cfgLen ∧ p.nxt < s.cfgLen ∧
      isFinite p.frac = true ∧ 0 ≤ signedValue p.frac ∧ magnitude p.frac < 2 ^ 149 := by
  obtain ⟨hdfin, hd0, hdle⟩ := delaySamples_bounds s.params.effect h.rateValid hm.1 hm.2
  obtain ⟨hle, -, hmax⟩ := signedValue_le_length h.rateValid h.lengthOfRate
  obtain ⟨q, hq, hcur, hnxt, -⟩ :=
    readPositionIsInRange s.cfgSr m s.params.effect wh s.cfgLen h.rateValid h.lengthOfRate hwh hm.1 hm.2
  obtain rfl : q = p := Except.ok.inj (hq.symm.trans hp)
  exact ⟨hcur, hnxt, readPosition_frac (by omega) hwh hdfin hd0 (hdle.trans hle) hp⟩

/-- A frame in silence keeps a channel within its peak, from 64 units of 2^−149 to half the largest magnitude. -/
theorem WithinPeak.frame (h : WithinPeak s c bound) (hinv : Inv s) (hp : s.pend = .process) (hx : SilentInput s c)
    (hlow : 64 ≤ bound) (hhigh : bound ≤ 2 ^ 276) (hf : frameResult sine s = .ok t) : WithinPeak t c bound := by
  have hc := (hinv.whenProcessing hp).configured
  have hconf := hinv.whenConfigured hc
  obtain ⟨-, -, hlen, -⟩ := frameResult_frame hf
  obtain ⟨mod, hmod, -, hlanes⟩ := frameResult_words hf
  obtain ⟨mod', hmod', -, hunit⟩ := lfoStep_completes s.params hinv.phase hconf.rateValid
  obtain rfl : mod' = mod := Except.ok.inj (hmod'.symm.trans hmod)
  obtain ⟨p, hpos, hwh, hdl, hfb, -⟩ := hlanes c
  have hhead : (t.lane c).wh < s.cfgLen := hwh ▸ headAdvance_lt (hinv.head_lt_cfgLen hc c)
  obtain ⟨hcur, hnxt, hfrac⟩ := hconf.readPosition_bounds (hunit c) hhead hpos
  have hwords {i : Nat} (hi : i < s.cfgLen) := h.line_after_frame hx hdl hi
  obtain ⟨hwfin, hwle⟩ := wetSample_within h.1 hhigh hfrac (hwords hcur) (hwords hnxt)
  obtain ⟨hkfin, hkle⟩ := snapshot_fbc_bounds s.params
  obtain ⟨hffin, hfle⟩ := feedback_within hwfin hwle hkfin hkle hlow hhigh
  rw [← hfb] at hffin hfle
  exact ⟨hffin, hfle, fun i hi => hwords (hlen ▸ hi)⟩

end

/-- Settles O57: the roundings of one frame cost less than FB_MAX takes off. -/
theorem peakNeverGrowsInSilenceAboveTheSubnormals : Obligations.PeakNeverGrowsInSilenceAboveTheSubnormals :=
  fun _ _ _ _ hinv hp hx hpeak hlow hhigh h =>
    hpeak.frame hinv hp hx hlow hhigh (frameResult_of_engineStep hp h)

/-! The claim without the limits fails -/

/-- A lane of 400 zeros but for two words of 3 units, with input word 0 a +0. -/
def laneOfThrees : Lane :=
  { dl := { zeroed := 400, cells := [(397, 3#32), (398, 3#32)] }, wh := 0, fb := 0x00000000#32
    ibuf := { zeroed := 0, cells := [(0, 0x00000000#32)] }, obuf := .unspecified }

/-- At 200 Hz and depth 0 the chorus's read position is 397.5, half way between the two words of 3 units. -/
def silentAt200 : State :=
  { State.reset with
    srIn := 0x43480000#32, configured := true, pend := .process, fcl := 1, cfgSr := 0x43480000#32, cfgLen := 400
    cfgMaxblk := 1, left := laneOfThrees, right := laneOfThrees
    params := { State.reset.params with depth := 0x00000000#32, feedback := Config.fbMax, effect := .chorus } }

theorem inv_silentAt200 : Inv silentAt200 where
  leftWf := by decide +kernel
  rightWf := by decide +kernel
  phase := by decide +kernel
  maxblk := by decide
  framesDone := by decide
  whenConfigured := fun _ =>
    { rateValid := by decide +kernel
      lengthOfRate := by decide +kernel
      lengthLow := by decide
      lengthHigh := by decide
      headsEqual := rfl
      headLow := by decide
      leftZeroed := le_rfl
      rightZeroed := le_rfl }
  whenUnconfigured := fun h => absurd h (by decide)
  whenProcessing := fun _ => by constructor <;> decide
  whenConfiguring := fun h => absurd h (by decide)

theorem silentInput_silentAt200 : SilentInput silentAt200 .left := by
  unfold SilentInput
  decide

theorem withinPeak_silentAt200 : WithinPeak silentAt200 .left 3 :=
  ⟨by decide +kernel, by decide +kernel, (by decide +kernel : ∀ i, i < 400 →
    isFinite (delayWord silentAt200 .left i) = true ∧ magnitude (delayWord silentAt200 .left i) ≤ 3)⟩

/-- The magnitude of channel 0's feedback value after a step. -/
def feedbackAfter : Host.Outcome State Fault Refusal → Option Nat
  | .next t => some (magnitude t.left.fb)
  | _ => none

/-- The interpolation rounds 1.5 + 1.5 units up to 2 + 2, and FB_MAX of 4 units rounds back to 4. -/
theorem feedbackAfter_silentAt200 : feedbackAfter (engineStep sine silentAt200) = some 4 := by decide +kernel

/-- Refutes O56: in silence, channel 0's feedback value is 4 units after a frame whose peak was 3. -/
theorem not_peakNeverGrowsInSilence : ¬ Obligations.PeakNeverGrowsInSilence := by
  intro h
  have hafter := feedbackAfter_silentAt200
  cases hstep : engineStep sine silentAt200 with
  | next t =>
    obtain ⟨-, hfb, -⟩ :=
      h silentAt200 t .left 3 inv_silentAt200 rfl silentInput_silentAt200 withinPeak_silentAt200 hstep
    rw [hstep] at hafter
    have hmag : magnitude t.left.fb = 4 := Option.some.inj hafter
    have hle : magnitude t.left.fb ≤ 3 := hfb
    omega
  | fault _ => simp [hstep, feedbackAfter] at hafter
  | refused _ => simp [hstep, feedbackAfter] at hafter

end Sys2Proof.Machine
end
